-- ==== Sys2Proof/Word.lean ====
section
/-! DEFINITION. The word types of the block: what R18 to R27 of spec/10_state.md and R60, R67 of
spec/30_encoding.md give as bits. There is no signed value anywhere in the block (spec/00_scope.md section 6). -/

namespace Sys2Proof

/-- A field element in polynomial form: bit i is the coefficient of x^i (R60). -/
abbrev Symbol := BitVec 10

/-- One byte of `DATA` or of an ECC buffer (R18, R19). -/
abbrev Byte := BitVec 8

/-- The `W_IN` = 16 bit container that carries a symbol in `CW` (R20, R67). -/
abbrev Container := BitVec 16

/-- The 8-bit command word that the host writes to `CMD` (R65). -/
abbrev CommandWord := BitVec 8

end Sys2Proof
end

