-- ==== Sys2Proof/Syntax.lean ====
section
/-! DEFINITION. The thirteen commands of the block (R64): the rows of spec/opcode_table.json, one constructor each. -/

namespace Sys2Proof

/-- A command. It has no immediate, no register number and no mode bit: every operand is implicit (R65). -/
inductive Instr where
  /-- INIT, code 0x1 (R91): build the field context. -/
  | init
  /-- GFMUL, code 0x2 (R100): multiply two field elements. -/
  | gfmul
  /-- GFINV, code 0x3 (R101): invert a field element. -/
  | gfinv
  /-- ENCODE, code 0x4 (R121): systematic encoder. -/
  | encode
  /-- SYND, code 0x5 (R131): syndrome calculator. -/
  | synd
  /-- BMSOLVE, code 0x6 (R141): error-locator solver. -/
  | bmsolve
  /-- CHIEN, code 0x7 (R151): root finder. -/
  | chien
  /-- FORNEY, code 0x8 (R162): error evaluator and corrector. -/
  | forney
  /-- DECODE, code 0x9 (R164): the four decoder units back to back. -/
  | decode
  /-- PACK, code 0xA (R182): parity symbols to ECC bytes. -/
  | pack
  /-- UNPACK, code 0xB (R183): ECC bytes to parity symbols. -/
  | unpack
  /-- COMPUTE, code 0xC (R185): the boundary operation `compute`. -/
  | compute
  /-- CORRECT, code 0xD (R187): the boundary operation `correct`. -/
  | correct
  deriving DecidableEq, Repr

/-- The two fields of a command word (R65): `CMD[3:0]` is the code, `CMD[7:4]` is reserved. -/
structure CommandFields where
  /-- `CMD[7:4]`. -/
  reserved : BitVec 4
  /-- `CMD[3:0]`. -/
  op : BitVec 4
  deriving DecidableEq, Repr

end Sys2Proof
end

