-- ==== Sys2Proof/WellFormed.lean ====
section
/-! DEFINITION. Which command words name a command (R65, R69 a), as checks on the two fields of the word.
The third construction-time check of the spec, that `PRIM_POLY` is primitive (R8, R92), is `Sys2Proof.Machine.isPrimitive`
in Sys2Proof/Machine/Field.lean, beside the builder whose recurrence it runs. -/

namespace Sys2Proof

/-- R65: "`CMD[7:4]` is reserved and must be written as 0". -/
def CommandFields.upperNibbleClear (c : CommandFields) : Bool := c.reserved == 0

/-- R69 (a): the codes 0x0, 0xE and 0xF name no command. -/
def CommandFields.codeAssigned (c : CommandFields) : Bool :=
  decide (1 ≤ c.op.toNat) && decide (c.op.toNat ≤ 13)

/-- The word names a command (R69 a). -/
def CommandFields.wf (c : CommandFields) : Bool := c.upperNibbleClear && c.codeAssigned

/-- Every command is well-formed: it has no operand field that could hold an ill-formed value (R65, R71). -/
def Instr.wf (i : Instr) : Bool :=
  match i with
  | .init => true
  | .gfmul => true
  | .gfinv => true
  | .encode => true
  | .synd => true
  | .bmsolve => true
  | .chien => true
  | .forney => true
  | .decode => true
  | .pack => true
  | .unpack => true
  | .compute => true
  | .correct => true

end Sys2Proof
end

