-- ==== Sys2Proof/Decode.lean ====
section
/-! DEFINITION. The command decoder, total on every 8-bit word, and the encoder (R64, R65, R69, R71). -/

namespace Sys2Proof

/-- Why a command word is rejected (R69 a). The block reports both as BadCommand. -/
inductive DecodeError where
  /-- `CMD[7:4]` is not 0. -/
  | upperNibbleNotZero
  /-- `CMD[3:0]` is 0x0, 0xE or 0xF. -/
  | reservedCode
  deriving DecidableEq, Repr

/-- The fields of a command word (R65). -/
def fieldsOf (w : CommandWord) : CommandFields := ⟨w.extractLsb' 4 4, w.extractLsb' 0 4⟩

/-- R64: the command that a 4-bit code names. -/
def commandOfCode (op : BitVec 4) : Except DecodeError Instr :=
  match op.toNat with
  | 0x1 => .ok .init
  | 0x2 => .ok .gfmul
  | 0x3 => .ok .gfinv
  | 0x4 => .ok .encode
  | 0x5 => .ok .synd
  | 0x6 => .ok .bmsolve
  | 0x7 => .ok .chien
  | 0x8 => .ok .forney
  | 0x9 => .ok .decode
  | 0xA => .ok .pack
  | 0xB => .ok .unpack
  | 0xC => .ok .compute
  | 0xD => .ok .correct
  | _ => .error .reservedCode

/-- R65, R69 (a): a word whose upper nibble is not 0 names no command, whatever its code. -/
def decode (w : CommandWord) : Except DecodeError Instr :=
  if (fieldsOf w).upperNibbleClear then commandOfCode (fieldsOf w).op else .error .upperNibbleNotZero

/-- R64: the 4-bit code of a command. -/
def codeOf (i : Instr) : BitVec 4 :=
  match i with
  | .init => 0x1
  | .gfmul => 0x2
  | .gfinv => 0x3
  | .encode => 0x4
  | .synd => 0x5
  | .bmsolve => 0x6
  | .chien => 0x7
  | .forney => 0x8
  | .decode => 0x9
  | .pack => 0xA
  | .unpack => 0xB
  | .compute => 0xC
  | .correct => 0xD

/-- R65, pattern `0000oooo`: the command word of a command. -/
def encode (i : Instr) : CommandWord := (0 : BitVec 4) ++ codeOf i

/-- The instruction that the decoder reads from a table word of `nbits` bits. Every command word is 8 bits (R71), so a
word of another length is no command. -/
def decodeTableWord (nbits w : Nat) : Option Instr :=
  if nbits = 8 ∧ w < 256 then
    match decode (BitVec.ofNat 8 w) with
    | .ok i => some i
    | .error _ => none
  else none

end Sys2Proof
end

