-- ==== Sys2Proof/Config.lean ====
section
/-! DEFINITION. The parameters that are fixed when the block is built (R7, R8, R9), and the values the spec leaves open. -/

namespace Sys2Proof.Config

/-! R7: the fixed parameters of the code. None is configurable at run time, so the model writes them as the
numerals the spec's own pseudocode uses; `Sys2Proof.Laws.parameters_agree` ties the names to the shapes of the buffers. -/

/-- Bits per symbol. -/
abbrev m : Nat := 10
/-- Number of field elements. -/
abbrev q : Nat := 1024
/-- Codeword length in symbols, and the order of α. -/
abbrev n : Nat := 1023
/-- Symbol errors corrected. -/
abbrev t : Nat := 4
/-- Data symbols of the unshortened code. -/
abbrev k : Nat := 1015
/-- Exponent of the first root of the generator polynomial. -/
abbrev fcr : Nat := 1
/-- Data bytes of a block. -/
abbrev dataLen : Nat := 512
/-- Implicit zero symbols of the shortened code. -/
abbrev padLen : Nat := 503
/-- Bytes of packed parity. -/
abbrev eccLen : Nat := 10
/-- Width of a symbol container on an input buffer (R9, decision D5). -/
abbrev wIn : Nat := 16

/-- R8, decision D2: the default of the open parameter `PRIM_POLY`, x^10 + x^3 + 1. Bit i is the coefficient of x^i.
The spec takes the number from general knowledge; the source gives none (log entry 2). -/
def primPolyBits : BitVec 11 := 0x409

/-- A free value of width `w`: element `i` of draw number `d` (`State.draws` counts the draws; log entry 4). It has no
body, so nothing can be proved of what it is. It stands for every value that spec/93_implementation_defined.md
answers with "any value" after a command or a reset (U1, U2, U3, U5). Equal draw numbers give equal values, also in two
blocks or two runs: DESIGN CHOICE of log entry 4. -/
opaque freeValue (w d i : Nat) : BitVec w

end Sys2Proof.Config
end

