-- ==== Sys2Proof/Machine/Buffer.lean ====
section
/-! DEFINITION. A buffer or register array of a fixed number of elements, and the polynomials held in one.
R40: each buffer is its own address space, indexed by element number, with no pointer and no aliasing.
R44: every access is to one whole element at an index inside the buffer (log entry 5). -/

namespace Sys2Proof.Machine

/-- A buffer of exactly `n` elements. Two buffers with equal elements are equal data. -/
structure Buffer (α : Type) (n : Nat) where
  /-- The elements, element 0 first. -/
  cells : List α
  /-- There are exactly `n` of them. -/
  size : cells.length = n
  deriving DecidableEq, Repr

/-- Element `i`. No command reads outside a buffer (R44), so `d` is never the answer at an index a rule uses. -/
def Buffer.getD {α : Type} {n : Nat} (b : Buffer α n) (i : Nat) (d : α) : α := b.cells.getD i d

/-- `X[i]` for a buffer of bit vectors. As the coefficient list of a polynomial it is 0 above the last index. -/
def Buffer.coeff {w n : Nat} (b : Buffer (BitVec w) n) (i : Nat) : BitVec w := b.getD i 0

/-- `X[i] <- v`. -/
def Buffer.set {α : Type} {n : Nat} (b : Buffer α n) (i : Nat) (v : α) : Buffer α n :=
  ⟨b.cells.set i v, by simp [b.size]⟩

/-- The buffer whose element `i` is `f i`. (Irreducible, as is `filled`, so that no comparison of two states unfolds the
list; `Sys2Proof.Laws.getD_tabulate` says what it holds.) -/
@[irreducible] def tabulate {α : Type} (n : Nat) (f : Nat → α) : Buffer α n :=
  ⟨(List.range n).map f, by simp⟩

/-- The buffer whose elements are all `v`. -/
@[irreducible] def filled {α : Type} (n : Nat) (v : α) : Buffer α n := ⟨List.replicate n v, by simp⟩

/-- The first `k` elements of a buffer. -/
def Buffer.take {α : Type} {n : Nat} (k : Nat) (h : k ≤ n) (b : Buffer α n) : Buffer α k :=
  ⟨b.cells.take k, by simp [b.size, h]⟩

/-- The exclusive-or of `f 0`, ..., `f (k - 1)`: a sum in the field, where addition is exclusive-or (R90, R104). -/
def xorSum (k : Nat) (f : Nat → Symbol) : Symbol := (List.range k).foldl (fun acc i => acc ^^^ f i) 0

/-- spec/00_scope.md section 7, `deg(P)`: "the largest i with P[i] ≠ 0, or 0 when all are 0". -/
def degree {n : Nat} (p : Buffer Symbol n) : Nat :=
  (List.range n).foldl (fun d i => if p.coeff i = 0 then d else i) 0

end Sys2Proof.Machine
end

