-- ==== Sys2Proof/Machine/Field.lean ====
section
/-! DEFINITION. The field GF(2^10): the table builder with its check of `PRIM_POLY`, and the field functions
(spec/40_field_arith.md, R90 to R104). The tables are state (R14, R15), so every field function takes them. -/

namespace Sys2Proof.Machine

/-- R61: the log form of an element: an exponent 0..1022, or "no logarithm exists for zero". -/
inductive LogForm where
  /-- `LOGZ`, the log form of 0. -/
  | logz
  /-- The exponent e of α^e. -/
  | exp (e : Fin 1023)
  deriving DecidableEq, Repr

/-- The two field tables, `EXP` (R14) and `LOG` (R15). -/
structure FieldTables where
  /-- `EXP[i]` is the polynomial form of α^i. -/
  exp : Buffer Symbol 1023
  /-- `LOG[v]` is the log form of the element v. -/
  log : Buffer LogForm 1024
  deriving DecidableEq, Repr

/-! ## The builder -/

/-- R92, the loop body: the next power of α. The shift drops bit 10, and the low part of `PRIM_POLY` is added when
bit 9 was set. -/
def xtimes (p : BitVec 11) (v : Symbol) : Symbol :=
  if v.getLsbD 9 then (v <<< 1) ^^^ p.setWidth 10 else v <<< 1

/-- R92: `k` successive entries of the forward table, the first being `v`. -/
def expEntries (p : BitVec 11) : Nat → Symbol → List Symbol
  | 0, _ => []
  | k + 1, v => v :: expEntries p k (xtimes p v)

theorem expEntries_length (p : BitVec 11) (k : Nat) (v : Symbol) : (expEntries p k v).length = k := by
  induction k generalizing v with
  | zero => rfl
  | succ k ih => simp [expEntries, ih]

/-- R92, the check line, over `k` entries from `v` on: none is 0, none is among those already `seen` (bit u of `seen`
is set when u has occurred), and after the last one v = 0x001. -/
def entriesDistinct (p : BitVec 11) : Nat → Symbol → Nat → Bool
  | 0, v, _ => v == 1
  | k + 1, v, seen =>
    v != 0 && !seen.testBit v.toNat && entriesDistinct p k (xtimes p v) (seen ||| (1 <<< v.toNat))

/-- R8, R92: `PRIM_POLY` has bits 10 and 0 set, and the builder's check holds. "it holds exactly when P is primitive,
and a model given a P for which it fails must refuse to build". -/
def isPrimitive (p : BitVec 11) : Bool :=
  p.getLsbD 10 && p.getLsbD 0 && entriesDistinct p 1023 1 0

/-- The parameter `PRIM_POLY`. A value that is not primitive cannot be put in one: decision D3, the model refuses to be
instantiated with it. -/
structure PrimPoly where
  /-- The 11 coefficients, bit i that of x^i. -/
  bits : BitVec 11
  /-- The check of R92. -/
  primitive : isPrimitive bits = true
  deriving DecidableEq, Repr

set_option maxRecDepth 20000 in
/-- The default `PRIM_POLY` of R8 passes the check. -/
theorem primPolyBits_isPrimitive : isPrimitive Config.primPolyBits = true := by decide +kernel

/-- The block's own `PRIM_POLY`, the default of R8 (log entry 2). -/
def primPoly : PrimPoly := ⟨Config.primPolyBits, primPolyBits_isPrimitive⟩

/-- R92: `EXP[0..1022]`. -/
def buildExp (p : PrimPoly) : Buffer Symbol 1023 :=
  ⟨expEntries p.bits 1023 1, expEntries_length p.bits 1023 1⟩

/-- R15, R93: the log form to record for the element `v`: the i with `EXP[i] = v`, or `LOGZ` when there is none, which
is so for v = 0 alone (log entry 9). -/
def logEntry (exp : Buffer Symbol 1023) (v : Symbol) : LogForm :=
  match exp.cells.findIdx? (fun u => u == v) with
  | some i => .exp (Fin.ofNat 1023 i)
  | none => .logz

/-- R93: `LOG[0..1023]`, the inverse of the forward table. -/
def buildLog (exp : Buffer Symbol 1023) : Buffer LogForm 1024 :=
  tabulate 1024 (fun v => logEntry exp (BitVec.ofNat 10 v))

/-- R92, R93: `build_field(PRIM_POLY)`. -/
def buildField (p : PrimPoly) : FieldTables := ⟨buildExp p, buildLog (buildExp p)⟩

/-! ## The field functions -/

/-- R104: addition, and subtraction, is exclusive-or. -/
def gfAdd (a b : Symbol) : Symbol := a ^^^ b

/-- R98: `alpha_pow(e)` for a non-negative exponent, the only kind a command uses (R102). -/
def alphaPow (F : FieldTables) (e : Nat) : Symbol := F.exp.coeff (e % 1023)

/-- R98: `alpha_pow(e)` for any integer exponent, with the non-negative remainder. -/
def alphaPowInt (F : FieldTables) (e : Int) : Symbol := F.exp.coeff (e % 1023).toNat

/-- R99: `gf_log`. -/
def gfLog (F : FieldTables) (v : Symbol) : LogForm := F.log.getD v.toNat .logz

/-- R99: `gf_exp`. -/
def gfExp (F : FieldTables) (l : LogForm) : Symbol :=
  match l with
  | .logz => 0
  | .exp e => F.exp.coeff e.val

/-- R95: `gf_mul`, the function of the unit `gf2_10_mult`. The zero test comes first: `LOGZ` is never added. In built
tables a non-zero element has an exponent, so the last case is not reached (log entry 8). -/
def gfMul (F : FieldTables) (a b : Symbol) : Symbol :=
  if a = 0 ∨ b = 0 then 0
  else
    match gfLog F a, gfLog F b with
    | .exp i, .exp j => F.exp.coeff ((i.val + j.val) % 1023)
    | _, _ => 0

/-- R96: `gf_inv`, the function of the unit `gf2_10_inv`, with the proof obligation a ≠ 0. The `LOGZ` case is not
reached in built tables (log entry 8). -/
def gfInv (F : FieldTables) (a : Symbol) (_nonzero : a ≠ 0) : Symbol :=
  match gfLog F a with
  | .exp e => F.exp.coeff ((1023 - e.val) % 1023)
  | .logz => 0

/-- R97: `gf_div`, with the proof obligation b ≠ 0. -/
def gfDiv (F : FieldTables) (a b : Symbol) (nonzero : b ≠ 0) : Symbol := gfMul F a (gfInv F b nonzero)

end Sys2Proof.Machine
end

