-- ==== Sys2Proof/Machine/State.lean ====
section
/-! DEFINITION. The state of the block (R11): plain data, everything spec/10_state.md names. R28's working registers
hold no value between commands and are the local values of the commands' functions. The parameters of R7 and R8 are not
state (R11). The two fields at the end are the model's own. -/

namespace Sys2Proof.Machine

/-- R27, R70: the values of `STATUS`. The codes 5 to 7 are never produced (U7), so they are no value of the type
(log entry 10). -/
inductive Status where
  /-- 0: the command ended without error. -/
  | ok
  /-- 1: a container read by the command holds a value of 1024 or more. -/
  | invalidSymbol
  /-- 2: the error pattern exceeds the correction capability. -/
  | uncorrectable
  /-- 3: `CMD` named no command. -/
  | badCommand
  /-- 4: GFINV was given the zero element. -/
  | zeroInverse
  deriving DecidableEq, Repr

/-- The state between two commands. -/
structure State where
  /-- `INIT_DONE`, 1 bit (R13). -/
  initDone : Bool
  /-- `EXP[0..1022]` and `LOG[0..1023]` (R14, R15). Not host-visible. -/
  tables : FieldTables
  /-- `GEN[0..8]`, in log form (R16). Not host-visible. -/
  gen : Buffer LogForm 9
  /-- `DATA[0..511]` (R18). -/
  data : Buffer Byte 512
  /-- `ECC_S[0..9]`, the stored ECC (R19). -/
  eccS : Buffer Byte 10
  /-- `ECC_R[0..9]`, the recomputed ECC (R19). -/
  eccR : Buffer Byte 10
  /-- `ECC_O[0..9]`, the result of COMPUTE and PACK (R19). -/
  eccO : Buffer Byte 10
  /-- `CW[0..1022]`, the codeword buffer (R20). -/
  cw : Buffer Container 1023
  /-- `PAR[0..7]`, the parity symbols (R21). -/
  par : Buffer Symbol 8
  /-- `SYN[1..8]` (R22). Element i of this buffer is `SYN[i + 1]`. -/
  syn : Buffer Symbol 8
  /-- `ALLZERO`, 1 bit (R22). -/
  allzero : Bool
  /-- `LAM[0..8]`, the error-locator polynomial (R23). -/
  lam : Buffer Symbol 9
  /-- `DEG` (R23). -/
  deg : BitVec 4
  /-- `ELL` (R23). -/
  ell : BitVec 4
  /-- `ROOT[0..7]`, root exponents (R24). -/
  root : Buffer (BitVec 10) 8
  /-- `LOC[0..7]`, positions (R24). -/
  loc : Buffer (BitVec 10) 8
  /-- `NROOT` (R24). -/
  nroot : BitVec 10
  /-- `OMEGA[0..7]`, the error-evaluator polynomial (R25). -/
  omega : Buffer Symbol 8
  /-- `GFA` (R26). -/
  gfa : Symbol
  /-- `GFB` (R26). -/
  gfb : Symbol
  /-- `GFQ` (R26). -/
  gfq : Symbol
  /-- `CMD` (R27). -/
  cmd : CommandWord
  /-- `STATUS` (R27, R70). -/
  status : Status
  /-- `RESULT` (R27, R70). -/
  result : BitVec 4
  /-- The model's own: the host has written `CMD` and the command that this write starts has not run yet (R65: "Writing
  `CMD` starts the command"). It is the input of a step, not a register of the block (log entry 3). -/
  cmdWritten : Bool
  /-- The model's own: how many draws of free values have been made (log entry 4). -/
  draws : Nat
  deriving DecidableEq, Repr

/-- Why a step stops the block with a fault: there is no such reason. Every error of the spec ends the command with a
`STATUS` code and the block goes on (R200, R204, R205), there is no alignment and no bounds fault (R44), and every command
terminates (R208); log entry 6. -/
inductive Fault
  deriving DecidableEq, Repr

/-- Why a step has no meaning. -/
inductive Refusal where
  /-- The command has no meaning in the model yet. Raised by no command of this model. It would be safe: the model stops
  where the block goes on. -/
  | notModelled (mnemonic : String)
  deriving DecidableEq, Repr

/-- R31, R230: the block right after reset. The spec gives `INIT_DONE`, `CMD`, `STATUS` and `RESULT`; it leaves every
other register "unspecified", and the model puts 0 (false, `LOGZ`) there (log entry 1, DESIGN CHOICE, unsafe). -/
def State.reset : State where
  initDone := false
  tables := ⟨filled 1023 0, filled 1024 .logz⟩
  gen := filled 9 .logz
  data := filled 512 0
  eccS := filled 10 0
  eccR := filled 10 0
  eccO := filled 10 0
  cw := filled 1023 0
  par := filled 8 0
  syn := filled 8 0
  allzero := false
  lam := filled 9 0
  deg := 0
  ell := 0
  root := filled 8 0
  loc := filled 8 0
  nroot := 0
  omega := filled 8 0
  gfa := 0
  gfb := 0
  gfq := 0
  cmd := 0x00
  status := .ok
  result := 0
  cmdWritten := false
  draws := 0

end Sys2Proof.Machine
end

