-- ==== Sys2Proof/Machine/Flags.lean ====
section
/-! DEFINITION. The flag-like state (R29): the codes of `STATUS` (R70, R200), the error kinds, and `ALLZERO` (R22, R130).
The block has no condition codes. -/

namespace Sys2Proof.Machine

/-- R200: the ways a command can end in an error. -/
inductive ErrorKind where
  /-- "an input symbol value is not representable in the field". -/
  | invalidSymbol
  /-- "syndrome-derived error pattern exceeds the code's correction capability t". -/
  | uncorrectable
  /-- `CMD` names no command. -/
  | badCommand
  /-- GFINV of the zero element. -/
  | zeroInverse
  deriving DecidableEq, Repr

/-- R200: what `STATUS` becomes when the error is raised. -/
def ErrorKind.status (e : ErrorKind) : Status :=
  match e with
  | .invalidSymbol => .invalidSymbol
  | .uncorrectable => .uncorrectable
  | .badCommand => .badCommand
  | .zeroInverse => .zeroInverse

/-- R70: the 3-bit code the host reads from `STATUS`. -/
def Status.code (s : Status) : BitVec 3 :=
  match s with
  | .ok => 0
  | .invalidSymbol => 1
  | .uncorrectable => 2
  | .badCommand => 3
  | .zeroInverse => 4

/-- R22, R130: the flag `allzero`: every syndrome is 0. -/
def syndromesAllZero (S : Buffer Symbol 8) : Bool := S.cells.all (fun v => v == 0)

end Sys2Proof.Machine
end

