-- ==== Sys2Proof/Machine/Generator.lean ====
section
/-! DEFINITION. The generator polynomial builder (spec/41_generator_poly.md, R110 to R113). -/

namespace Sys2Proof.Machine

/-- R111, the inner loop: the coefficients of (Σ acc[j]·x^j)·(x ⊕ a), one longer than `acc`. -/
def timesLinear (F : FieldTables) (a : Symbol) (acc : List Symbol) : List Symbol :=
  List.zipWith (fun u v => u ^^^ v) (0 :: acc) (acc.map (fun c => gfMul F c a) ++ [0])

/-- R110, R111: g_0, ..., g_8 in polynomial form: the accumulator starts at x ⊕ α^1 and is multiplied by x ⊕ α^i for
i = 2, ..., 8. -/
def generatorCoeffs (F : FieldTables) : List Symbol :=
  (List.range' 2 7).foldl (fun acc i => timesLinear F (alphaPow F i) acc) [alphaPow F 1, 1]

/-- R111, R112: `build_gen`: `GEN[j] = gf_log(g_j)`, converted once at the end. -/
def buildGen (F : FieldTables) : Buffer LogForm 9 :=
  tabulate 9 (fun j => gfLog F ((generatorCoeffs F).getD j 0))

/-- g_j as the encoder uses it: `gf_exp(GEN[j])` (R120). -/
def generatorCoeff (F : FieldTables) (gen : Buffer LogForm 9) (j : Nat) : Symbol := gfExp F (gen.getD j .logz)

end Sys2Proof.Machine
end

