-- ==== Sys2Proof/Machine/Operands.lean ====
section
/-! DEFINITION. How an operand is assembled: the complete list of R68, but for the ECC bytes of (c), which
Sys2Proof/Machine/Packing.lean holds. -/

namespace Sys2Proof.Machine

/-- R43, R68 (a): a data byte becomes a symbol by zero extension. -/
def byteToSymbol (b : Byte) : Symbol := b.setWidth 10

/-- R43, R68 (b), decision D14: a corrected symbol becomes a data byte by dropping bits 9 and 8. -/
def symbolToByte (s : Symbol) : Byte := s.setWidth 8

/-- R67: a container holds a valid symbol exactly when its value is at most 1023 (so 1023 is valid: conflict C1). -/
def containerValid (c : Container) : Bool := decide (c.toNat < 1024)

/-- R67, R68 (d): the symbol in a valid container. -/
def containerToSymbol (c : Container) : Symbol := c.setWidth 10

/-- R67: a symbol written to `CW`: bits 15 to 10 are zero. -/
def symbolToContainer (s : Symbol) : Container := s.setWidth 16

/-- R44, R68 (e): the position loc = (n − ρ) mod n of a root exponent ρ, which is at most 1023. -/
def rootToPosition (rho : Nat) : Nat := (1023 - rho) % 1023

/-- R67: every container of a buffer holds a valid symbol. -/
def allValid {n : Nat} (cw : Buffer Container n) : Bool := cw.cells.all containerValid

/-- R62: `CW[0..1014]`, the k data symbols of a codeword buffer. -/
def dataPart (cw : Buffer Container 1023) : Buffer Container 1015 := cw.take 1015 (by decide)

/-- The root exponents `ROOT[0..count − 1]` (R161). -/
def listedRoots (root : Buffer (BitVec 10) 8) (count : Nat) : List Nat := (root.cells.take count).map BitVec.toNat

end Sys2Proof.Machine
end

