-- ==== Sys2Proof/Machine/Ops.lean ====
section
/-! DEFINITION. The operations over the state that the commands share: the initialisation procedure, the end of a
command with and without an error, and what a command leaves unspecified. -/

namespace Sys2Proof.Machine

/-- R91, R103: `do_init`, for a block built with `PRIM_POLY` = `p`. Field tables first, then the generator polynomial;
with `INIT_DONE` = 1 nothing is written. -/
def doInit (p : PrimPoly) (s : State) : State :=
  if s.initDone then s
  else { s with tables := buildField p, gen := buildGen (buildField p), initDone := true }

/-- R50, R65: the block takes up the command that a write of `CMD` started. "The command code is read once". -/
def takeCommand (s : State) : State := { s with cmdWritten := false }

/-! ## The end of a command

An error of this block is what an exception is elsewhere. R204: "`raise E` ends the command at once", `STATUS` takes the
error's code and `RESULT` becomes 0; "Nothing is saved, no mode changes, control goes nowhere". R205: the return from an
error is the next write of `CMD`; there is no return command and no error state to clear. -/

/-- R204, R70: `raise E`. -/
def raise (e : ErrorKind) (s : State) : State := { s with status := e.status, result := 0 }

/-- R70: the end of a command without an error: `STATUS <- Ok`, and `RESULT` is the count of corrected symbols of FORNEY,
DECODE and CORRECT, 0 for every other command. -/
def complete (count : Nat) (s : State) : State := { s with status := .ok, result := BitVec.ofNat 4 count }

/-- R69 (a), U6: a command word that names no command changes `STATUS` and `RESULT` alone. -/
def badCommand (s : State) : State := raise .badCommand s

/-! ## Unspecified contents

Each register that the spec leaves unspecified takes a draw of its own, with a free value for each element (log entry 4),
and the counter moves past the draws taken. -/

/-- R30, U3: what COMPUTE and CORRECT leave of the unit-level registers, with any status. -/
def scrubUnitRegisters (s : State) : State :=
  { s with
    cw := tabulate 1023 (Config.freeValue 16 s.draws)
    par := tabulate 8 (Config.freeValue 10 (s.draws + 1))
    syn := tabulate 8 (Config.freeValue 10 (s.draws + 2))
    lam := tabulate 9 (Config.freeValue 10 (s.draws + 3))
    root := tabulate 8 (Config.freeValue 10 (s.draws + 4))
    loc := tabulate 8 (Config.freeValue 10 (s.draws + 5))
    omega := tabulate 8 (Config.freeValue 10 (s.draws + 6))
    allzero := Config.freeValue 1 (s.draws + 7) 0 == 1
    deg := Config.freeValue 4 (s.draws + 8) 0
    ell := Config.freeValue 4 (s.draws + 9) 0
    nroot := Config.freeValue 10 (s.draws + 10) 0
    gfa := Config.freeValue 10 (s.draws + 11) 0
    gfb := Config.freeValue 10 (s.draws + 12) 0
    gfq := Config.freeValue 10 (s.draws + 13) 0
    draws := s.draws + 14 }

/-- R187, U1: `DATA` after CORRECT ended with Uncorrectable: each byte any value. -/
def scrubData (s : State) : State :=
  { s with data := tabulate 512 (Config.freeValue 8 s.draws), draws := s.draws + 1 }

/-- R162, U2: the codeword buffer after a zero derivative, with the elements `i`, `i + 1`, ... of draw `d`: any valid
symbol at the position of each listed root, every other element unchanged. -/
def scrubPositions (d : Nat) : Nat → List Nat → Buffer Container 1023 → Buffer Container 1023
  | _, [], cw => cw
  | i, rho :: rest, cw =>
    scrubPositions d (i + 1) rest (cw.set (rootToPosition rho) (symbolToContainer (Config.freeValue 10 d i)))

/-- R162, U2, on the state. -/
def scrubCorrected (roots : List Nat) (s : State) : State :=
  { s with cw := scrubPositions s.draws 0 roots s.cw, draws := s.draws + 1 }

end Sys2Proof.Machine
end

