-- ==== Sys2Proof/Machine/BerlekampMassey.lean ====
section
/-! DEFINITION. The error-locator solver and BMSOLVE (spec/44_berlekamp_massey.md, R140, R141). -/

namespace Sys2Proof.Machine

/-- R140: the values carried from one step of the solver to the next. -/
structure SolverState where
  /-- λ[0..8]. -/
  lam : Buffer Symbol 9
  /-- B[0..8]. -/
  aux : Buffer Symbol 9
  /-- L. -/
  len : Nat
  deriving DecidableEq, Repr

/-- `S[i]` of the syndromes S[1..8] (R22). -/
def syndromeAt (S : Buffer Symbol 8) (i : Nat) : Symbol := S.coeff (i - 1)

/-- R140: λ(x) = 1, B(x) = 1, L = 0. -/
def solverStart : SolverState :=
  ⟨tabulate 9 (fun j => if j = 0 then 1 else 0), tabulate 9 (fun j => if j = 0 then 1 else 0), 0⟩

/-- R140: the discrepancy δ of step `r`: the sum of λ[i]·S[r − i] for i = 0, ..., r − 1. -/
def discrepancy (F : FieldTables) (S : Buffer Symbol 8) (lam : Buffer Symbol 9) (r : Nat) : Symbol :=
  xorSum r (fun i => gfMul F (lam.coeff i) (syndromeAt S (r - i)))

/-- R140, `shiftB`: B(x) <- x·B(x), kept to nine coefficients. -/
def shiftAux (B : Buffer Symbol 9) : Buffer Symbol 9 := tabulate 9 (fun j => if j = 0 then 0 else B.coeff (j - 1))

/-- R140: T(x) = λ(x) ⊕ δ·x·B(x), kept to degree 8. -/
def candidate (F : FieldTables) (lam B : Buffer Symbol 9) (delta : Symbol) : Buffer Symbol 9 :=
  tabulate 9 (fun j => if j = 0 then lam.coeff 0 else lam.coeff j ^^^ gfMul F delta (B.coeff (j - 1)))

/-- R140: the copy of λ scaled by 1/δ. -/
def scaledByInverse (F : FieldTables) (lam : Buffer Symbol 9) (delta : Symbol) (h : delta ≠ 0) : Buffer Symbol 9 :=
  tabulate 9 (fun j => gfMul F (gfInv F delta h) (lam.coeff j))

/-- R140: step `r` of the solver. -/
def solverStep (F : FieldTables) (S : Buffer Symbol 8) (st : SolverState) (r : Nat) : SolverState :=
  let delta := discrepancy F S st.lam r
  if h : delta = 0 then { st with aux := shiftAux st.aux }
  else if 2 * st.len ≤ r - 1 then
    ⟨candidate F st.lam st.aux delta, scaledByInverse F st.lam delta h, r - st.len⟩
  else
    ⟨candidate F st.lam st.aux delta, shiftAux st.aux, st.len⟩

/-- R140: the solver after the steps r = 1, ..., `k`. -/
def solverRun (F : FieldTables) (S : Buffer Symbol 8) (k : Nat) : SolverState :=
  (List.range' 1 k).foldl (solverStep F S) solverStart

/-- The result of the solver: λ, its degree and the final length counter. -/
structure SolverResult where
  /-- λ[0..8]. -/
  lam : Buffer Symbol 9
  /-- `deg(λ)`. -/
  deg : Nat
  /-- The final L. -/
  ell : Nat
  deriving DecidableEq, Repr

/-- R140: `bm_solve(S)`: exactly 2t = 8 steps, no early exit. -/
def bmSolve (F : FieldTables) (S : Buffer Symbol 8) : SolverResult :=
  let st := solverRun F S 8
  ⟨st.lam, degree st.lam, st.len⟩

/-- R141, after `do_init`. -/
def bmsolveUnit (s : State) : State :=
  let r := bmSolve s.tables s.syn
  complete 0 { s with lam := r.lam, deg := BitVec.ofNat 4 r.deg, ell := BitVec.ofNat 4 r.ell }

/-- R141: BMSOLVE. -/
def bmsolveCommand (p : PrimPoly) (s : State) : State := bmsolveUnit (doInit p s)

/-- R141: BMSOLVE, code 0x6. -/
def execBmsolve (s : State) : Host.Outcome State Fault Refusal := .next (bmsolveCommand primPoly s)

end Sys2Proof.Machine
end

