-- ==== Sys2Proof/Machine/Chien.lean ====
section
/-! DEFINITION. The root finder and CHIEN (spec/45_chien_search.md, R150, R151). -/

namespace Sys2Proof.Machine

/-- R150: λ(α^i). -/
def locatorAt (F : FieldTables) (lam : Buffer Symbol 9) (i : Nat) : Symbol :=
  xorSum 9 (fun j => gfMul F (lam.coeff j) (alphaPow F (i * j)))

/-- R150: the exponents i = 1, ..., 1023, rising, at which λ(α^i) = 0. -/
def chienRoots (F : FieldTables) (lam : Buffer Symbol 9) : List Nat :=
  (List.range' 1 1023).filter (fun i => locatorAt F lam i == 0)

/-- The result of the search (R150). -/
structure ChienResult where
  /-- The number of roots found, 0..1023. -/
  count : Nat
  /-- The first eight root exponents, 0 at an index of `count` or more. -/
  root : Buffer (BitVec 10) 8
  /-- Their positions, 0 at an index of `count` or more. -/
  loc : Buffer (BitVec 10) 8
  /-- `count` is the degree of λ. -/
  ok : Bool
  deriving DecidableEq, Repr

/-- R150: `chien(λ)`, read off the list of roots (log entry 9). -/
def chienSearch (F : FieldTables) (lam : Buffer Symbol 9) : ChienResult :=
  let roots := chienRoots F lam
  { count := roots.length
    root := tabulate 8 (fun c => BitVec.ofNat 10 (roots.getD c 0))
    loc := tabulate 8 (fun c => BitVec.ofNat 10 ((roots.map rootToPosition).getD c 0))
    ok := roots.length == degree lam }

/-- R151, after `do_init`. The result registers are written with either status. -/
def chienUnit (s : State) : State :=
  let r := chienSearch s.tables s.lam
  let s' := { s with root := r.root, loc := r.loc, nroot := BitVec.ofNat 10 r.count }
  if r.ok then complete 0 s' else raise .uncorrectable s'

/-- R151: CHIEN. -/
def chienCommand (p : PrimPoly) (s : State) : State := chienUnit (doInit p s)

/-- R151: CHIEN, code 0x7. -/
def execChien (s : State) : Host.Outcome State Fault Refusal := .next (chienCommand primPoly s)

end Sys2Proof.Machine
end

