-- ==== Sys2Proof/Machine/Encoder.lean ====
section
/-! DEFINITION. The systematic encoder and ENCODE (spec/42_encoder.md, R120, R121). -/

namespace Sys2Proof.Machine

/-- R120, one turn of the outer loop: the feedback is the data symbol plus the top cell, and each cell becomes the cell
below it plus g_j times the feedback. Cell 0 has no cell below it. All reads are of the cells before the turn. -/
def lfsrStep (F : FieldTables) (gen : Buffer LogForm 9) (d : Symbol) (bb : Buffer Symbol 8) : Buffer Symbol 8 :=
  let fb := d ^^^ bb.coeff 7
  tabulate 8 (fun j => (if j = 0 then 0 else bb.coeff (j - 1)) ^^^ gfMul F (generatorCoeff F gen j) fb)

/-- R120: the shift register, seeded with zeros, after the symbols `D` have been fed, the last of them first ("most
significant symbol first"). -/
def lfsrRun (F : FieldTables) (gen : Buffer LogForm 9) (D : List Symbol) : Buffer Symbol 8 :=
  D.foldr (lfsrStep F gen) (filled 8 0)

/-- R120: `rs_encode(D)`. Every container is checked before anything is produced. -/
def rsEncode (F : FieldTables) (gen : Buffer LogForm 9) (D : Buffer Container 1015) :
    Except ErrorKind (Buffer Symbol 8) :=
  if allValid D then .ok (lfsrRun F gen (D.cells.map containerToSymbol)) else .error .invalidSymbol

/-- R121, after `do_init`. The parity part of `CW` is not read, and `CW` is not written. -/
def encodeUnit (s : State) : State :=
  match rsEncode s.tables s.gen (dataPart s.cw) with
  | .error e => raise e s
  | .ok P => complete 0 { s with par := P }

/-- R121: ENCODE. -/
def encodeCommand (p : PrimPoly) (s : State) : State := encodeUnit (doInit p s)

/-- R121: ENCODE, code 0x4. -/
def execEncode (s : State) : Host.Outcome State Fault Refusal := .next (encodeCommand primPoly s)

end Sys2Proof.Machine
end

