-- ==== Sys2Proof/Machine/FieldUnits.lean ====
section
/-! DEFINITION. INIT, GFMUL and GFINV (spec/40_field_arith.md, R91, R100, R101). In this and the following files a command is
first a function of the state for a block built with any `PRIM_POLY` (R8), and its meaning is that function at the
block's own `PRIM_POLY`. -/

namespace Sys2Proof.Machine

/-- R91: INIT. -/
def initCommand (p : PrimPoly) (s : State) : State := complete 0 (doInit p s)

/-- R91: INIT, code 0x1. -/
def execInit (s : State) : Host.Outcome State Fault Refusal := .next (initCommand primPoly s)

/-- R100, after `do_init`. -/
def gfmulUnit (s : State) : State := complete 0 { s with gfq := gfMul s.tables s.gfa s.gfb }

/-- R100: GFMUL. -/
def gfmulCommand (p : PrimPoly) (s : State) : State := gfmulUnit (doInit p s)

/-- R100: GFMUL, code 0x2. -/
def execGfmul (s : State) : Host.Outcome State Fault Refusal := .next (gfmulCommand primPoly s)

/-- R101, after `do_init`: the zero element raises ZeroInverse and leaves `GFQ` as it was. -/
def gfinvUnit (s : State) : State :=
  if h : s.gfa = 0 then raise .zeroInverse s
  else complete 0 { s with gfq := gfInv s.tables s.gfa h }

/-- R101: GFINV. -/
def gfinvCommand (p : PrimPoly) (s : State) : State := gfinvUnit (doInit p s)

/-- R101: GFINV, code 0x3. -/
def execGfinv (s : State) : Host.Outcome State Fault Refusal := .next (gfinvCommand primPoly s)

end Sys2Proof.Machine
end

