-- ==== Sys2Proof/Machine/Syndrome.lean ====
section
/-! DEFINITION. The syndrome calculator and SYND (spec/43_syndrome.md, R130, R131). -/

namespace Sys2Proof.Machine

/-- R130: the element with logarithm `LOG[c] + k`, reduced modulo n: c·α^k for a non-zero c. Zero has no logarithm and
adds nothing to the sum. -/
def timesAlphaPow (F : FieldTables) (c : Symbol) (k : Nat) : Symbol :=
  match gfLog F c with
  | .logz => 0
  | .exp e => F.exp.coeff ((e.val + k) % 1023)

/-- R130, the inner loop: S[i] over the symbols `C`, the first of which is at position `p`. Zero symbols are skipped. -/
def syndromeSum (F : FieldTables) (i : Nat) : Nat → List Symbol → Symbol
  | _, [] => 0
  | p, c :: rest =>
    if c = 0 then syndromeSum F i (p + 1) rest
    else timesAlphaPow F c (i * p) ^^^ syndromeSum F i (p + 1) rest

/-- R130: S[1..8]. Element i of the answer is S[i + 1]. -/
def syndromes (F : FieldTables) (C : Buffer Container 1023) : Buffer Symbol 8 :=
  tabulate 8 (fun i => syndromeSum F (i + 1) 0 (C.cells.map containerToSymbol))

/-- R130: `rs_syndromes(C)`: the syndromes and the flag `allzero`, or InvalidSymbol before any result. -/
def rsSyndromes (F : FieldTables) (C : Buffer Container 1023) : Except ErrorKind (Buffer Symbol 8 × Bool) :=
  if allValid C then .ok (syndromes F C, syndromesAllZero (syndromes F C)) else .error .invalidSymbol

/-- R131, after `do_init`. -/
def syndUnit (s : State) : State :=
  match rsSyndromes s.tables s.cw with
  | .error e => raise e s
  | .ok (S, z) => complete 0 { s with syn := S, allzero := z }

/-- R131: SYND. -/
def syndCommand (p : PrimPoly) (s : State) : State := syndUnit (doInit p s)

/-- R131: SYND, code 0x5. -/
def execSynd (s : State) : Host.Outcome State Fault Refusal := .next (syndCommand primPoly s)

end Sys2Proof.Machine
end

