-- ==== Sys2Proof/Machine/Forney.lean ====
section
/-! DEFINITION. The error evaluator and corrector and FORNEY; the decoder and DECODE (spec/46_forney.md, R160 to R166). -/

namespace Sys2Proof.Machine

/-- R160: `omega_poly(S, λ)`: ω[i] is the sum of S[i + 1 − j]·λ[j] for j = 0, ..., min(d, i). -/
def omegaPoly (F : FieldTables) (S : Buffer Symbol 8) (lam : Buffer Symbol 9) : Buffer Symbol 8 :=
  tabulate 8 (fun i =>
    xorSum (min (degree lam) i + 1) (fun j => gfMul F (syndromeAt S (i + 1 - j)) (lam.coeff j)))

/-- R161: `num`, ω(α^ρ). -/
def evaluatorAt (F : FieldTables) (omega : Buffer Symbol 8) (rho : Nat) : Symbol :=
  xorSum 8 (fun i => gfMul F (omega.coeff i) (alphaPow F (i * rho)))

/-- R161: `den`, λ'(α^ρ): the odd coefficients only, λ[2k + 1]·α^(2k·ρ) for k = 0, ..., 3. -/
def derivativeAt (F : FieldTables) (lam : Buffer Symbol 9) (rho : Nat) : Symbol :=
  xorSum 4 (fun k => gfMul F (lam.coeff (2 * k + 1)) (alphaPow F (2 * k * rho)))

/-- R161, the loop over the roots: each non-zero magnitude is added to the symbol at the root's position; a zero
derivative raises Uncorrectable. -/
def applyMagnitudes (F : FieldTables) (omega : Buffer Symbol 8) (lam : Buffer Symbol 9) :
    List Nat → Buffer Container 1023 → Except ErrorKind (Buffer Container 1023)
  | [], C => .ok C
  | rho :: rest, C =>
    if h : derivativeAt F lam rho = 0 then .error .uncorrectable
    else if evaluatorAt F omega rho = 0 then applyMagnitudes F omega lam rest C
    else
      applyMagnitudes F omega lam rest
        (C.set (rootToPosition rho)
          (symbolToContainer
            (containerToSymbol (C.coeff (rootToPosition rho)) ^^^
              gfDiv F (evaluatorAt F omega rho) (derivativeAt F lam rho) h)))

/-- R161: `forney(C, S, λ, root, count)`, the root exponents root[0..count − 1] being `roots`. -/
def forney (F : FieldTables) (C : Buffer Container 1023) (S : Buffer Symbol 8) (lam : Buffer Symbol 9)
    (roots : List Nat) : Except ErrorKind (Buffer Container 1023 × Nat) :=
  match applyMagnitudes F (omegaPoly F S lam) lam roots C with
  | .error e => .error e
  | .ok C' => .ok (C', roots.length)

/-- R162, after `do_init`. The checks come in the spec's order; on a zero derivative `OMEGA` is written and `CW` is
unspecified at the listed positions. -/
def forneyUnit (s : State) : State :=
  if !allValid s.cw then raise .invalidSymbol s
  else if 8 < s.nroot.toNat then raise .uncorrectable s
  else
    let roots := listedRoots s.root s.nroot.toNat
    let s' := { s with omega := omegaPoly s.tables s.syn s.lam }
    match forney s.tables s.cw s.syn s.lam roots with
    | .error e => raise e (scrubCorrected roots s')
    | .ok (C, count) => complete count { s' with cw := C }

/-- R162: FORNEY. -/
def forneyCommand (p : PrimPoly) (s : State) : State := forneyUnit (doInit p s)

/-- R162: FORNEY, code 0x8. -/
def execForney (s : State) : Host.Outcome State Fault Refusal := .next (forneyCommand primPoly s)

/-- R163: `rs_decode(C)`. No test of L against d is added (R166), and the count is not compared with t. -/
def rsDecode (F : FieldTables) (C : Buffer Container 1023) : Except ErrorKind (Buffer Container 1023 × Nat) :=
  match rsSyndromes F C with
  | .error e => .error e
  | .ok (S, z) =>
    if z then .ok (C, 0)
    else
      let lam := (bmSolve F S).lam
      let r := chienSearch F lam
      if r.ok then forney F C S lam (listedRoots r.root r.count) else .error .uncorrectable

/-- R164, after `do_init`: "exactly the commands SYND, BMSOLVE, CHIEN, FORNEY run back to back on the shared registers,
with the two early exits" (decision D20). A stage that is not reached leaves its registers as they were. -/
def decodeUnit (s : State) : State :=
  let s1 := syndUnit s
  if s1.status ≠ .ok then s1
  else if s1.allzero then s1
  else
    let s2 := chienUnit (bmsolveUnit s1)
    if s2.status ≠ .ok then s2 else forneyUnit s2

/-- R164: DECODE. -/
def decodeCommand (p : PrimPoly) (s : State) : State := decodeUnit (doInit p s)

/-- R164: DECODE, code 0x9. -/
def execDecode (s : State) : Host.Outcome State Fault Refusal := .next (decodeCommand primPoly s)

end Sys2Proof.Machine
end

