-- ==== Sys2Proof/Machine/Packing.lean ====
section
/-! DEFINITION. The symbol-packing adapter: PACK and UNPACK; the two boundary operations: COMPUTE and CORRECT
(spec/47_packing_adapter.md, R180 to R187). -/

namespace Sys2Proof.Machine

/-- R66, R180: the five bytes of one group of four symbols. -/
def packGroup (s0 s1 s2 s3 : Symbol) : List Byte :=
  [ (s0 &&& 0xFF).setWidth 8,
    (((s1 &&& 0x3F) <<< 2) ||| (s0 >>> 8)).setWidth 8,
    (((s2 &&& 0x0F) <<< 4) ||| (s1 >>> 6)).setWidth 8,
    (((s3 &&& 0x03) <<< 6) ||| (s2 >>> 4)).setWidth 8,
    (s3 >>> 2).setWidth 8 ]

/-- R180: `pack(P)`: two groups, the second from byte 5 on. -/
def pack (P : Buffer Symbol 8) : Buffer Byte 10 :=
  ⟨packGroup (P.coeff 0) (P.coeff 1) (P.coeff 2) (P.coeff 3) ++
    packGroup (P.coeff 4) (P.coeff 5) (P.coeff 6) (P.coeff 7), rfl⟩

/-- R66, R181: the four symbols of one group of five bytes. -/
def unpackGroup (b0 b1 b2 b3 b4 : Byte) : List Symbol :=
  [ ((b1 &&& 0x03).setWidth 10 <<< 8) ||| b0.setWidth 10,
    ((b2 &&& 0x0F).setWidth 10 <<< 6) ||| (b1 >>> 2).setWidth 10,
    ((b3 &&& 0x3F).setWidth 10 <<< 4) ||| (b2 >>> 4).setWidth 10,
    (b4.setWidth 10 <<< 2) ||| (b3 >>> 6).setWidth 10 ]

/-- R181: `unpack(E)`. -/
def unpack (E : Buffer Byte 10) : Buffer Symbol 8 :=
  ⟨unpackGroup (E.coeff 0) (E.coeff 1) (E.coeff 2) (E.coeff 3) (E.coeff 4) ++
    unpackGroup (E.coeff 5) (E.coeff 6) (E.coeff 7) (E.coeff 8) (E.coeff 9), rfl⟩

/-- R182: PACK runs no `do_init`. -/
def packUnit (s : State) : State := complete 0 { s with eccO := pack s.par }

/-- R182: PACK, code 0xA. -/
def execPack (s : State) : Host.Outcome State Fault Refusal := .next (packUnit s)

/-- R183: UNPACK runs no `do_init`. -/
def unpackUnit (s : State) : State := complete 0 { s with par := unpack s.eccS }

/-- R183: UNPACK, code 0xB. -/
def execUnpack (s : State) : Host.Outcome State Fault Refusal := .next (unpackUnit s)

/-- R63, R184: `build_cw(D, P)`: 512 data symbols, 503 zeros, 8 parity symbols. -/
def buildCw (D : Buffer Byte 512) (P : Buffer Symbol 8) : Buffer Container 1023 :=
  ⟨D.cells.map (fun b => symbolToContainer (byteToSymbol b)) ++ List.replicate 503 0 ++ P.cells.map symbolToContainer,
    by rw [List.length_append, List.length_append, List.length_map, List.length_map, List.length_replicate, D.size, P.size]⟩

/-- R185, after `do_init`. The parity part of the codeword is not used ("any"). InvalidSymbol is checked and cannot
arise. -/
def computeUnit (s : State) : State :=
  match rsEncode s.tables s.gen (dataPart (buildCw s.data (filled 8 0))) with
  | .error e => raise e (scrubUnitRegisters s)
  | .ok P => complete 0 (scrubUnitRegisters { s with eccO := pack P })

/-- R185: COMPUTE. -/
def computeCommand (p : PrimPoly) (s : State) : State := computeUnit (doInit p s)

/-- R185: COMPUTE, code 0xC. -/
def execCompute (s : State) : Host.Outcome State Fault Refusal := .next (computeCommand primPoly s)

/-- R186: the 512 data bytes of a corrected codeword buffer. -/
def dataBytes (C : Buffer Container 1023) : Buffer Byte 512 :=
  ⟨(C.cells.take 512).map (fun c => symbolToByte (containerToSymbol c)), by rw [List.length_map, List.length_take, C.size]; rfl⟩

/-- R186: `correct(D, Es, Er)`. `Er` is used for the equality test and for nothing else. -/
def correctBlock (F : FieldTables) (D : Buffer Byte 512) (Es Er : Buffer Byte 10) :
    Except ErrorKind (Buffer Byte 512 × Nat) :=
  if Es = Er then .ok (D, 0)
  else
    match rsDecode F (buildCw D (unpack Es)) with
    | .error e => .error e
    | .ok (C, count) => if 4 < count then .error .uncorrectable else .ok (dataBytes C, count)

/-- R187, after `do_init`. With any status the unit-level registers are left unspecified (R30); after Uncorrectable
`DATA` is unspecified too. -/
def correctUnit (s : State) : State :=
  match correctBlock s.tables s.data s.eccS s.eccR with
  | .error e => raise e (scrubData (scrubUnitRegisters s))
  | .ok (D, count) => complete count (scrubUnitRegisters { s with data := D })

/-- R187: CORRECT. -/
def correctCommand (p : PrimPoly) (s : State) : State := correctUnit (doInit p s)

/-- R187: CORRECT, code 0xD. -/
def execCorrect (s : State) : Host.Outcome State Fault Refusal := .next (correctCommand primPoly s)

end Sys2Proof.Machine
end

