-- ==== Sys2Proof/Machine/Dispatch.lean ====
section
/-! DEFINITION. One arm per command, each a direct call of its meaning (R64). -/

namespace Sys2Proof.Machine

def exec (i : Instr) (s : State) : Host.Outcome State Fault Refusal :=
  match i with
  | .init => Sys2Proof.Machine.execInit s
  | .gfmul => Sys2Proof.Machine.execGfmul s
  | .gfinv => Sys2Proof.Machine.execGfinv s
  | .encode => Sys2Proof.Machine.execEncode s
  | .synd => Sys2Proof.Machine.execSynd s
  | .bmsolve => Sys2Proof.Machine.execBmsolve s
  | .chien => Sys2Proof.Machine.execChien s
  | .forney => Sys2Proof.Machine.execForney s
  | .decode => Sys2Proof.Machine.execDecode s
  | .pack => Sys2Proof.Machine.execPack s
  | .unpack => Sys2Proof.Machine.execUnpack s
  | .compute => Sys2Proof.Machine.execCompute s
  | .correct => Sys2Proof.Machine.execCorrect s

end Sys2Proof.Machine
end

