-- ==== Sys2Proof/Machine/Step.lean ====
section
/-! DEFINITION. One step of the block: the command that the host's write of `CMD` starts, run from start to end (R10, R65). -/

namespace Sys2Proof.Machine

/-- R10, R50, R65: a write of `CMD` starts one command; the code is read once. Without one the block is idle and keeps all
of its state (R212, R230; log entry 3). A word that names no command ends with BadCommand (R69 a). -/
def step (s : State) : Host.Outcome State Fault Refusal :=
  if s.cmdWritten then
    match decode s.cmd with
    | .ok i => exec i (takeCommand s)
    | .error _ => .next (badCommand (takeCommand s))
  else .next s

/-- The host writes the command word `w` to `CMD`, so that the next step runs it: on a block that runs no command this is
`hostWrite` of `CMD` (`Sys2Proof.Laws.hostWrite_cmd_eq_withFetchWord`).
DESIGN CHOICE (log entry 7): while a write of `CMD` is still pending, what another one does is unknown (U12), and the host has
no such move (R233). This function is total and is no host action then: it replaces the pending word, so the earlier command
never runs. The block fetches no instructions
(R12, R50): this write is how a command comes to run (log entry 3). Every command word is 8 bits (R71), so `nbits` says
nothing more. -/
def State.withFetchWord (s : State) (_nbits w : Nat) : State :=
  { s with cmd := BitVec.ofNat 8 w, cmdWritten := true }

end Sys2Proof.Machine
end

