-- ==== Sys2Proof/Machine/HostPort.lean ====
section
/-! DEFINITION. What the host does between two commands (R40, R45 to R47, R72, R230), and several blocks (R210). From the
write of `CMD` to the end of the step that runs the command the host has no move (R47, R233, U12), and no reset comes
(R230, U16): every action of this file answers none while `cmdWritten` is set. The spec fixes no bus address (R41): an
element is addressed by its buffer's name and its index (log entries 5 to 7). -/

namespace Sys2Proof.Machine

/-- A host-visible element (R18 to R27, R40). `EXP`, `LOG` and `GEN` are not host-visible (R14 to R16). -/
inductive HostReg where
  /-- `DATA[i]` -/
  | data (i : Fin 512)
  /-- `ECC_S[i]` -/
  | eccS (i : Fin 10)
  /-- `ECC_R[i]` -/
  | eccR (i : Fin 10)
  /-- `ECC_O[i]` -/
  | eccO (i : Fin 10)
  /-- `CW[i]` -/
  | cw (i : Fin 1023)
  /-- `PAR[i]` -/
  | par (i : Fin 8)
  /-- `SYN[i + 1]` -/
  | syn (i : Fin 8)
  /-- `LAM[i]` -/
  | lam (i : Fin 9)
  /-- `ROOT[i]` -/
  | root (i : Fin 8)
  /-- `LOC[i]` -/
  | loc (i : Fin 8)
  /-- `OMEGA[i]`, read-only to the host (R25) -/
  | omega (i : Fin 8)
  /-- `ALLZERO` -/
  | allzero
  /-- `NROOT` -/
  | nroot
  /-- `GFA` -/
  | gfa
  /-- `GFB` -/
  | gfb
  /-- `GFQ` -/
  | gfq
  /-- `CMD`: writing it starts a command (R65) -/
  | cmd
  /-- `DEG`, read-only to the host (R23) -/
  | deg
  /-- `ELL`, read-only to the host (R23) -/
  | ell
  /-- `STATUS`, read-only to the host (R27) -/
  | status
  /-- `RESULT`, read-only to the host (R27) -/
  | result
  /-- `INIT_DONE`, read-only to the host (R13) -/
  | initDone
  deriving DecidableEq, Repr

/-- The width of the element (R40, R27). -/
abbrev HostReg.width (r : HostReg) : Nat :=
  match r with
  | .data _ => 8
  | .eccS _ => 8
  | .eccR _ => 8
  | .eccO _ => 8
  | .cw _ => 16
  | .par _ => 10
  | .syn _ => 10
  | .lam _ => 10
  | .root _ => 10
  | .loc _ => 10
  | .omega _ => 10
  | .allzero => 1
  | .nroot => 10
  | .gfa => 10
  | .gfb => 10
  | .gfq => 10
  | .cmd => 8
  | .deg => 4
  | .ell => 4
  | .status => 3
  | .result => 4
  | .initDone => 1

/-- The element `r` of the block, in its width. -/
def readElement (s : State) (r : HostReg) : BitVec r.width :=
  match r with
  | .data i => s.data.coeff i
  | .eccS i => s.eccS.coeff i
  | .eccR i => s.eccR.coeff i
  | .eccO i => s.eccO.coeff i
  | .cw i => s.cw.coeff i
  | .par i => s.par.coeff i
  | .syn i => s.syn.coeff i
  | .lam i => s.lam.coeff i
  | .root i => s.root.coeff i
  | .loc i => s.loc.coeff i
  | .omega i => s.omega.coeff i
  | .allzero => BitVec.ofBool s.allzero
  | .nroot => s.nroot
  | .gfa => s.gfa
  | .gfb => s.gfb
  | .gfq => s.gfq
  | .cmd => s.cmd
  | .deg => s.deg
  | .ell => s.ell
  | .status => s.status.code
  | .result => s.result
  | .initDone => BitVec.ofBool s.initDone

/-- `v := BUF[i]`: the host reads one whole element. "Reading any buffer or register has no side effect" (R45). While a
command runs the host has no move (R47, R233). -/
def hostRead (s : State) (r : HostReg) : Option (BitVec r.width) :=
  if s.cmdWritten then none else some (readElement s r)

/-- The block with the element `r` replaced. There is no such block for a register that is read-only to the host (R13, R23,
R25, R27; DESIGN CHOICE of log entry 6). A write of `CMD` starts a command: the next step runs it (R65). -/
def writeElement (s : State) (r : HostReg) (v : BitVec r.width) : Option State :=
  match r, v with
  | .data i, v => some { s with data := s.data.set i v }
  | .eccS i, v => some { s with eccS := s.eccS.set i v }
  | .eccR i, v => some { s with eccR := s.eccR.set i v }
  | .eccO i, v => some { s with eccO := s.eccO.set i v }
  | .cw i, v => some { s with cw := s.cw.set i v }
  | .par i, v => some { s with par := s.par.set i v }
  | .syn i, v => some { s with syn := s.syn.set i v }
  | .lam i, v => some { s with lam := s.lam.set i v }
  | .root i, v => some { s with root := s.root.set i v }
  | .loc i, v => some { s with loc := s.loc.set i v }
  | .allzero, v => some { s with allzero := v == 1 }
  | .nroot, v => some { s with nroot := v }
  | .gfa, v => some { s with gfa := v }
  | .gfb, v => some { s with gfb := v }
  | .gfq, v => some { s with gfq := v }
  | .cmd, v => some { s with cmd := v, cmdWritten := true }
  | .omega _, _ => none
  | .deg, _ => none
  | .ell, _ => none
  | .status, _ => none
  | .result, _ => none
  | .initDone, _ => none

/-- `BUF[i] := v`: the host writes one whole element. While a command runs, so between the write of `CMD` and the end of the
step that it starts, the host writes neither `CMD` nor any buffer (R47, R233). -/
def hostWrite (s : State) (r : HostReg) (v : BitVec r.width) : Option State :=
  if s.cmdWritten then none else writeElement s r v

/-- The host writes the command `i` to `CMD`, and the block runs it. -/
def issue (i : Instr) (s : State) : Option (Host.Outcome State Fault Refusal) :=
  match hostWrite s .cmd (encode i) with
  | some t => some (step t)
  | none => none

/-- The state after a reset (R230). `INIT_DONE`, `CMD`, `STATUS` and `RESULT` take their reset values;
every other register and buffer is unspecified, so it takes free values (log entry 4). The tables, unobservable until
they are built again, take the values of `State.reset` (log entry 1). -/
def resetState (s : State) : State :=
  let s' := scrubData (scrubUnitRegisters s)
  { s' with
    initDone := false
    tables := State.reset.tables
    gen := State.reset.gen
    eccS := tabulate 10 (Config.freeValue 8 s'.draws)
    eccR := tabulate 10 (Config.freeValue 8 (s'.draws + 1))
    eccO := tabulate 10 (Config.freeValue 8 (s'.draws + 2))
    cmd := 0x00
    status := .ok
    result := 0
    cmdWritten := false
    draws := s'.draws + 3 }

/-- R230: a reset between two commands, by whatever signal. None comes while a command runs (U16; log entry 7). -/
def resetEvent (s : State) : Option State := if s.cmdWritten then none else some (resetState s)

/-! ## The two host procedures of R72

A buffer is written whole at once; that the writes of its elements, one after another, give the same is
`Sys2Proof.Laws.hostWrites_data` and its two neighbours. -/

/-- R72: `compute_ecc(data)`: the ten bytes the host reads back, and the block's state. No such procedure starts while a
command runs (R233). -/
def computeEcc (data : Buffer Byte 512) (s : State) : Option (Buffer Byte 10 × State) :=
  match issue .compute { s with data := data } with
  | some (.next t) => some (t.eccO, t)
  | some (.fault _) => none
  | some (.refused _) => none
  | none => none

/-- R72: what `correct(data, stored, recomp)` returns. -/
inductive CorrectReply where
  /-- `Ok(RESULT)`, with the data. -/
  | okCount (count : BitVec 4) (data : Buffer Byte 512)
  /-- `Err(STATUS)`: the data must be discarded. -/
  | err (status : Status)
  deriving DecidableEq, Repr

/-- R72: `correct(data, stored, recomp)`. -/
def correctData (data : Buffer Byte 512) (stored recomp : Buffer Byte 10) (s : State) : Option (CorrectReply × State) :=
  match issue .correct { s with data := data, eccS := stored, eccR := recomp } with
  | some (.next t) => some (if t.status = .ok then .okCount t.result t.data else .err t.status, t)
  | some (.fault _) => none
  | some (.refused _) => none
  | none => none

/-! ## Several blocks -/

/-- R210: several blocks, each with all of its state to itself, its own `INIT_DONE` and field context included. -/
abbrev Blocks := List State

/-- R210: block `k` takes a step. The blocks share nothing and do not interact.
DESIGN CHOICE (log entry 4): whether the unspecified values of two blocks (U1, U2, U3, U5) differ is left open by the spec,
which makes each a free draw. Here a draw is named by the block's own counter `draws` alone, so two blocks with equal
counters, as all are from `State.reset`, take equal free values in the same place. -/
def stepBlock (k : Nat) (bs : Blocks) : Blocks :=
  bs.modify k (fun s =>
    match step s with
    | .next t => t
    | .fault _ => s
    | .refused _ => s)

end Sys2Proof.Machine
end

