-- ==== Sys2Proof/Machine/WithPoly.lean ====
section
/-! DEFINITION. R8: "A model takes `PRIM_POLY` as an argument with this default." The block built with any primitive
`PRIM_POLY`; `Sys2Proof.Laws.exec_eq_execWith` says that `exec` is the one with the default. A value that is not primitive
gives no block (`PrimPoly`; decision D3, U8). -/

namespace Sys2Proof.Machine

/-- The state after a command of the block built with `PRIM_POLY` = `p`. PACK and UNPACK do not look at the field. -/
def execWith (p : PrimPoly) (i : Instr) (s : State) : State :=
  match i with
  | .init => initCommand p s
  | .gfmul => gfmulCommand p s
  | .gfinv => gfinvCommand p s
  | .encode => encodeCommand p s
  | .synd => syndCommand p s
  | .bmsolve => bmsolveCommand p s
  | .chien => chienCommand p s
  | .forney => forneyCommand p s
  | .decode => decodeCommand p s
  | .pack => packUnit s
  | .unpack => unpackUnit s
  | .compute => computeCommand p s
  | .correct => correctCommand p s

/-- One step of the block built with `PRIM_POLY` = `p`. -/
def stepWith (p : PrimPoly) (s : State) : State :=
  if s.cmdWritten then
    match decode s.cmd with
    | .ok i => execWith p i (takeCommand s)
    | .error _ => badCommand (takeCommand s)
  else s

end Sys2Proof.Machine
end

