-- ==== Sys2Proof/Safety.lean ====
section
/-! DEFINITION. The terms in which claims are stated: when the field context is sound, the received polynomial and
codewords, the product of polynomials, and how many elements of two buffers differ. Nothing of the machine uses them. -/

namespace Sys2Proof.Safety

open Sys2Proof.Machine

/-- R13, R17: the block's invariant: when `INIT_DONE` = 1, `EXP`, `LOG` and `GEN` hold what the builders make of `PRIM_POLY`. -/
def ContextBuilt (p : PrimPoly) (s : State) : Prop :=
  s.initDone = true → s.tables = buildField p ∧ s.gen = buildGen (buildField p)

/-- A command that starts in `s` computes over the field of `p`: after its `do_init` the context is that of `p`. A state of
the block at hand runs over the default `PRIM_POLY`; a state of a block built with another primitive `PRIM_POLY`, once
initialised, runs over that one (R8: "Every rule of the spec is stated for any primitive `PRIM_POLY`"). -/
def RunsOver (p : PrimPoly) (s : State) : Prop :=
  (doInit primPoly s).tables = buildField p ∧ (doInit primPoly s).gen = buildGen (buildField p)

/-- R62: R(α^i), the received polynomial of a codeword buffer at α^i: the sum of CW[p]·α^(i·p) over all positions. -/
def receivedAt (F : FieldTables) (cw : Buffer Container 1023) (i : Nat) : Symbol :=
  xorSum 1023 (fun pos => gfMul F (containerToSymbol (cw.coeff pos)) (alphaPow F (i * pos)))

/-- R62: "`CW` is a valid codeword when R(α^i) = 0 for i = 1..8". -/
def IsCodeword (F : FieldTables) (cw : Buffer Container 1023) : Prop :=
  ∀ i, 1 ≤ i → i ≤ 8 → receivedAt F cw i = 0

/-- R62: the codeword buffer with the data part of `cw` and the parity symbols `P` at the positions 1015 + j. -/
def withParity (cw : Buffer Container 1023) (P : Buffer Symbol 8) : Buffer Container 1023 :=
  tabulate 1023 (fun pos => if pos < 1015 then cw.coeff pos else symbolToContainer (P.coeff (pos - 1015)))

/-- R163: the error locator that the solver makes of a codeword buffer. -/
def locatorOf (F : FieldTables) (cw : Buffer Container 1023) : Buffer Symbol 9 := (bmSolve F (syndromes F cw)).lam

/-- R150: the number of i in 1..1023 with λ(α^i) = 0. -/
def rootCount (F : FieldTables) (lam : Buffer Symbol 9) : Nat :=
  ((Finset.Icc 1 1023).filter (fun i => locatorAt F lam i = 0)).card

/-- The number of indices at which two buffers differ. -/
def differences {w n : Nat} (a b : Buffer (BitVec w) n) : Nat :=
  ((List.range n).filter (fun i => a.coeff i != b.coeff i)).length

/-- R90: the product of two polynomials over GF(2), before reduction: the sum of a·x^i over the bits i of b. -/
def polyProduct (a b : Symbol) : BitVec 20 :=
  (List.range 10).foldl (fun acc i => if b.getLsbD i then acc ^^^ (a.setWidth 20 <<< i) else acc) 0

/-- R90: long division by `PRIM_POLY`: for k = 18, ..., 10, a term x^k is cancelled by PRIM_POLY(x)·x^(k − 10). -/
def polyReduce (p : BitVec 11) (v : BitVec 20) : BitVec 20 :=
  (List.range 9).foldl
    (fun acc j => if acc.getLsbD (18 - j) then acc ^^^ (p.setWidth 20 <<< (18 - j - 10)) else acc) v

/-- R90: "multiplication of polynomials over GF(2) reduced modulo PRIM_POLY(x)". -/
def polyMulMod (p : BitVec 11) (a b : Symbol) : Symbol := (polyReduce p (polyProduct a b)).setWidth 10

/-- R152: the register c[j] of the incremental search after `i` steps, each of which multiplies it by α^j. -/
def incrementalTerm (F : FieldTables) (lam : Buffer Symbol 9) (j : Nat) : Nat → Symbol
  | 0 => lam.coeff j
  | i + 1 => gfMul F (incrementalTerm F lam j i) (alphaPow F j)

/-- The 512-byte block `B` with byte `i` exclusive-ored with `e`. -/
def corruptByte (B : Buffer Byte 512) (i : Nat) (e : Byte) : Buffer Byte 512 := B.set i (B.coeff i ^^^ e)

end Sys2Proof.Safety
end

