-- ==== Sys2Proof/Certificates/Slice0/Obligations.lean ====
section
/-! DEFINITION. The statements for the provers. Each docstring names the rule of spec/ that it formalises. -/

section

open Sys2Proof Sys2Proof.Machine Sys2Proof.Safety

/-! ## Reset, commands and steps -/

/-- R31, R230: the values the spec gives for reset, after power-on and after a reset between two commands. The values of the
other registers are the model's choice (log entry 1), and nothing is said of them. -/
def Obligations.ResetLeavesTheSpecifiedValues : Prop :=
  ∀ s r, r = State.reset ∨ resetEvent s = some r →
    r.initDone = false ∧ r.cmd = 0x00 ∧ r.status = .ok ∧ r.status.code = 0 ∧ r.result = 0

/-- R64, R69 (a): the words of the command table, written out, and the reserved words of vectors T1 to T3. -/
def Obligations.CommandTableWordsDecode : Prop :=
  decode 0b00000001 = .ok .init ∧ decode 0b00000010 = .ok .gfmul ∧ decode 0b00000011 = .ok .gfinv ∧
  decode 0b00000100 = .ok .encode ∧ decode 0b00000101 = .ok .synd ∧ decode 0b00000110 = .ok .bmsolve ∧
  decode 0b00000111 = .ok .chien ∧ decode 0b00001000 = .ok .forney ∧ decode 0b00001001 = .ok .decode ∧
  decode 0b00001010 = .ok .pack ∧ decode 0b00001011 = .ok .unpack ∧ decode 0b00001100 = .ok .compute ∧
  decode 0b00001101 = .ok .correct ∧
  decode 0x00 = .error .reservedCode ∧ decode 0x0E = .error .reservedCode ∧ decode 0x0F = .error .reservedCode ∧
  decode 0x12 = .error .upperNibbleNotZero

/-- R64, R65: each command has exactly one command word, and no other word decodes to it. -/
def Obligations.DecodeAndEncodeAgree : Prop :=
  ∀ i w, decode w = .ok i ↔ w = encode i

/-- R10, R50, R65, R230: a write of `CMD` starts one command, which the next step runs; without one the block stays as it
is (the idle step is the model's reading, log entry 3). -/
def Obligations.StepRunsTheWrittenCommand : Prop :=
  ∀ s : State,
    (∀ i, s.cmdWritten = true → decode s.cmd = .ok i → step s = exec i { s with cmdWritten := false }) ∧
    (s.cmdWritten = false → step s = .next s)

/-- The four kinds of reserved and illegal encodings that R69 lists, and what each does: (a) command words that name no command
(R70, R204, U6: `RESULT` is 0 too), (b) containers of 1024 or more (R67, R204), (c) the zero operand of GFINV (R101), (d)
`NROOT` above 8 at FORNEY (R162). The flag `cmdWritten` is the model's own (log entry 3), and that the word of (a) is not
refused, where U6 allows either, is the model's choice (log entry 6). -/
def Obligations.ReservedAndIllegalEncodings : Prop :=
  ∀ s : State,
    (s.cmdWritten = true → (16 ≤ s.cmd.toNat ∨ s.cmd.toNat = 0 ∨ s.cmd.toNat = 14 ∨ s.cmd.toNat = 15) →
      step s = .next { s with cmdWritten := false, status := .badCommand, result := 0 }) ∧
    (∀ pos, pos < 1023 → 1024 ≤ (s.cw.coeff pos).toNat →
      (∀ i, i ∈ [Instr.synd, .forney, .decode] →
        exec i s = .next { doInit primPoly s with status := .invalidSymbol, result := 0 }) ∧
      (pos < 1015 → exec .encode s = .next { doInit primPoly s with status := .invalidSymbol, result := 0 })) ∧
    (s.gfa = 0 → exec .gfinv s = .next { doInit primPoly s with status := .zeroInverse, result := 0 }) ∧
    ((∀ pos, pos < 1023 → (s.cw.coeff pos).toNat < 1024) → 8 < s.nroot.toNat →
      exec .forney s = .next { doInit primPoly s with status := .uncorrectable, result := 0 })

/-- R208, R201: every command terminates and the block goes on: no command faults or is refused. -/
def Obligations.EveryCommandAnswersANextState : Prop :=
  (∀ i s, ∃ t, exec i s = .next t) ∧ ∀ s, ∃ t, step s = .next t

/-! ## The field context -/

/-- R91: INIT. -/
def Obligations.InitCommandRule : Prop :=
  (∀ s : State, s.initDone = false →
    exec .init s =
      .next { s with
        tables := buildField primPoly, gen := buildGen (buildField primPoly), initDone := true
        status := .ok, result := 0 }) ∧
  (∀ s : State, s.initDone = true → exec .init s = .next { s with status := .ok, result := 0 }) ∧
  (buildField primPoly).exp.coeff 10 = 0x009 ∧ gfLog (buildField primPoly) 0x009 = .exp 10

/-- R94: running the initialisation any number of times leaves the same field context as running it once. -/
def Obligations.InitialisationIsIdempotent : Prop :=
  (∀ p k s, (doInit p)^[k + 1] s = doInit p s) ∧ ∀ s t, exec .init s = .next t → exec .init t = .next t

/-- R8, R92: the check that admits a `PRIM_POLY` is the builder's: bits 10 and 0 set, the 1023 entries distinct and non-zero,
and the recurrence back at 1 after them. -/
def Obligations.PrimitivityCheckIsTheBuildersCheck : Prop :=
  ∀ p : BitVec 11, isPrimitive p = true ↔
    p.getLsbD 10 = true ∧ p.getLsbD 0 = true ∧
    (∀ i, i < 1023 → (xtimes p)^[i] 1 ≠ 0) ∧
    (∀ i j, i < j → j < 1023 → (xtimes p)^[i] 1 ≠ (xtimes p)^[j] 1) ∧
    (xtimes p)^[1023] 1 = 1

/-- R92, R93, R99: the two tables of every primitive `PRIM_POLY`: the recurrence of the forward table, each non-zero element
exactly once in it, the inverse table, and the conversions inverse to each other. -/
def Obligations.FieldTablesOfEveryPrimitivePolynomial : Prop :=
  ∀ p : PrimPoly,
    (buildField p).exp.coeff 0 = 1 ∧
    (∀ i, i < 1022 →
      (buildField p).exp.coeff (i + 1) =
        if ((buildField p).exp.coeff i).getLsbD 9 then
          ((buildField p).exp.coeff i <<< 1) ^^^ p.bits.setWidth 10
        else (buildField p).exp.coeff i <<< 1) ∧
    (∀ v : Symbol, v ≠ 0 → ∃! i, i < 1023 ∧ (buildField p).exp.coeff i = v) ∧
    (∀ i (h : i < 1023), gfLog (buildField p) ((buildField p).exp.coeff i) = .exp ⟨i, h⟩) ∧
    gfLog (buildField p) 0 = .logz ∧
    (∀ v, gfExp (buildField p) (gfLog (buildField p) v) = v) ∧
    ∀ l, gfLog (buildField p) (gfExp (buildField p) l) = l

/-- R110, R112: for every primitive `PRIM_POLY` the generator polynomial is monic of degree 8 with the roots α^1 to α^8 and the
constant term α^36, and `GEN` holds its coefficients in log form. -/
def Obligations.GeneratorHasTheEightRoots : Prop :=
  ∀ p : PrimPoly,
    (generatorCoeffs (buildField p)).length = 9 ∧
    (generatorCoeffs (buildField p)).getD 8 0 = 1 ∧
    (generatorCoeffs (buildField p)).getD 0 0 = alphaPow (buildField p) 36 ∧
    (∀ j, j < 9 →
      (buildGen (buildField p)).getD j .logz = gfLog (buildField p) ((generatorCoeffs (buildField p)).getD j 0)) ∧
    (buildGen (buildField p)).getD 8 .logz = .exp 0 ∧
    (buildGen (buildField p)).getD 0 .logz = .exp 36 ∧
    ∀ i, 1 ≤ i → i ≤ 8 →
      xorSum 9 (fun j => gfMul (buildField p) ((generatorCoeffs (buildField p)).getD j 0)
        (alphaPow (buildField p) (i * j))) = 0

/-- R113: the generator polynomial of the default `PRIM_POLY`, in both forms, and the check that the rule gives: α^1 to α^8 are
roots, α^0 and α^9 are not. The default is the spec's own choice (decision D2, log entry 2). -/
def Obligations.DefaultGeneratorTable : Prop :=
  generatorCoeffs (buildField primPoly) = [0x344, 0x24B, 0x03A, 0x3A0, 0x297, 0x143, 0x033, 0x1FE, 0x001] ∧
  (buildGen (buildField primPoly)).cells =
    [.exp 36, .exp 567, .exp 403, .exp 407, .exp 607, .exp 398, .exp 385, .exp 540, .exp 0] ∧
  ∀ i, i ≤ 9 →
    (xorSum 9 (fun j => gfMul (buildField primPoly) ((generatorCoeffs (buildField primPoly)).getD j 0)
      (alphaPow (buildField primPoly) (i * j))) = 0 ↔ 1 ≤ i ∧ i ≤ 8)

/-- R13, R17: the invariant of the field context holds at reset. -/
def Obligations.ContextIsSoundAtReset : Prop := ContextBuilt primPoly State.reset

/-- R13, R17: every step keeps it. -/
def Obligations.StepKeepsTheContextSound : Prop :=
  ∀ s t, ContextBuilt primPoly s → step s = .next t → ContextBuilt primPoly t

/-- R13, R17: no step clears `INIT_DONE`, and none writes `EXP`, `LOG` or `GEN` once it is set. -/
def Obligations.BuiltContextIsNeverWritten : Prop :=
  ∀ s t, s.initDone = true → step s = .next t → t.initDone = true ∧ t.tables = s.tables ∧ t.gen = s.gen

/-- R103: every command but PACK and UNPACK runs the initialisation first, also when it then ends in an error or takes an
early exit; PACK, UNPACK and a reserved word do not. -/
def Obligations.LazyInitialisation : Prop :=
  (∀ i s t, i ≠ .pack → i ≠ .unpack → exec i s = .next t →
    t.initDone = true ∧ t.tables = (doInit primPoly s).tables ∧ t.gen = (doInit primPoly s).gen) ∧
  (∀ i s t, i = .pack ∨ i = .unpack → exec i s = .next t →
    t.initDone = s.initDone ∧ t.tables = s.tables ∧ t.gen = s.gen) ∧
  ∀ s t e, decode s.cmd = .error e → step s = .next t →
    t.initDone = s.initDone ∧ t.tables = s.tables ∧ t.gen = s.gen

/-! ## GFMUL and GFINV -/

/-- R100: GFMUL. -/
def Obligations.GfmulCommandRule : Prop :=
  (∀ s : State,
    exec .gfmul s =
      .next { doInit primPoly s with
        gfq := gfMul (doInit primPoly s).tables s.gfa s.gfb, status := .ok, result := 0 }) ∧
  (∀ s t : State, s.gfa = 0 ∨ s.gfb = 0 → exec .gfmul s = .next t → t.gfq = 0) ∧
  ∀ s t : State, RunsOver primPoly s → s.gfa = 0x009 → s.gfb = 0x200 → exec .gfmul s = .next t → t.gfq = 0x224

/-- R101: GFINV. -/
def Obligations.GfinvCommandRule : Prop :=
  (∀ s : State, s.gfa = 0 →
    exec .gfinv s = .next { doInit primPoly s with status := .zeroInverse, result := 0 }) ∧
  (∀ (s : State) (h : s.gfa ≠ 0),
    exec .gfinv s =
      .next { doInit primPoly s with
        gfq := gfInv (doInit primPoly s).tables s.gfa h, status := .ok, result := 0 }) ∧
  (Status.zeroInverse.code = 4) ∧
  (∀ p (s t : State), RunsOver p s → s.gfa = 0x001 → exec .gfinv s = .next t → t.gfq = 0x001) ∧
  ∀ s t : State, RunsOver primPoly s → s.gfa = 0x003 → exec .gfinv s = .next t → t.gfq = 0x3F8

/-- R90, R95: the table-driven product is the product of the two polynomials reduced modulo `PRIM_POLY`, whichever primitive
`PRIM_POLY` the block is built with. -/
def Obligations.GfmulIsThePolynomialProduct : Prop :=
  ∀ (p : PrimPoly) (s : State), RunsOver p s →
    ∃ t, exec .gfmul s = .next t ∧ t.gfq = polyMulMod p.bits s.gfa s.gfb ∧ t.status = .ok

/-- R96: for a non-zero operand GFINV gives the unique element whose product with it is 1. -/
def Obligations.GfinvGivesTheUniqueInverse : Prop :=
  ∀ (p : PrimPoly) (s : State), RunsOver p s → s.gfa ≠ 0 →
    ∃ t, exec .gfinv s = .next t ∧ t.status = .ok ∧
      ∀ b, polyMulMod p.bits s.gfa b = 1 ↔ b = t.gfq

/-! ## ENCODE -/

/-- R121: ENCODE. The parity part of `CW` is neither read nor written; the shift register is that of R120. -/
def Obligations.EncodeCommandRule : Prop :=
  (∀ s : State, (∃ i, i < 1015 ∧ 1024 ≤ (s.cw.coeff i).toNat) →
    exec .encode s = .next { doInit primPoly s with status := .invalidSymbol, result := 0 }) ∧
  (∀ s : State, (∀ i, i < 1015 → (s.cw.coeff i).toNat < 1024) →
    exec .encode s =
      .next { doInit primPoly s with
        par := lfsrRun (doInit primPoly s).tables (doInit primPoly s).gen
          ((dataPart s.cw).cells.map containerToSymbol)
        status := .ok, result := 0 }) ∧
  (∀ s t : State, (∀ i, i < 1015 → s.cw.coeff i = 0) → exec .encode s = .next t →
    ∀ j, j < 8 → t.par.coeff j = 0) ∧
  ∀ (p : PrimPoly) (s t : State), RunsOver p s → s.cw.coeff 0 = 1 →
    (∀ i, 1 ≤ i → i < 1015 → s.cw.coeff i = 0) → exec .encode s = .next t →
    (∀ j, j < 8 → t.par.coeff j = (generatorCoeffs (buildField p)).getD j 0) ∧
    (p = primPoly → t.par.cells = [0x344, 0x24B, 0x03A, 0x3A0, 0x297, 0x143, 0x033, 0x1FE])

/-- R122: the data followed by the parity that ENCODE gives is a valid codeword. -/
def Obligations.EncodedWordIsACodeword : Prop :=
  ∀ (p : PrimPoly) (s : State), RunsOver p s → (∀ i, i < 1015 → (s.cw.coeff i).toNat < 1024) →
    ∃ t, exec .encode s = .next t ∧ t.status = .ok ∧ t.cw = s.cw ∧
      IsCodeword (buildField p) (withParity s.cw t.par)

/-- R123: the encoder is linear. -/
def Obligations.EncoderIsLinear : Prop :=
  ∀ (p : PrimPoly) (D D' E : Buffer Container 1015) (P P' : Buffer Symbol 8),
    (∀ i, i < 1015 → E.coeff i = D.coeff i ^^^ D'.coeff i) →
    rsEncode (buildField p) (buildGen (buildField p)) D = .ok P →
    rsEncode (buildField p) (buildGen (buildField p)) D' = .ok P' →
    ∃ Q, rsEncode (buildField p) (buildGen (buildField p)) E = .ok Q ∧
      ∀ j, j < 8 → Q.coeff j = P.coeff j ^^^ P'.coeff j

/-! ## SYND -/

/-- R131, with R(α^i) of R62: SYND gives R(α^1), ..., R(α^8) and the all-zero flag, and writes nothing else; any container of
1024 or more ends it before a result is written. The corner cases of the rule: the zero word, and one symbol e at
position pos, of which the example is one. -/
def Obligations.SyndEvaluatesTheReceivedPolynomial : Prop :=
  (∀ s : State, (∃ pos, pos < 1023 ∧ 1024 ≤ (s.cw.coeff pos).toNat) →
    exec .synd s = .next { doInit primPoly s with status := .invalidSymbol, result := 0 }) ∧
  (∀ (p : PrimPoly) (s : State), RunsOver p s → (∀ pos, pos < 1023 → (s.cw.coeff pos).toNat < 1024) →
    ∃ S z,
      exec .synd s = .next { doInit primPoly s with syn := S, allzero := z, status := .ok, result := 0 } ∧
      (∀ i, 1 ≤ i → i ≤ 8 → syndromeAt S i = receivedAt (buildField p) s.cw i) ∧
      (z = true ↔ IsCodeword (buildField p) s.cw)) ∧
  (∀ s t : State, (∀ pos, pos < 1023 → s.cw.coeff pos = 0) → exec .synd s = .next t →
    t.allzero = true ∧ ∀ i, i < 8 → t.syn.coeff i = 0) ∧
  ∀ (p : PrimPoly) (s t : State) (e : Symbol) (pos : Nat), RunsOver p s → pos < 1023 → e ≠ 0 →
    (∀ q, q < 1023 → s.cw.coeff q = if q = pos then symbolToContainer e else 0) → exec .synd s = .next t →
    (∀ i, 1 ≤ i → i ≤ 8 → syndromeAt t.syn i = gfMul (buildField p) e (alphaPow (buildField p) (i * pos))) ∧
    t.allzero = false ∧
    (p = primPoly → e = 0x004 → pos = 100 →
      t.syn.cells = [0x056, 0x04C, 0x193, 0x01D, 0x3B3, 0x1F7, 0x392, 0x156])

/-- R132: the syndromes are linear, so those of codeword plus error are those of the error alone. -/
def Obligations.SyndromesAreLinear : Prop :=
  ∀ (p : PrimPoly) (C C' E : Buffer Container 1023),
    (∀ pos, pos < 1023 → E.coeff pos = C.coeff pos ^^^ C'.coeff pos) →
    (∀ i, 1 ≤ i → i ≤ 8 →
      syndromeAt (syndromes (buildField p) E) i =
        syndromeAt (syndromes (buildField p) C) i ^^^ syndromeAt (syndromes (buildField p) C') i) ∧
    (IsCodeword (buildField p) C → syndromes (buildField p) E = syndromes (buildField p) C')

/-! ## BMSOLVE -/

/-- R140, R141: BMSOLVE writes λ, its degree and the final length; its three corner cases: all syndromes 0, the syndromes
(1, 0, ..., 0), and the syndromes e·X^i of one error. -/
def Obligations.BmsolveCommandRule : Prop :=
  (∀ s : State,
    exec .bmsolve s =
      .next { doInit primPoly s with
        lam := (solverRun (doInit primPoly s).tables s.syn 8).lam
        deg := BitVec.ofNat 4 (degree (solverRun (doInit primPoly s).tables s.syn 8).lam)
        ell := BitVec.ofNat 4 (solverRun (doInit primPoly s).tables s.syn 8).len
        status := .ok, result := 0 }) ∧
  (∀ s t : State, (∀ i, i < 8 → s.syn.coeff i = 0) → exec .bmsolve s = .next t →
    (∀ j, j < 9 → t.lam.coeff j = if j = 0 then 1 else 0) ∧ t.deg = 0 ∧ t.ell = 0) ∧
  (∀ (p : PrimPoly) (s t : State), RunsOver p s → (∀ i, i < 8 → s.syn.coeff i = if i = 0 then 1 else 0) →
    exec .bmsolve s = .next t →
    (∀ j, j < 9 → t.lam.coeff j = if j = 0 then 1 else 0) ∧ t.deg = 0 ∧ t.ell = 1) ∧
  ∀ (p : PrimPoly) (s t : State) (e : Symbol) (x : Nat), RunsOver p s → e ≠ 0 →
    (∀ i, 1 ≤ i → i ≤ 8 → syndromeAt s.syn i = gfMul (buildField p) e (alphaPow (buildField p) (x * i))) →
    exec .bmsolve s = .next t →
    (∀ j, j < 9 →
      t.lam.coeff j = if j = 0 then 1 else if j = 1 then alphaPow (buildField p) x else 0) ∧
    t.deg = 1 ∧ t.ell = 1 ∧
    (p = primPoly → s.syn.cells = [0x056, 0x04C, 0x193, 0x01D, 0x3B3, 0x1F7, 0x392, 0x156] →
      t.lam.cells = [0x001, 0x211, 0, 0, 0, 0, 0, 0, 0])

/-- R142 (a), (b), (d): after every step λ[0] is 1, the degree of λ is at most L and L at most the step's number; the
coefficient B[8] that a shift drops is 0. -/
def Obligations.SolverKeepsItsBounds : Prop :=
  ∀ (F : FieldTables) (S : Buffer Symbol 8) (r : Nat), r ≤ 8 →
    (solverRun F S r).lam.coeff 0 = 1 ∧
    degree (solverRun F S r).lam ≤ (solverRun F S r).len ∧
    (solverRun F S r).len ≤ r ∧
    (r < 8 → (solverRun F S r).aux.coeff 8 = 0)

/-- R142 (c): the λ that BMSOLVE leaves in `LAM` satisfies the sum of λ_i·S_(r − i) over i = 0, ..., L equal to 0 for
r = L + 1, ..., 8, with L in `ELL`. -/
def Obligations.SolverYieldsARecurrence : Prop :=
  ∀ (p : PrimPoly) (s : State), RunsOver p s →
    ∃ t, exec .bmsolve s = .next t ∧
      ∀ r, t.ell.toNat < r → r ≤ 8 →
        xorSum (t.ell.toNat + 1) (fun i => gfMul (buildField p) (t.lam.coeff i) (syndromeAt s.syn (r - i))) = 0

/-! ## CHIEN -/

/-- R151, with `chien` of R150: CHIEN counts the i in 1..1023 with λ(α^i) = 0, lists the first eight of them in rising order with their
positions, fills the rest with 0, and reports Uncorrectable exactly when the count is not the degree of λ. -/
def Obligations.ChienListsTheRoots : Prop :=
  ∀ s : State, ∃ t,
    exec .chien s = .next t ∧
    t.nroot.toNat =
      ((Finset.Icc 1 1023).filter (fun i => locatorAt (doInit primPoly s).tables s.lam i = 0)).card ∧
    (∀ c, c < 8 → c < t.nroot.toNat →
      1 ≤ (t.root.coeff c).toNat ∧ (t.root.coeff c).toNat ≤ 1023 ∧
      locatorAt (doInit primPoly s).tables s.lam (t.root.coeff c).toNat = 0 ∧
      (t.loc.coeff c).toNat = (1023 - (t.root.coeff c).toNat) % 1023) ∧
    (∀ c d, c < d → d < 8 → d < t.nroot.toNat → (t.root.coeff c).toNat < (t.root.coeff d).toNat) ∧
    (∀ i, 1 ≤ i → i ≤ 1023 → locatorAt (doInit primPoly s).tables s.lam i = 0 →
      (∃ c, c < 8 ∧ c < t.nroot.toNat ∧ (t.root.coeff c).toNat = i) ∨
      (8 < t.nroot.toNat ∧ (t.root.coeff 7).toNat < i)) ∧
    (∀ c, c < 8 → t.nroot.toNat ≤ c → t.root.coeff c = 0 ∧ t.loc.coeff c = 0) ∧
    t = { doInit primPoly s with
      root := t.root, loc := t.loc, nroot := t.nroot
      status := if t.nroot.toNat = degree s.lam then .ok else .uncorrectable
      result := 0 }

/-- R152: after i steps the register c[j] of the incremental search holds λ_j·α^(i·j), so the sum of the nine is λ(α^i). -/
def Obligations.IncrementalSearchAgrees : Prop :=
  ∀ (p : PrimPoly) (lam : Buffer Symbol 9) (i : Nat),
    (∀ j, incrementalTerm (buildField p) lam j i =
      gfMul (buildField p) (lam.coeff j) (alphaPow (buildField p) (i * j))) ∧
    xorSum 9 (fun j => incrementalTerm (buildField p) lam j i) = locatorAt (buildField p) lam i

/-- R150: a non-zero λ has at most as many roots as its degree, so CHIEN counts more than eight only for λ = 0, where every
one of the 1023 points is a root. -/
def Obligations.RootsAreAtMostTheDegree : Prop :=
  ∀ (p : PrimPoly) (s t : State), RunsOver p s → exec .chien s = .next t →
    ((∃ j, j < 9 ∧ s.lam.coeff j ≠ 0) → t.nroot.toNat ≤ degree s.lam) ∧
    ((∀ j, j < 9 → s.lam.coeff j = 0) → t.nroot.toNat = 1023 ∧ t.status = .uncorrectable)

/-! ## FORNEY -/

/-- R160: ω is the product of the syndrome polynomial and λ without the coefficients of x^8 and above. -/
def Obligations.OmegaIsTheTruncatedProduct : Prop :=
  ∀ (F : FieldTables) (S : Buffer Symbol 8) (lam : Buffer Symbol 9) (i : Nat), i < 8 →
    (omegaPoly F S lam).coeff i = xorSum (i + 1) (fun j => gfMul F (S.coeff (i - j)) (lam.coeff j))

/-- R161, R162: FORNEY on valid symbols, at most eight roots and no zero derivative at a listed root: it writes ω, adds
at every position the magnitudes ω(α^ρ)/λ'(α^ρ) of all the listed roots that name it (two entries naming one position apply
two magnitudes to it), leaves every other element, and reports the number of roots. -/
def Obligations.ForneyAppliesTheMagnitudes : Prop :=
  ∀ (p : PrimPoly) (s : State), RunsOver p s → (∀ pos, pos < 1023 → (s.cw.coeff pos).toNat < 1024) →
    s.nroot.toNat ≤ 8 →
    (∀ c, c < s.nroot.toNat → derivativeAt (buildField p) s.lam (s.root.coeff c).toNat ≠ 0) →
    ∃ C,
      exec .forney s =
        .next { doInit primPoly s with
          omega := omegaPoly (buildField p) s.syn s.lam, cw := C, status := .ok
          result := BitVec.ofNat 4 s.nroot.toNat } ∧
      (∀ pos, pos < 1023 → (∀ c, c < s.nroot.toNat → rootToPosition (s.root.coeff c).toNat ≠ pos) →
        C.coeff pos = s.cw.coeff pos) ∧
      (∀ pos, pos < 1023 → (C.coeff pos).toNat < 1024) ∧
      ∃ magnitude : Nat → Symbol,
        (∀ c, c < s.nroot.toNat →
          gfMul (buildField p) (derivativeAt (buildField p) s.lam (s.root.coeff c).toNat) (magnitude c) =
            evaluatorAt (buildField p) (omegaPoly (buildField p) s.syn s.lam) (s.root.coeff c).toNat) ∧
        ∀ pos, pos < 1023 →
          C.coeff pos = s.cw.coeff pos ^^^
            symbolToContainer
              (xorSum s.nroot.toNat
                (fun c => if rootToPosition (s.root.coeff c).toNat = pos then magnitude c else 0))

/-- R162, R204, U2: FORNEY with a zero derivative at a listed root ends with Uncorrectable; ω is written; an element of `CW`
that no listed root names is unchanged, and a named one holds some valid symbol. -/
def Obligations.ForneyStopsAtAZeroDerivative : Prop :=
  ∀ s : State, (∀ pos, pos < 1023 → (s.cw.coeff pos).toNat < 1024) → s.nroot.toNat ≤ 8 →
    (∃ c, c < s.nroot.toNat ∧ derivativeAt (doInit primPoly s).tables s.lam (s.root.coeff c).toNat = 0) →
    ∃ C k,
      exec .forney s =
        .next { doInit primPoly s with
          omega := omegaPoly (doInit primPoly s).tables s.syn s.lam, cw := C, status := .uncorrectable
          result := 0, draws := k } ∧
      (∀ pos, pos < 1023 → (∀ c, c < s.nroot.toNat → rootToPosition (s.root.coeff c).toNat ≠ pos) →
        C.coeff pos = s.cw.coeff pos) ∧
      ∀ pos, pos < 1023 → (C.coeff pos).toNat < 1024

/-- R234 (c): a second FORNEY on the same registers undoes the first. -/
def Obligations.ForneyTwiceUndoesTheCorrection : Prop :=
  ∀ s t u, exec .forney s = .next t → t.status = .ok → exec .forney t = .next u → u.status = .ok ∧ u.cw = s.cw

/-! ## DECODE -/

/-- R164: DECODE is SYND, BMSOLVE, CHIEN, FORNEY run back to back, with the two early exits. (In a state whose field context is
not sound a zero derivative can occur, against R165; the free values of the two runs are then the same draws, log entry 4.) -/
def Obligations.DecodeIsTheCommandChain : Prop :=
  ∀ s s1 s2 s3, exec .synd s = .next s1 → exec .bmsolve s1 = .next s2 → exec .chien s2 = .next s3 →
    (s1.status ≠ .ok → exec .decode s = .next s1) ∧
    (s1.status = .ok → s1.allzero = true → exec .decode s = .next s1) ∧
    (s1.status = .ok → s1.allzero = false → s3.status ≠ .ok → exec .decode s = .next s3) ∧
    (s1.status = .ok → s1.allzero = false → s3.status = .ok → exec .decode s = exec .forney s3)

/-- R163, R164: DECODE leaves in `CW`, `RESULT` and `STATUS` what `rs_decode` answers. -/
def Obligations.DecodeAgreesWithTheDecodePath : Prop :=
  ∀ (p : PrimPoly) (s : State), RunsOver p s →
    ∃ t, exec .decode s = .next t ∧
      match rsDecode (buildField p) s.cw with
      | .ok (C, count) => t.status = .ok ∧ t.cw = C ∧ t.result = BitVec.ofNat 4 count
      | .error e => t.status = e.status ∧ t.cw = s.cw ∧ t.result = 0

/-- R165: inside DECODE the zero-derivative exit of FORNEY is never taken: DECODE ends with Uncorrectable only when the root
count differs from the degree of the locator, and then `CW` and `OMEGA` are as before. -/
def Obligations.DecodeFailsOnlyAtTheRootCount : Prop :=
  ∀ (p : PrimPoly) (s t : State), RunsOver p s → exec .decode s = .next t → t.status = .uncorrectable →
    t.nroot.toNat ≠ degree t.lam ∧ t.cw = s.cw ∧ t.omega = s.omega

/-- R163, R164: a valid codeword decodes to itself with the count 0, and the solver's, the search's and the corrector's
registers keep their values. -/
def Obligations.DecodeOfACodeword : Prop :=
  ∀ (p : PrimPoly) (s : State), RunsOver p s → (∀ pos, pos < 1023 → (s.cw.coeff pos).toNat < 1024) →
    IsCodeword (buildField p) s.cw →
    exec .decode s =
      .next { doInit primPoly s with syn := tabulate 8 (fun _ => 0), allzero := true, status := .ok, result := 0 }

/-- R166: DECODE accepts a word that is no codeword, with no correction, when the solver answers the locator 1; the syndromes
(1, 0, ..., 0) are such a case, and no word within four symbols of a codeword is. -/
def Obligations.DecodeAcceptsTheUnitLocator : Prop :=
  (∀ (p : PrimPoly) (s : State), RunsOver p s → (∀ pos, pos < 1023 → (s.cw.coeff pos).toNat < 1024) →
    ¬ IsCodeword (buildField p) s.cw →
    (∀ j, j < 9 → (bmSolve (buildField p) (syndromes (buildField p) s.cw)).lam.coeff j = if j = 0 then 1 else 0) →
    ∃ t, exec .decode s = .next t ∧ t.status = .ok ∧ t.result = 0 ∧ t.nroot = 0 ∧ t.cw = s.cw) ∧
  ∀ (p : PrimPoly) (s : State), RunsOver p s → (∀ pos, pos < 1023 → (s.cw.coeff pos).toNat < 1024) →
    (∀ i, 1 ≤ i → i ≤ 8 → receivedAt (buildField p) s.cw i = if i = 1 then 1 else 0) →
    ¬ IsCodeword (buildField p) s.cw ∧
    (∀ C : Buffer Container 1023, IsCodeword (buildField p) C → 4 < differences s.cw C) ∧
    ∃ t, exec .decode s = .next t ∧ t.status = .ok ∧ t.result = 0 ∧ t.nroot = 0 ∧ t.cw = s.cw

/-- R142 (e), R150, R161, R188 (c): a codeword with at most four wrong symbols, anywhere in its 1023 positions, is restored,
and the number of wrong symbols is reported. -/
def Obligations.DecodeRepairsUpToFourErrors : Prop :=
  ∀ (p : PrimPoly) (s : State) (C : Buffer Container 1023), RunsOver p s →
    (∀ pos, pos < 1023 → (s.cw.coeff pos).toNat < 1024) →
    (∀ pos, pos < 1023 → (C.coeff pos).toNat < 1024) →
    IsCodeword (buildField p) C → differences s.cw C ≤ 4 →
    ∃ t, exec .decode s = .next t ∧ t.status = .ok ∧ t.cw = C ∧
      t.result = BitVec.ofNat 4 (differences s.cw C)

/-! ## PACK and UNPACK -/

/-- R182: PACK. -/
def Obligations.PackCommandRule : Prop :=
  (∀ s : State, exec .pack s = .next { s with eccO := pack s.par, status := .ok, result := 0 }) ∧
  (pack ⟨[0x344, 0x24B, 0x03A, 0x3A0, 0x297, 0x143, 0x033, 0x1FE], rfl⟩).cells =
    [0x44, 0x2F, 0xA9, 0x03, 0xE8, 0x97, 0x0E, 0x35, 0x83, 0x7F] ∧
  (pack ⟨[0, 0, 0, 0, 0, 0, 0, 0], rfl⟩).cells = [0, 0, 0, 0, 0, 0, 0, 0, 0, 0] ∧
  (pack ⟨[0x3FF, 0x3FF, 0x3FF, 0x3FF, 0x3FF, 0x3FF, 0x3FF, 0x3FF], rfl⟩).cells =
    [0xFF, 0xFF, 0xFF, 0xFF, 0xFF, 0xFF, 0xFF, 0xFF, 0xFF, 0xFF] ∧
  (pack ⟨[0x001, 0, 0, 0, 0, 0, 0, 0], rfl⟩).cells = [0x01, 0, 0, 0, 0, 0, 0, 0, 0, 0] ∧
  (pack ⟨[0, 0, 0, 0x200, 0, 0, 0, 0], rfl⟩).cells = [0, 0, 0, 0, 0x80, 0, 0, 0, 0, 0] ∧
  (pack ⟨[0, 0, 0, 0, 0x001, 0, 0, 0], rfl⟩).cells = [0, 0, 0, 0, 0, 0x01, 0, 0, 0, 0]

/-- R183: UNPACK. -/
def Obligations.UnpackCommandRule : Prop :=
  (∀ s : State, exec .unpack s = .next { s with par := unpack s.eccS, status := .ok, result := 0 }) ∧
  (unpack ⟨[0x44, 0x2F, 0xA9, 0x03, 0xE8, 0x97, 0x0E, 0x35, 0x83, 0x7F], rfl⟩).cells =
    [0x344, 0x24B, 0x03A, 0x3A0, 0x297, 0x143, 0x033, 0x1FE]

/-- R180, R181: `pack` and `unpack` are inverse to each other. -/
def Obligations.PackingIsABijection : Prop :=
  (∀ P : Buffer Symbol 8, unpack (pack P) = P) ∧ ∀ E : Buffer Byte 10, pack (unpack E) = E

/-- R66, in both directions: the five bytes of each group, least significant first, are the number whose ten-bit digits are
the group's four symbols, least significant first. -/
def Obligations.PackIsTheLittleEndianBitstream : Prop :=
  (∀ (P : Buffer Symbol 8) (g : Nat), g < 2 →
    ((pack P).coeff (5 * g)).toNat + 2 ^ 8 * ((pack P).coeff (5 * g + 1)).toNat +
      2 ^ 16 * ((pack P).coeff (5 * g + 2)).toNat + 2 ^ 24 * ((pack P).coeff (5 * g + 3)).toNat +
      2 ^ 32 * ((pack P).coeff (5 * g + 4)).toNat =
    (P.coeff (4 * g)).toNat + 2 ^ 10 * (P.coeff (4 * g + 1)).toNat +
      2 ^ 20 * (P.coeff (4 * g + 2)).toNat + 2 ^ 30 * (P.coeff (4 * g + 3)).toNat) ∧
  ∀ (E : Buffer Byte 10) (g : Nat), g < 2 →
    (E.coeff (5 * g)).toNat + 2 ^ 8 * (E.coeff (5 * g + 1)).toNat + 2 ^ 16 * (E.coeff (5 * g + 2)).toNat +
      2 ^ 24 * (E.coeff (5 * g + 3)).toNat + 2 ^ 32 * (E.coeff (5 * g + 4)).toNat =
    ((unpack E).coeff (4 * g)).toNat + 2 ^ 10 * ((unpack E).coeff (4 * g + 1)).toNat +
      2 ^ 20 * ((unpack E).coeff (4 * g + 2)).toNat + 2 ^ 30 * ((unpack E).coeff (4 * g + 3)).toNat

/-! ## COMPUTE -/

/-- R185: COMPUTE always ends with Ok; `ECC_O` is the packed parity of the zero-padded block, which the shift register also
gives when it starts at `DATA[511]`; `DATA` and the other host buffers are unchanged; the result is a function of `DATA`
alone; and the two examples of the rule. -/
def Obligations.ComputeCommandRule : Prop :=
  (∀ s : State, ∃ t,
    exec .compute s = .next t ∧ t.status = .ok ∧ t.result = 0 ∧
    rsEncode (doInit primPoly s).tables (doInit primPoly s).gen (dataPart (buildCw s.data s.par)) =
      .ok (unpack t.eccO) ∧
    t.eccO = pack (lfsrRun (doInit primPoly s).tables (doInit primPoly s).gen (s.data.cells.map byteToSymbol)) ∧
    t.data = s.data ∧ t.eccS = s.eccS ∧ t.eccR = s.eccR ∧ t.cmd = s.cmd ∧
    ((∀ i, i < 512 → s.data.coeff i = 0) → ∀ b, b < 10 → t.eccO.coeff b = 0)) ∧
  (∀ s s' t t', ContextBuilt primPoly s → ContextBuilt primPoly s' → s.data = s'.data →
    exec .compute s = .next t → exec .compute s' = .next t' →
    t.eccO = t'.eccO ∧ t.status = t'.status ∧ t.result = t'.result) ∧
  ∀ s t : State, ContextBuilt primPoly s → s.data.coeff 0 = 0x01 → (∀ i, 1 ≤ i → i < 512 → s.data.coeff i = 0) →
    exec .compute s = .next t → t.eccO.cells = [0x44, 0x2F, 0xA9, 0x03, 0xE8, 0x97, 0x0E, 0x35, 0x83, 0x7F]

/-- R120, R180, R185 (program P3): ENCODE then PACK on the zero-padded block gives the ECC that COMPUTE gives. -/
def Obligations.EncodeThenPackIsCompute : Prop :=
  ∀ s t u v P, s.cw = buildCw s.data P → exec .encode s = .next t → exec .pack t = .next u →
    exec .compute s = .next v → u.status = .ok ∧ u.eccO = v.eccO

/-! ## CORRECT -/

/-- R186, R187: CORRECT: equal ECC buffers end it at once with the count 0 and `DATA` unchanged; otherwise the stored ECC is
unpacked, the codeword is decoded, a count above 4 or a failed decode is Uncorrectable, and on success the 512 data bytes
are the low eight bits of the corrected symbols. -/
def Obligations.CorrectCommandRule : Prop :=
  ∀ s : State, ∃ t,
    exec .correct s = .next t ∧ t.eccS = s.eccS ∧ t.eccR = s.eccR ∧ t.eccO = s.eccO ∧ t.cmd = s.cmd ∧
    (s.eccS = s.eccR → t.status = .ok ∧ t.result = 0 ∧ t.data = s.data) ∧
    (s.eccS ≠ s.eccR →
      match rsDecode (doInit primPoly s).tables (buildCw s.data (unpack s.eccS)) with
      | .ok (C, count) =>
        if count ≤ 4 then
          t.status = .ok ∧ t.result.toNat = count ∧
          ∀ i, i < 512 → t.data.coeff i = (containerToSymbol (C.coeff i)).setWidth 8
        else t.status = .uncorrectable ∧ t.result = 0
      | .error _ => t.status = .uncorrectable ∧ t.result = 0)

/-- R188 (a): `build_cw(B, unpack(E))` is a valid codeword exactly when `E` is the ECC that COMPUTE gives for `B`. -/
def Obligations.CodewordExactlyWhenTheEccMatches : Prop :=
  ∀ (p : PrimPoly) (s : State) (E : Buffer Byte 10), RunsOver p s →
    ∃ t, exec .compute s = .next t ∧
      (IsCodeword (buildField p) (buildCw s.data (unpack E)) ↔ E = t.eccO)

/-- R188 (b): "Round trip, no corruption", on a block that runs no command. -/
def Obligations.RoundTripWithoutCorruption : Prop :=
  ∀ (s : State) (B : Buffer Byte 512), s.cmdWritten = false → ∃ e t u,
    computeEcc B s = some (e, t) ∧ correctData B e e t = some (.okCount 0 B, u)

/-- R188 (c), (e) for one corruption: one byte of any block changed in any way is restored with the count 1. -/
def Obligations.OneCorruptedByteIsRepaired : Prop :=
  ∀ (s : State) (B : Buffer Byte 512) (i : Nat) (x : Byte), ContextBuilt primPoly s → s.cmdWritten = false → i < 512 →
    x ≠ 0 →
    ∃ e e' t t' u,
      computeEcc B s = some (e, t) ∧ computeEcc (corruptByte B i x) t = some (e', t') ∧
      correctData (corruptByte B i x) e e' t' = some (.okCount 1 B, u)

/-- R188 (c): "Correction within bound": up to four corrupted bytes are restored exactly, and their number is reported. -/
def Obligations.CorrectionWithinTheBound : Prop :=
  ∀ (s : State) (B D : Buffer Byte 512), ContextBuilt primPoly s → s.cmdWritten = false →
    differences D B ≤ 4 →
    ∃ e e' t t' u,
      computeEcc B s = some (e, t) ∧ computeEcc D t = some (e', t') ∧
      correctData D e e' t' = some (.okCount (BitVec.ofNat 4 (differences D B)) B, u)

/-! ## Errors and status -/

/-- R201: which command can end in which error, and when. CORRECT is said twice: by the decode that fails or counts more than
4 (R186, R187), and, as R201 has it, by the root count of the locator. -/
def Obligations.WhichCommandEndsInWhichError : Prop :=
  (∀ i s t, i ∈ [Instr.init, .gfmul, .bmsolve, .pack, .unpack, .compute] → exec i s = .next t → t.status = .ok) ∧
  (∀ s t, exec .gfinv s = .next t → t.status = if s.gfa = 0 then .zeroInverse else .ok) ∧
  (∀ s t, exec .encode s = .next t →
    (t.status = .invalidSymbol ↔ ∃ i, i < 1015 ∧ 1024 ≤ (s.cw.coeff i).toNat) ∧
    (t.status = .invalidSymbol ∨ t.status = .ok)) ∧
  (∀ s t, exec .synd s = .next t →
    (t.status = .invalidSymbol ↔ ∃ pos, pos < 1023 ∧ 1024 ≤ (s.cw.coeff pos).toNat) ∧
    (t.status = .invalidSymbol ∨ t.status = .ok)) ∧
  (∀ s t, exec .chien s = .next t →
    t.status = if t.nroot.toNat = degree s.lam then .ok else .uncorrectable) ∧
  (∀ s t, exec .forney s = .next t →
    (t.status = .invalidSymbol ↔ ∃ pos, pos < 1023 ∧ 1024 ≤ (s.cw.coeff pos).toNat) ∧
    (t.status = .uncorrectable ↔
      (∀ pos, pos < 1023 → (s.cw.coeff pos).toNat < 1024) ∧
      (8 < s.nroot.toNat ∨
        ∃ c, c < s.nroot.toNat ∧ derivativeAt (doInit primPoly s).tables s.lam (s.root.coeff c).toNat = 0)) ∧
    (t.status = .invalidSymbol ∨ t.status = .uncorrectable ∨ t.status = .ok)) ∧
  (∀ p s t, RunsOver p s → exec .decode s = .next t →
    (t.status = .invalidSymbol ↔ ∃ pos, pos < 1023 ∧ 1024 ≤ (s.cw.coeff pos).toNat) ∧
    (t.status = .uncorrectable ↔
      (∀ pos, pos < 1023 → (s.cw.coeff pos).toNat < 1024) ∧ ¬ IsCodeword (buildField p) s.cw ∧
      t.nroot.toNat ≠ degree t.lam) ∧
    (t.status = .invalidSymbol ∨ t.status = .uncorrectable ∨ t.status = .ok)) ∧
  (∀ s t, exec .correct s = .next t →
    (t.status = .uncorrectable ↔
      s.eccS ≠ s.eccR ∧
      ∀ C count, rsDecode (doInit primPoly s).tables (buildCw s.data (unpack s.eccS)) = .ok (C, count) → 4 < count) ∧
    (t.status = .uncorrectable ∨ t.status = .ok)) ∧
  (∀ p s t, RunsOver p s → exec .correct s = .next t →
    (t.status = .uncorrectable ↔
      s.eccS ≠ s.eccR ∧ ¬ IsCodeword (buildField p) (buildCw s.data (unpack s.eccS)) ∧
      (rootCount (buildField p) (locatorOf (buildField p) (buildCw s.data (unpack s.eccS))) ≠
          degree (locatorOf (buildField p) (buildCw s.data (unpack s.eccS))) ∨
        4 < rootCount (buildField p) (locatorOf (buildField p) (buildCw s.data (unpack s.eccS)))))) ∧
  ∀ s t e, s.cmdWritten = true → decode s.cmd = .error e → step s = .next t → t.status = .badCommand

/-- R27, R70: `RESULT` is 0 after every error and after every command but FORNEY, DECODE and CORRECT; it is at most 8 always, and
at most 4 after CORRECT. -/
def Obligations.ResultIsACountOrZero : Prop :=
  ∀ i s t, exec i s = .next t →
    (t.status ≠ .ok → t.result = 0) ∧
    (i ≠ .forney → i ≠ .decode → i ≠ .correct → t.result = 0) ∧
    (i = .correct → t.result.toNat ≤ 4) ∧
    t.result.toNat ≤ 8

/-- R29, R205: an error is not sticky: no command's behaviour depends on `STATUS` or `RESULT` as left by an earlier one, and
none reads `ALLZERO`. That the two runs also take the same free values is the form of log entry 4. -/
def Obligations.EarlierOutcomeIsNeverRead : Prop :=
  ∀ i s (a : Status) (r : BitVec 4) (z : Bool),
    exec i { s with status := a, result := r } = exec i s ∧
    ∀ t t', exec i s = .next t → exec i { s with allzero := z } = .next t' → t' = { t with allzero := t'.allzero }

/-- R204: InvalidSymbol and ZeroInverse are detected before the command writes any result. -/
def Obligations.PreciseErrorsWriteNoResult : Prop :=
  ∀ i s t, exec i s = .next t → t.status = .invalidSymbol ∨ t.status = .zeroInverse →
    t = { doInit primPoly s with status := t.status, result := 0 }

/-! ## What each command leaves alone -/

/-- R40, R91, R100, R101, R121, R182, R183: the frames of INIT, GFMUL, GFINV, ENCODE, PACK and UNPACK. -/
def Obligations.FrameOfFieldEncoderAndPacking : Prop :=
  ∀ s t,
    (exec .init s = .next t →
      t = { s with
        initDone := t.initDone, tables := t.tables, gen := t.gen, status := t.status, result := t.result }) ∧
    (exec .gfmul s = .next t ∨ exec .gfinv s = .next t →
      t = { s with
        initDone := t.initDone, tables := t.tables, gen := t.gen, gfq := t.gfq
        status := t.status, result := t.result }) ∧
    (exec .encode s = .next t →
      t = { s with
        initDone := t.initDone, tables := t.tables, gen := t.gen, par := t.par
        status := t.status, result := t.result }) ∧
    (exec .pack s = .next t → t = { s with eccO := t.eccO, status := t.status, result := t.result }) ∧
    (exec .unpack s = .next t → t = { s with par := t.par, status := t.status, result := t.result })

/-- R40, R131, R141, R151, R162, R164: the frames of SYND, BMSOLVE, CHIEN, FORNEY and DECODE. FORNEY and DECODE leave every
element of `CW` that no listed root names. -/
def Obligations.FrameOfTheDecoder : Prop :=
  ∀ s t,
    (exec .synd s = .next t →
      t = { s with
        initDone := t.initDone, tables := t.tables, gen := t.gen, syn := t.syn, allzero := t.allzero
        status := t.status, result := t.result }) ∧
    (exec .bmsolve s = .next t →
      t = { s with
        initDone := t.initDone, tables := t.tables, gen := t.gen, lam := t.lam, deg := t.deg, ell := t.ell
        status := t.status, result := t.result }) ∧
    (exec .chien s = .next t →
      t = { s with
        initDone := t.initDone, tables := t.tables, gen := t.gen, root := t.root, loc := t.loc, nroot := t.nroot
        status := t.status, result := t.result }) ∧
    (exec .forney s = .next t →
      t = { s with
        initDone := t.initDone, tables := t.tables, gen := t.gen, cw := t.cw, omega := t.omega
        status := t.status, result := t.result, draws := t.draws } ∧
      ∀ pos, pos < 1023 → (∀ rho, rho ∈ listedRoots s.root s.nroot.toNat → rootToPosition rho ≠ pos) →
        t.cw.coeff pos = s.cw.coeff pos) ∧
    (exec .decode s = .next t →
      t = { s with
        initDone := t.initDone, tables := t.tables, gen := t.gen, cw := t.cw, syn := t.syn, allzero := t.allzero
        lam := t.lam, deg := t.deg, ell := t.ell, root := t.root, loc := t.loc, nroot := t.nroot, omega := t.omega
        status := t.status, result := t.result, draws := t.draws } ∧
      ∀ pos, pos < 1023 → (∀ rho, rho ∈ listedRoots t.root t.nroot.toNat → rootToPosition rho ≠ pos) →
        t.cw.coeff pos = s.cw.coeff pos)

/-- R30, R40, R185, R187: COMPUTE writes `ECC_O`, CORRECT writes `DATA`; beside that and `STATUS` and `RESULT` they touch only
the unit-level registers, of which nothing is said (U3). -/
def Obligations.FrameOfTheBoundaryCommands : Prop :=
  ∀ s t,
    (exec .compute s = .next t →
      t.data = s.data ∧ t.eccS = s.eccS ∧ t.eccR = s.eccR ∧ t.cmd = s.cmd ∧ t.cmdWritten = s.cmdWritten) ∧
    (exec .correct s = .next t →
      t.eccS = s.eccS ∧ t.eccR = s.eccR ∧ t.eccO = s.eccO ∧ t.cmd = s.cmd ∧ t.cmdWritten = s.cmdWritten)

/-! ## The host's side -/

/-- R40, R45, R46, R47, R65, R233: on a block that runs no command, a host read after a host write of the same element gives
the value written and every other element reads as before; a write of `CMD` starts the command, and from then to the end of
the step that runs it the host can neither read nor write; after the step it can read again, and `CMD` reads as before.
That a write of a register that is read-only to the host (`INIT_DONE`, R13; `DEG` and `ELL`, R23; `OMEGA`, R25; `STATUS` and
`RESULT`, R27) is no action is the model's choice (log entry 6, DESIGN CHOICE). -/
def Obligations.HostReadAfterWrite : Prop :=
  (∀ s t r (v : BitVec r.width), r ≠ .cmd → hostWrite s r v = some t →
    hostRead t r = some v ∧ ∀ q, q ≠ r → hostRead t q = hostRead s q) ∧
  (∀ (s : State) (v : BitVec 8), s.cmdWritten = false →
    hostWrite s .cmd v = some { s with cmd := v, cmdWritten := true }) ∧
  (∀ s r (v : BitVec r.width),
    hostWrite s r v = none ↔
      s.cmdWritten = true ∨
        (∃ i, r = .omega i) ∨ r = .deg ∨ r = .ell ∨ r = .status ∨ r = .result ∨ r = .initDone) ∧
  (∀ s r, hostRead s r = none ↔ s.cmdWritten = true) ∧
  ∀ s t, step s = .next t → t.cmdWritten = false ∧ hostRead t .cmd = some s.cmd

end
end

