-- ==== Sys2Proof/Laws/Buffer.lean ====
section
/-! SUPPORT. What reading a buffer gives after each buffer operation, and the algebra of `xorSum`. -/

namespace Sys2Proof.Laws

open Sys2Proof.Machine

variable {α : Type} {n w : Nat}

theorem buffer_eq_of_cells {a b : Buffer α n} (h : a.cells = b.cells) : a = b := by
  cases a; cases b; simp_all

theorem getD_eq_getElem (b : Buffer α n) (i : Nat) (d : α) (h : i < n) :
    b.getD i d = b.cells[i]'(by rw [b.size]; exact h) := by
  simp [Buffer.getD, List.getD_eq_getElem?_getD, b.size, h]

theorem getD_out_of_range (b : Buffer α n) (i : Nat) (d : α) (h : n ≤ i) : b.getD i d = d := by
  simp [Buffer.getD, List.getD_eq_getElem?_getD, b.size, h]

/-- Two buffers that read the same inside their range are the same data. -/
theorem buffer_ext {a b : Buffer α n} (d : α) (h : ∀ i, i < n → a.getD i d = b.getD i d) : a = b := by
  apply buffer_eq_of_cells
  apply List.ext_getElem (by rw [a.size, b.size])
  intro i ha hb
  have hi : i < n := by rw [← a.size]; exact ha
  have := h i hi
  rwa [getD_eq_getElem _ _ _ hi, getD_eq_getElem _ _ _ hi] at this

theorem buffer_ext_coeff {a b : Buffer (BitVec w) n} (h : ∀ i, i < n → a.coeff i = b.coeff i) : a = b :=
  buffer_ext 0 h

theorem getD_tabulate (f : Nat → α) (i : Nat) (d : α) (h : i < n) : (tabulate n f).getD i d = f i := by
  simp [Buffer.getD, tabulate, List.getD_eq_getElem?_getD, h]

@[simp] theorem coeff_tabulate (f : Nat → BitVec w) (i : Nat) :
    (tabulate n f).coeff i = if i < n then f i else 0 := by
  split
  · exact getD_tabulate f i 0 ‹_›
  · exact getD_out_of_range _ _ _ (by omega)

theorem getD_filled (v d : α) (i : Nat) (h : i < n) : (filled n v).getD i d = v := by
  rw [getD_eq_getElem _ _ _ h]
  simp [filled]

@[simp] theorem coeff_filled_zero (i : Nat) : (filled n (0#w)).coeff i = 0#w := by
  by_cases h : i < n
  · exact getD_filled _ _ _ h
  · exact getD_out_of_range _ _ _ (by omega)

/-- Reading after a write: the written value at its index, the old one elsewhere (R40, R44). -/
theorem getD_set (b : Buffer α n) (i j : Nat) (v d : α) (h : i < n) :
    (b.set i v).getD j d = if j = i then v else b.getD j d := by
  by_cases hj : j < n
  · rw [getD_eq_getElem _ _ _ hj, getD_eq_getElem _ _ _ hj]
    simp only [Buffer.set, List.getElem_set]
    by_cases hij : i = j
    · simp [hij]
    · simp [hij, Ne.symm hij]
  · rw [getD_out_of_range _ _ _ (by omega), getD_out_of_range _ _ _ (by omega), if_neg (by omega)]

theorem coeff_set (b : Buffer (BitVec w) n) (i j : Nat) (v : BitVec w) (h : i < n) :
    (b.set i v).coeff j = if j = i then v else b.coeff j :=
  getD_set b i j v 0 h

@[simp] theorem coeff_set_self (b : Buffer (BitVec w) n) (i : Nat) (v : BitVec w) (h : i < n) :
    (b.set i v).coeff i = v := by simp [coeff_set _ _ _ _ h]

/-- Writing every element of `c` over `b`, one after another, gives `c`. -/
theorem foldl_set_finRange (b c : Buffer (BitVec w) n) :
    (List.finRange n).foldl (fun b i => b.set i (c.coeff i)) b = c := by
  have key : ∀ (l : List (Fin n)) (b : Buffer (BitVec w) n) (j : Nat),
      (l.foldl (fun b i => b.set i (c.coeff i)) b).coeff j = if ∃ i ∈ l, i.val = j then c.coeff j else b.coeff j := by
    intro l
    induction l with
    | nil => intro b j; simp
    | cons i l ih =>
      intro b j
      rw [List.foldl_cons, ih, coeff_set _ _ _ _ i.isLt]
      by_cases hl : ∃ k ∈ l, k.val = j
      · rw [if_pos hl, if_pos (hl.imp fun k hk => ⟨List.mem_cons_of_mem _ hk.1, hk.2⟩)]
      · rw [if_neg hl]
        by_cases hi : i.val = j
        · rw [if_pos hi.symm, if_pos ⟨i, List.mem_cons_self, hi⟩, hi]
        · rw [if_neg (Ne.symm hi), if_neg]
          rintro ⟨k, hk, rfl⟩
          rcases List.mem_cons.mp hk with rfl | hk
          · exact hi rfl
          · exact hl ⟨k, hk, rfl⟩
  refine buffer_ext_coeff fun j hj => ?_
  rw [key, if_pos ⟨⟨j, hj⟩, List.mem_finRange _, rfl⟩]

theorem coeff_out_of_range (b : Buffer (BitVec w) n) (i : Nat) (h : n ≤ i) : b.coeff i = 0 :=
  getD_out_of_range b i 0 h

theorem coeff_take (b : Buffer (BitVec w) n) (k i : Nat) (h : k ≤ n) (hi : i < k) :
    (b.take k h).coeff i = b.coeff i := by
  simp only [Buffer.coeff]
  rw [getD_eq_getElem _ _ _ hi, getD_eq_getElem _ _ _ (by omega)]
  simp [Buffer.take]

/-! ## The sum -/

@[simp] theorem xorSum_zero (f : Nat → Symbol) : xorSum 0 f = 0 := rfl

theorem xorSum_succ (k : Nat) (f : Nat → Symbol) : xorSum (k + 1) f = xorSum k f ^^^ f k := by
  simp [xorSum, List.range_succ]

theorem xorSum_congr {k : Nat} {f g : Nat → Symbol} (h : ∀ i, i < k → f i = g i) : xorSum k f = xorSum k g := by
  induction k with
  | zero => rfl
  | succ k ih => rw [xorSum_succ, xorSum_succ, ih (fun i hi => h i (by omega)), h k (by omega)]

theorem xorSum_xor (k : Nat) (f g : Nat → Symbol) :
    xorSum k (fun i => f i ^^^ g i) = xorSum k f ^^^ xorSum k g := by
  induction k with
  | zero => simp
  | succ k ih => simp only [xorSum_succ, ih]; ac_rfl

@[simp] theorem xorSum_const_zero (k : Nat) : xorSum k (fun _ => 0#10) = 0#10 := by
  induction k with
  | zero => rfl
  | succ k ih => rw [xorSum_succ, ih]; rfl

/-- A sum with one non-zero term. -/
theorem xorSum_single {k : Nat} (j : Nat) (hj : j < k) (f : Nat → Symbol) (h : ∀ i, i < k → i ≠ j → f i = 0) :
    xorSum k f = f j := by
  induction k with
  | zero => omega
  | succ k ih =>
    rw [xorSum_succ]
    by_cases hk : j = k
    · subst hk
      rw [xorSum_congr (g := fun _ => 0#10) (fun i hi => h i (by omega) (by omega)), xorSum_const_zero]
      simp
    · rw [ih (by omega) (fun i hi hij => h i (by omega) hij), h k (by omega) (Ne.symm hk)]
      simp

/-! ## The degree -/

/-- `degree p` is the largest index of a non-zero coefficient, or 0 when all are 0. -/
theorem degree_spec (p : Buffer Symbol n) :
    (∀ i, degree p < i → p.coeff i = 0) ∧ (degree p = 0 ∨ (degree p < n ∧ p.coeff (degree p) ≠ 0)) := by
  have key : ∀ k, (∀ i, (List.range k).foldl (fun d i => if p.coeff i = 0 then d else i) 0 < i → i < k → p.coeff i = 0) ∧
      ((List.range k).foldl (fun d i => if p.coeff i = 0 then d else i) 0 = 0 ∨
        ((List.range k).foldl (fun d i => if p.coeff i = 0 then d else i) 0 < k ∧
          p.coeff ((List.range k).foldl (fun d i => if p.coeff i = 0 then d else i) 0) ≠ 0)) := by
    intro k
    induction k with
    | zero => exact ⟨fun i _ h => by omega, .inl rfl⟩
    | succ k ih =>
      simp only [List.range_succ, List.foldl_append, List.foldl_cons, List.foldl_nil]
      split
      · refine ⟨fun i hi hk => ?_, ih.2.imp id fun h => ⟨by omega, h.2⟩⟩
        by_cases hik : i = k
        · rw [hik]; assumption
        · exact ih.1 i hi (by omega)
      · exact ⟨fun i hi hk => by omega, .inr ⟨by omega, ‹_›⟩⟩
  refine ⟨fun i hi => ?_, (key n).2⟩
  by_cases h : i < n
  · exact (key n).1 i hi h
  · exact coeff_out_of_range p i (by omega)

theorem coeff_of_degree_lt (p : Buffer Symbol n) (i : Nat) (h : degree p < i) : p.coeff i = 0 := (degree_spec p).1 i h

theorem degree_le (p : Buffer Symbol n) (d : Nat) (h : ∀ i, d < i → p.coeff i = 0) : degree p ≤ d := by
  rcases (degree_spec p).2 with h0 | ⟨_, hne⟩
  · omega
  · by_contra hlt
    exact hne (h _ (by omega))

end Sys2Proof.Laws
end

