-- ==== Sys2Proof/Laws/Field.lean ====
section
/-! SUPPORT. The field laws of R90, R95 to R99, R102, R104 for the tables that the builder makes of any primitive `PRIM_POLY`.
The one idea: entry e of the forward table is the e-fold doubling of 1, so multiplying by α^e is e-fold doubling, which is
linear over exclusive-or. -/

namespace Sys2Proof.Laws

open Sys2Proof.Machine

/-! ## Doubling -/

theorem xtimes_xor (p : BitVec 11) (a b : Symbol) : xtimes p (a ^^^ b) = xtimes p a ^^^ xtimes p b := by
  unfold xtimes
  rw [BitVec.shiftLeft_xor_distrib, BitVec.getLsbD_xor]
  cases a.getLsbD 9 <;> cases b.getLsbD 9 <;> simp
  · ac_rfl
  · ac_rfl
  · generalize BitVec.setWidth 10 p = c
    rw [show a <<< 1 ^^^ c ^^^ (b <<< 1 ^^^ c) = a <<< 1 ^^^ b <<< 1 ^^^ (c ^^^ c) by ac_rfl, BitVec.xor_self,
      BitVec.xor_zero]

theorem xtimes_zero (p : BitVec 11) : xtimes p 0 = 0 := by
  simp [xtimes]

theorem iterate_xtimes_xor (p : BitVec 11) (k : Nat) (a b : Symbol) :
    (xtimes p)^[k] (a ^^^ b) = (xtimes p)^[k] a ^^^ (xtimes p)^[k] b := by
  induction k generalizing a b with
  | zero => rfl
  | succ k ih => simp only [Function.iterate_succ, Function.comp, xtimes_xor, ih]

theorem iterate_xtimes_zero (p : BitVec 11) (k : Nat) : (xtimes p)^[k] 0 = 0 := by
  induction k with
  | zero => rfl
  | succ k ih => rw [Function.iterate_succ_apply, xtimes_zero, ih]

theorem expEntries_getElem (p : BitVec 11) (k : Nat) (v : Symbol) (i : Nat) (h : i < k) :
    (expEntries p k v)[i]'(by rw [expEntries_length]; exact h) = (xtimes p)^[i] v := by
  induction k generalizing v i with
  | zero => omega
  | succ k ih =>
    cases i with
    | zero => rfl
    | succ i =>
      simp only [expEntries, List.getElem_cons_succ, Function.iterate_succ_apply]
      exact ih _ _ (by omega)

/-! ## What the check of R92 says -/

theorem entriesDistinct_spec (p : BitVec 11) (k : Nat) (v : Symbol) (seen : Nat)
    (h : entriesDistinct p k v seen = true) :
    (∀ i, i < k → (xtimes p)^[i] v ≠ 0 ∧ seen.testBit ((xtimes p)^[i] v).toNat = false) ∧
    (∀ i j, i < j → j < k → (xtimes p)^[i] v ≠ (xtimes p)^[j] v) ∧ (xtimes p)^[k] v = 1 := by
  induction k generalizing v seen with
  | zero => exact ⟨fun i hi => by omega, fun i j _ hj => by omega, by simpa [entriesDistinct] using h⟩
  | succ k ih =>
    simp only [entriesDistinct, Bool.and_eq_true, bne_iff_ne, ne_eq, Bool.not_eq_true'] at h
    obtain ⟨⟨h0, hs⟩, hrest⟩ := h
    obtain ⟨hnew, hdist, hlast⟩ := ih _ _ hrest
    have hseen : ∀ i, i < k → seen.testBit ((xtimes p)^[i] (xtimes p v)).toNat = false ∧
        (xtimes p)^[i] (xtimes p v) ≠ v := by
      intro i hi
      have := (hnew i hi).2
      simp only [Nat.testBit_or, Bool.or_eq_false_iff] at this
      refine ⟨this.1, fun he => ?_⟩
      have h2 := this.2
      rw [he] at h2
      simp [Nat.testBit_shiftLeft] at h2
    refine ⟨fun i hi => ?_, fun i j hij hj => ?_, ?_⟩
    · cases i with
      | zero => exact ⟨h0, hs⟩
      | succ i => exact ⟨(hnew i (by omega)).1, (hseen i (by omega)).1⟩
    · cases j with
      | zero => omega
      | succ j =>
        cases i with
        | zero => exact fun he => (hseen j (by omega)).2 he.symm
        | succ i => exact hdist i j (by omega) (by omega)
    · rw [Function.iterate_succ_apply]; exact hlast

variable (p : PrimPoly)

theorem PrimPoly.check : entriesDistinct p.bits 1023 1 0 = true := by
  have := p.primitive
  simp only [isPrimitive, Bool.and_eq_true] at this
  exact this.2

/-- α^1023 = 1. -/
theorem alpha_period : (xtimes p.bits)^[1023] 1 = 1 :=
  (entriesDistinct_spec _ _ _ _ (PrimPoly.check p)).2.2

theorem alphaPow_eq (e : Nat) : alphaPow (buildField p) e = (xtimes p.bits)^[e] 1 := by
  have hp : Function.IsPeriodicPt (xtimes p.bits) 1023 1 := alpha_period p
  rw [← hp.iterate_mod_apply e]
  have hlt : e % 1023 < 1023 := Nat.mod_lt _ (by decide)
  simp only [alphaPow, Buffer.coeff]
  rw [getD_eq_getElem _ _ _ hlt]
  exact expEntries_getElem _ _ _ _ hlt

theorem exp_coeff (e : Nat) (h : e < 1023) : (buildField p).exp.coeff e = alphaPow (buildField p) e := by
  simp [alphaPow, Nat.mod_eq_of_lt h]

theorem alphaPow_mod (F : FieldTables) (e : Nat) : alphaPow F (e % 1023) = alphaPow F e := by
  simp [alphaPow]

@[simp] theorem alphaPow_zero : alphaPow (buildField p) 0 = 1 := by rw [alphaPow_eq]; rfl

theorem alphaPow_ne_zero (e : Nat) : alphaPow (buildField p) e ≠ 0 := by
  rw [← alphaPow_mod, alphaPow_eq]
  exact ((entriesDistinct_spec _ _ _ _ (PrimPoly.check p)).1 _ (Nat.mod_lt _ (by decide))).1

/-- The 1023 entries of the forward table are distinct (R92). -/
theorem alphaPow_injective {i j : Nat} (hi : i < 1023) (hj : j < 1023)
    (h : alphaPow (buildField p) i = alphaPow (buildField p) j) : i = j := by
  have hd := (entriesDistinct_spec _ _ _ _ (PrimPoly.check p)).2.1
  rw [alphaPow_eq, alphaPow_eq] at h
  rcases Nat.lt_trichotomy i j with hij | hij | hij
  · exact absurd h (hd i j hij hj)
  · exact hij
  · exact absurd h.symm (hd j i hij hi)

theorem alphaPow_eq_iff (i j : Nat) :
    alphaPow (buildField p) i = alphaPow (buildField p) j ↔ i % 1023 = j % 1023 := by
  constructor
  · intro h
    rw [← alphaPow_mod, ← alphaPow_mod _ j] at h
    exact alphaPow_injective p (Nat.mod_lt _ (by decide)) (Nat.mod_lt _ (by decide)) h
  · intro h
    rw [← alphaPow_mod, h, alphaPow_mod]

/-- Every non-zero element is a power of α (R90). -/
theorem exists_alphaPow (v : Symbol) (h : v ≠ 0) : ∃ e, e < 1023 ∧ alphaPow (buildField p) e = v := by
  have hsub : (Finset.range 1023).image (fun e => (alphaPow (buildField p) e).toNat) ⊆ Finset.Icc 1 1023 := by
    intro u hu
    obtain ⟨e, _, rfl⟩ := Finset.mem_image.mp hu
    have hne : (alphaPow (buildField p) e).toNat ≠ 0 := fun h0 =>
      alphaPow_ne_zero p e (BitVec.eq_of_toNat_eq (by simpa using h0))
    have := (alphaPow (buildField p) e).isLt
    rw [Finset.mem_Icc]; omega
  have hcard : ((Finset.range 1023).image (fun e => (alphaPow (buildField p) e).toNat)).card = 1023 := by
    rw [Finset.card_image_of_injOn, Finset.card_range]
    intro i hi j hj hij
    exact alphaPow_injective p (by simpa using hi) (by simpa using hj) (BitVec.eq_of_toNat_eq hij)
  have heq := Finset.eq_of_subset_of_card_le hsub (by rw [hcard, Nat.card_Icc])
  have hv : v.toNat ∈ Finset.Icc 1 1023 := by
    have hne : v.toNat ≠ 0 := fun h0 => h (BitVec.eq_of_toNat_eq (by simpa using h0))
    have := v.isLt
    rw [Finset.mem_Icc]; omega
  rw [← heq] at hv
  obtain ⟨e, he, hev⟩ := Finset.mem_image.mp hv
  exact ⟨e, by simpa using he, BitVec.eq_of_toNat_eq hev⟩

/-! ## The inverse table -/

theorem gfLog_eq_logEntry (v : Symbol) : gfLog (buildField p) v = logEntry (buildExp p) v := by
  simp only [gfLog, buildField, buildLog]
  rw [getD_tabulate _ _ _ v.isLt, BitVec.ofNat_toNat, BitVec.setWidth_eq]

@[simp] theorem gfLog_zero : gfLog (buildField p) 0 = .logz := by
  rw [gfLog_eq_logEntry]
  have : (buildExp p).cells.findIdx? (fun u => u == 0) = none := by
    rw [List.findIdx?_eq_none_iff]
    intro u hu
    obtain ⟨i, hi, rfl⟩ := List.getElem_of_mem hu
    have hi' : i < 1023 := by simpa [(buildExp p).size] using hi
    have := exp_coeff p i hi'
    rw [show (buildField p).exp = buildExp p from rfl, Buffer.coeff, getD_eq_getElem _ _ _ hi'] at this
    rw [this]
    simpa using alphaPow_ne_zero p i
  rw [logEntry, this]

/-- R15, R93: log(α^e) = e. -/
theorem gfLog_alphaPow_lt (e : Nat) (h : e < 1023) :
    gfLog (buildField p) (alphaPow (buildField p) e) = .exp ⟨e, h⟩ := by
  rw [gfLog_eq_logEntry]
  have hget : ∀ i (hi : i < 1023), (buildExp p).cells[i]'(by rw [(buildExp p).size]; exact hi) =
      alphaPow (buildField p) i := by
    intro i hi
    rw [← exp_coeff p i hi, show (buildField p).exp = buildExp p from rfl, Buffer.coeff, getD_eq_getElem _ _ _ hi]
  have : (buildExp p).cells.findIdx? (fun u => u == alphaPow (buildField p) e) = some e := by
    rw [List.findIdx?_eq_some_iff_getElem]
    refine ⟨by rw [(buildExp p).size]; exact h, by rw [hget e h]; simp, fun j hj => ?_⟩
    rw [hget j (by omega)]
    simp only [beq_iff_eq]
    exact fun he => absurd (alphaPow_injective p (by omega) h he) (by omega)
  rw [logEntry, this]
  simp [Fin.ofNat, Nat.mod_eq_of_lt h]

theorem gfLog_alphaPow (e : Nat) :
    gfLog (buildField p) (alphaPow (buildField p) e) = .exp ⟨e % 1023, Nat.mod_lt _ (by decide)⟩ := by
  rw [← alphaPow_mod]
  exact gfLog_alphaPow_lt p _ _

/-- R99: the conversions are inverse to each other. -/
theorem gfExp_gfLog (v : Symbol) : gfExp (buildField p) (gfLog (buildField p) v) = v := by
  by_cases h : v = 0
  · subst h; rw [gfLog_zero]; rfl
  · obtain ⟨e, he, rfl⟩ := exists_alphaPow p v h
    rw [gfLog_alphaPow_lt p e he]
    exact exp_coeff p e he

/-! ## Multiplication -/

@[simp] theorem gfMul_zero_left (F : FieldTables) (b : Symbol) : gfMul F 0#10 b = 0#10 := by simp [gfMul]

@[simp] theorem gfMul_zero_right (F : FieldTables) (a : Symbol) : gfMul F a 0#10 = 0#10 := by simp [gfMul]

/-- R95: "multiplication as modular exponent addition". -/
theorem gfMul_alphaPow (i j : Nat) :
    gfMul (buildField p) (alphaPow (buildField p) i) (alphaPow (buildField p) j) = alphaPow (buildField p) (i + j) := by
  have h : ¬(alphaPow (buildField p) i = 0 ∨ alphaPow (buildField p) j = 0) := by
    simp only [not_or]; exact ⟨alphaPow_ne_zero p i, alphaPow_ne_zero p j⟩
  rw [gfMul, if_neg h, gfLog_alphaPow, gfLog_alphaPow]
  show (buildField p).exp.coeff ((i % 1023 + j % 1023) % 1023) = _
  rw [← Nat.add_mod, exp_coeff _ _ (Nat.mod_lt _ (by decide)), alphaPow_mod]

/-- Multiplying by α^i is i-fold doubling. -/
theorem gfMul_alphaPow_left (i : Nat) (v : Symbol) :
    gfMul (buildField p) (alphaPow (buildField p) i) v = (xtimes p.bits)^[i] v := by
  by_cases h : v = 0
  · subst h
    rw [iterate_xtimes_zero]
    exact gfMul_zero_right _ _
  · obtain ⟨j, _, rfl⟩ := exists_alphaPow p v h
    rw [gfMul_alphaPow, alphaPow_eq, alphaPow_eq, Function.iterate_add_apply]

theorem gfMul_comm (F : FieldTables) (a b : Symbol) : gfMul F a b = gfMul F b a := by
  by_cases ha : a = 0
  · subst ha; simp
  by_cases hb : b = 0
  · subst hb; simp
  rw [gfMul, gfMul, if_neg (not_or.mpr ⟨ha, hb⟩), if_neg (not_or.mpr ⟨hb, ha⟩)]
  cases gfLog F a <;> cases gfLog F b <;> simp [Nat.add_comm]

theorem gfMul_xor_right (a b c : Symbol) :
    gfMul (buildField p) a (b ^^^ c) = gfMul (buildField p) a b ^^^ gfMul (buildField p) a c := by
  by_cases h : a = 0
  · subst h; simp
  · obtain ⟨i, _, rfl⟩ := exists_alphaPow p a h
    simp only [gfMul_alphaPow_left, iterate_xtimes_xor]

theorem gfMul_xor_left (a b c : Symbol) :
    gfMul (buildField p) (a ^^^ b) c = gfMul (buildField p) a c ^^^ gfMul (buildField p) b c := by
  rw [gfMul_comm, gfMul_xor_right, gfMul_comm _ c a, gfMul_comm _ c b]

theorem gfMul_assoc (a b c : Symbol) :
    gfMul (buildField p) (gfMul (buildField p) a b) c = gfMul (buildField p) a (gfMul (buildField p) b c) := by
  by_cases ha : a = 0
  · subst ha; simp
  by_cases hb : b = 0
  · subst hb; simp
  obtain ⟨i, _, rfl⟩ := exists_alphaPow p a ha
  obtain ⟨j, _, rfl⟩ := exists_alphaPow p b hb
  rw [gfMul_alphaPow, gfMul_alphaPow_left, gfMul_alphaPow_left, gfMul_alphaPow_left, Function.iterate_add_apply]

@[simp] theorem gfMul_one_left (a : Symbol) : gfMul (buildField p) 1#10 a = a := by
  have := gfMul_alphaPow_left p 0 a
  rwa [alphaPow_zero] at this

@[simp] theorem gfMul_one_right (a : Symbol) : gfMul (buildField p) a 1#10 = a := by
  rw [gfMul_comm, gfMul_one_left]

/-- There are no zero divisors. -/
theorem gfMul_eq_zero_iff (a b : Symbol) : gfMul (buildField p) a b = 0 ↔ a = 0 ∨ b = 0 := by
  constructor
  · intro h
    by_contra hne
    obtain ⟨ha, hb⟩ := not_or.mp hne
    obtain ⟨i, _, rfl⟩ := exists_alphaPow p a ha
    obtain ⟨j, _, rfl⟩ := exists_alphaPow p b hb
    rw [gfMul_alphaPow] at h
    exact alphaPow_ne_zero p _ h
  · rintro (rfl | rfl)
    · exact gfMul_zero_left _ _
    · exact gfMul_zero_right _ _

theorem gfInv_alphaPow (e : Nat) (h : alphaPow (buildField p) e ≠ 0) :
    gfInv (buildField p) (alphaPow (buildField p) e) h = alphaPow (buildField p) (1023 - e % 1023) := by
  rw [gfInv, gfLog_alphaPow]
  show (buildField p).exp.coeff ((1023 - e % 1023) % 1023) = _
  rw [exp_coeff _ _ (Nat.mod_lt _ (by decide)), alphaPow_mod]

/-- R96: the inverse. -/
theorem gfMul_gfInv (a : Symbol) (h : a ≠ 0) : gfMul (buildField p) a (gfInv (buildField p) a h) = 1 := by
  obtain ⟨e, he, rfl⟩ := exists_alphaPow p a h
  rw [gfInv_alphaPow, gfMul_alphaPow, Nat.mod_eq_of_lt he, show e + (1023 - e) = 1023 by omega, ← alphaPow_mod]
  exact alphaPow_zero p

theorem gfInv_ne_zero (a : Symbol) (h : a ≠ 0) : gfInv (buildField p) a h ≠ 0 := by
  intro h0
  have := gfMul_gfInv p a h
  rw [h0] at this
  simp at this

theorem gfMul_left_cancel (a b c : Symbol) (h : a ≠ 0)
    (he : gfMul (buildField p) a b = gfMul (buildField p) a c) : b = c := by
  have h2 : gfMul (buildField p) a (b ^^^ c) = 0 := by rw [gfMul_xor_right, he, BitVec.xor_self]; rfl
  rcases (gfMul_eq_zero_iff p _ _).mp h2 with h3 | h3
  · exact absurd h3 h
  · rwa [← BitVec.xor_eq_zero_iff]

/-- R97: the quotient times the divisor is the dividend. -/
theorem gfMul_gfDiv (a b : Symbol) (h : b ≠ 0) : gfMul (buildField p) b (gfDiv (buildField p) a b h) = a := by
  rw [gfDiv, gfMul_comm _ a, ← gfMul_assoc, gfMul_gfInv]
  exact gfMul_one_left p a

theorem gfMul_xorSum (a : Symbol) (k : Nat) (f : Nat → Symbol) :
    gfMul (buildField p) a (xorSum k f) = xorSum k (fun i => gfMul (buildField p) a (f i)) := by
  induction k with
  | zero => simp
  | succ k ih => rw [xorSum_succ, xorSum_succ, gfMul_xor_right, ih]

end Sys2Proof.Laws
end

