-- ==== Sys2Proof/Laws/Evaluate.lean ====
section
/-! SUPPORT. A fast form of the field functions for the default `PRIM_POLY`, equal to the model's, so that a concrete command
can be evaluated by Lean's kernel: the two tables as two numerals of ten bits an entry, read by a shift. -/

namespace Sys2Proof.Laws.Fast

open Sys2Proof.Machine

/-- `EXP[0..1022]`, entry i in bits 10·i to 10·i + 9. -/
def expNumeral : Nat := 0x20440881911222464c4989393722646cc598b39772a656ce59eb7d7fabf47ec7d8fb9e738670ce19e37c7f8bf07e47c8f99e13c2784f88f15e39c7b9f77effdbfa7f07e0fc1f83f86f09e01c0380700e01c0380781f07e1fc7f9ff7ffffbfe7f87f0fe1fe3bc6788710e21c63c4788f90f25e59cbb87746e8dd9a935a794fa8f55eb9d7bbf73ef7da7b6f25e6b8570ae15e2fc4f8df09e1bd17a2f65a4b692526a0540a81502a0560e41e87d1fa7f5feffcffdfe9fdbe97dae95daa955ab957abf53eb7d27a6f05e0bc1782f84f0de09c1b91722e6584b09612e21c518a316664ce9dd29a5b596bac75c6b8d79bf33e77ca796f65eeb9d61ac3586b8c71c638c799f37e7fcbf87f47e8fd9e93da694da8951ab1562ae51cb19632e61cd19a336624c69c538a795f2fe4fcdf89f1bf17e2fe5bca790720e41c8398610c218438971662ec1d91b2366684d09a136224468c518a39572e65ecfd8fb5f79efbcf7dee9ddba975af95faaf51eb1d63ae71cf19e33e63cd79e73ee3dd7be77eebdc7bc778ef9cf3de69cdb8971af15e2be53cb792726e05c0b81702e05e0fc0f85f19e3bd77e6fedbda7b0760ec1d83b86708610c2186344688d90921a514a296564ae91d31a634e6dcc999b21642c8598a1142284589913a3742686d45a8b59792fa4f4de89d1bb1762ee59ca194328658d91ba2740680d01a0340680d80901a1142286544a89593927a5f4fe8fd5fb9f7bff7bee7d87b0f61ee39c618c318638d71e63ec3d97b676ee9dc1b83706e0de1fc2f81f11e23c67c4f89f92f21e51ca396764ee99d21a4348698c1182304608e15c3987b1f67edfdffaff1ff1fe3fe7bce798730e61ce3dc698db0961ad15a2b6524a690520a4148298410821042086144288591923a574e69ed7dbfb3f77ea7d6fe5febbd67a8750ea1d63e47e8bd07a4748e99c1382704e09e17c3f83f17e67cefdde9bdb696dac959aa1542a8558b917a3f43e97d67aef1df1be37e6bcc79c738e79df3fe6fc9f81f03e07c0f81f82f01e11c2386744e89d92925a594ba87546a8d59b937a7f4be87d47a8f59f93fa6f49e81d03a0740e81d82905a1943a97566aed1db1b636e69cc198330660ce1dc2985b1963ad75e6bed3db7b2766e85d0ba1762a4568e51ea7d5faff4fedfc9f9be17c2f85f8af11e31c638e75cf99fb2f61ed1da3b6724e698530a614e2dc4989b01602c0580b01602e01c1182306644c89992124248498811022044088118310620e45c9993b37626c6dc5b8b797f2be47cc798f39f73a676ca596b656ea9d41a83506a0d61e43e83d17a674eeddc9b9b616c2d85b8a710620c4188318710e21e47c9f97f3fe3fd7fe7fefbde7b8770ee1de3fc6f89f01e03c0780f01e03e03c178670ee5dd9bbb67686d0da1b63246688510a21462c4588b90724648c9981302604c0981383702606c4588b19712e25e4fc8f95f39e7bdf7feefd9fa1f43e87d8e91da2945a9953ab7526a6d05a0b41682d84909a0140280500a0140280581903a174668ed5db9b7b7f6bec7dc7b8f79ff3be67c8790f21e6384708e11e27c5f8ff0fe5fd9fbbe7786f0de1be33c778a716e65cebdd69adb4969ac1582b0560ae11c318630e65cd99bb27606c0d81b03606e09c0180300600c0180300600e05c1983b17666ceddda9b5b796facf5dea9d5bb977aff5bea7d07a0f41e83d8690da0941a91522a6504a094128258590ba0744688d19b13626e49c8190320640c819821042084189112226404809012024048098010020040080100200400801

/-- `LOG[0..1023]`, entry v in bits 10·v to 10·v + 9; entry 0 is 0 and is not used. -/
def logNumeral : Nat := 0xed4f8dc21ded36fecfb2ed87b3e72cdc56787bcadca5b5a3e687df4f2cb5eddda1f3da3eb0fcb5b9882e97d48ef33922da56dcdc89719e5a762f9c383ecbbc4124cbb3e6e888ee2b376e3d1f787f6cedf36d0e4ecc2dee595cf488648ba9577d97623eac5ab97d8eddfa03f0e5eedd110725e69767d67d97cbed4cfdc06eec7226183f3a32f235c46be497081fbd1e215ff70723bbacee4e4ad1b1773598fbc32e2b0b99c5961d73d478f38e1b47a0e510db36457dc935dd8924045ab4de88848926fbbad2c5605cfa57a103440e86d7bf395ad8ce61a6d90aab7919979fa9fa97683496622fdd4964442472a8679e706f15bb22d922920867e2cc05fb571bd029370585c4aeeaff1f49beec26773f52fe90d02f7f48d81df764c1cf343be13eb6511fefef4b4fe254d5810677625d68638fd7ff12a6ee84b39543ad4c66c855965f27630d3db6d1e5652e73cac785b9f9071b60e543d43a7bb3ae391974f3c7038b57b4ac5e86bc244431192aab9d537d0b7e347252845e06b628a8bb3ec4b7f25651e1769188d7d124c492a11bf14b0eee11bac37c36bceb8efa91c5ee0f105d3d1469d97672af23b7f69469d15b0ad6342fe672569f7e6879bd2b16667278c15297da97ee9d9ff80a620a72d6ea1ef27a0af9c4d8dd98f25e6744831094a122d9b4863a86b29f8fd76f632571aeb2554b69e3d05a3a502170b9d61af8cc74c18140b5b18c70cd49e81fbcc1c2b829e354c4e9abbe64b020cc802c2fa61fd7f88ddab0793d3f9fd4c3fbe969f344103c1ea853a8eb8b194884f7a73936a21d0dacd62be29cd538d45857041e8d20289bfc13f4ef4d41399011460101f1433a9f037782789a00d6ca319205adb7831d336cd9115817eec99133fe39a69510093de1cdbbb11eb2b59bc996be57ccb4767d9c39b8ba08de465571d9dd84372e923cf487aca3ce18ecb3ecbb90f391d565d6abe5adc0f9ed43de59f196b4dbfb1a17e8a34af707f415e1c7ab38db0d63c2abdc4758773839f4324424988110dd11efa4ac5b5e7431b33862da52a5187e696d222e25423a166f56ad847fe117b1aa4984bb71efb6764b8cffcc1c92f3384a50bf74e53105890625faa512942314547c70cdb164cef84e3f5f0f27ab89731bf56b12bb109297510ad1a831a8a7faff1476905f0c38414ab82c2dab8d46e0e74868d9b22da1d02b02ec937de6b15c99516a29cdfe095b6f12b8d763a660c0a066a39ca3d68c5ad54de268820e72f7d2d3fc5ccca00c0e0753a666382c2b983f76a93c7f3faa780f7a7a72c0839caa13662a730d35be8ca2012bcd3844d000cb02099ff28a04ddd3264016263fd9a00886fb0cabc8f90b3f61b72325467036488868ecebb28f2556aab6dec791956fa168cf06577aa6bfc170c76e7a4361cdcbe45ad0b3769117a562d08a6eb5fe0c6583c76753381bcca4fd3504186a450453c2d63e0f5e9e572d56ba4a109a08a6fc28f30949b078c83467c85cf0b77cc5150a6e08bc0d69949f8e3d56b1e107ef64f8cb2ff529882afd93bfe40ee9882a822934a8b045373ff017fa034c415ff007ebfc72c9b694c35214ea3c6a97ad9485705ea7c01d64236c59cd9168b26df7d829d01a93903a8c5258b5d5c6b9420a5a3948e2c6673b7b53e073549ef51e0bd4cad44294e80d20628a2936c020205006f19b50d0e9aa193c13bf904584566c6041940851d72b8291471977a8189d77cc90a00c89d35804056d0e864bbe15e6b06050add46de49c3200b4d00439fbd9a84f5149b02803ef04e268021340100000

def expAt (e : Nat) : Symbol := BitVec.ofNat 10 (expNumeral >>> (10 * e))

def log (v : Symbol) : Nat := (logNumeral >>> (10 * v.toNat)) % 1024

def alpha (e : Nat) : Symbol := expAt (e % 1023)

def mul (a b : Symbol) : Symbol := if a = 0 ∨ b = 0 then 0 else alpha (log a + log b)

def inv (a : Symbol) : Symbol := alpha (1023 - log a)

set_option maxRecDepth 20000 in
theorem expEntries_default : expEntries Config.primPolyBits 1023 1 = (List.range 1023).map expAt := by decide +kernel

set_option maxRecDepth 20000 in
theorem expAt_log_all : (List.range' 1 1023).all
    (fun v => decide (log (BitVec.ofNat 10 v) < 1023) && expAt (log (BitVec.ofNat 10 v)) == BitVec.ofNat 10 v) = true := by
  decide +kernel

theorem exp_eq (e : Nat) (h : e < 1023) : (buildField primPoly).exp.coeff e = expAt e := by
  rw [Buffer.coeff, getD_eq_getElem _ _ _ h]
  have : (buildField primPoly).exp.cells = (List.range 1023).map expAt := expEntries_default
  simp [this]

theorem alphaPow_eq (e : Nat) : alphaPow (buildField primPoly) e = alpha e :=
  exp_eq _ (Nat.mod_lt _ (by decide))

theorem expAt_log (v : Symbol) (h : v ≠ 0) : log v < 1023 ∧ expAt (log v) = v := by
  have hne : v.toNat ≠ 0 := fun h0 => h (BitVec.eq_of_toNat_eq (by simpa using h0))
  have := v.isLt
  have h2 := List.all_eq_true.mp expAt_log_all v.toNat (by rw [List.mem_range'_1]; omega)
  simpa using h2

theorem gfLog_eq (v : Symbol) (h : v ≠ 0) :
    gfLog (buildField primPoly) v = .exp ⟨log v, (expAt_log v h).1⟩ := by
  obtain ⟨hl, he⟩ := expAt_log v h
  have := gfLog_alphaPow_lt primPoly (log v) hl
  rwa [alphaPow_eq, alpha, Nat.mod_eq_of_lt hl, he] at this

theorem gfMul_eq (a b : Symbol) : gfMul (buildField primPoly) a b = mul a b := by
  unfold gfMul mul
  split
  · rfl
  · rename_i h
    obtain ⟨ha, hb⟩ := not_or.mp h
    rw [gfLog_eq a ha, gfLog_eq b hb]
    exact exp_eq _ (Nat.mod_lt _ (by decide))

theorem gfInv_eq (a : Symbol) (h : a ≠ 0) : gfInv (buildField primPoly) a h = inv a := by
  rw [gfInv, gfLog_eq a h]
  exact exp_eq _ (Nat.mod_lt _ (by decide))

/-! ## The generator polynomial (R113) -/

/-- R113: g_0, ..., g_8 for the default `PRIM_POLY`. -/
def generator : List Symbol := [0x344, 0x24B, 0x03A, 0x3A0, 0x297, 0x143, 0x033, 0x1FE, 0x001]

theorem generatorCoeffs_eq : generatorCoeffs (buildField primPoly) = generator := by
  simp only [generatorCoeffs, timesLinear, gfMul_eq, alphaPow_eq]
  decide +kernel

theorem generatorCoeff_eq (j : Nat) (h : j < 9) :
    generatorCoeff (buildField primPoly) (buildGen (buildField primPoly)) j = generator.getD j 0 := by
  rw [generatorCoeff, buildGen, getD_tabulate _ _ _ h, gfExp_gfLog, generatorCoeffs_eq]

/-! ## The units -/

def lfsrStep (d : Symbol) (bb : Buffer Symbol 8) : Buffer Symbol 8 :=
  let fb := d ^^^ bb.coeff 7
  tabulate 8 (fun j => (if j = 0 then 0 else bb.coeff (j - 1)) ^^^ mul (generator.getD j 0) fb)

theorem lfsrStep_eq (d : Symbol) (bb : Buffer Symbol 8) :
    Machine.lfsrStep (buildField primPoly) (buildGen (buildField primPoly)) d bb = lfsrStep d bb := by
  apply buffer_ext_coeff
  intro i hi
  simp only [Machine.lfsrStep, lfsrStep, coeff_tabulate, if_pos hi, gfMul_eq, generatorCoeff_eq i (by omega)]

def lfsrRun (D : List Symbol) : Buffer Symbol 8 := D.foldr lfsrStep (filled 8 0)

theorem lfsrRun_eq (D : List Symbol) :
    Machine.lfsrRun (buildField primPoly) (buildGen (buildField primPoly)) D = lfsrRun D := by
  have : Machine.lfsrStep (buildField primPoly) (buildGen (buildField primPoly)) = lfsrStep := by
    funext d bb; exact lfsrStep_eq d bb
  rw [Machine.lfsrRun, this, lfsrRun]

def syndromeSum (i : Nat) : Nat → List Symbol → Symbol
  | _, [] => 0
  | p, c :: rest =>
    if c = 0 then syndromeSum i (p + 1) rest else alpha (log c + i * p) ^^^ syndromeSum i (p + 1) rest

theorem syndromeSum_eq (i p : Nat) (C : List Symbol) :
    Machine.syndromeSum (buildField primPoly) i p C = syndromeSum i p C := by
  induction C generalizing p with
  | nil => rfl
  | cons c rest ih =>
    simp only [Machine.syndromeSum, syndromeSum, ih]
    split
    · rfl
    · rename_i h
      rw [timesAlphaPow, gfLog_eq c h]
      congr 1
      exact exp_eq _ (Nat.mod_lt _ (by decide))

def syndromes (C : Buffer Container 1023) : Buffer Symbol 8 :=
  tabulate 8 (fun i => syndromeSum (i + 1) 0 (C.cells.map containerToSymbol))

theorem syndromes_eq (C : Buffer Container 1023) : Machine.syndromes (buildField primPoly) C = syndromes C := by
  simp only [Machine.syndromes, syndromes, syndromeSum_eq]

def solverStep (S : Buffer Symbol 8) (st : SolverState) (r : Nat) : SolverState :=
  let delta := xorSum r (fun i => mul (st.lam.coeff i) (syndromeAt S (r - i)))
  let cand := tabulate 9 (fun j =>
    if j = 0 then st.lam.coeff 0 else st.lam.coeff j ^^^ mul delta (st.aux.coeff (j - 1)))
  if delta = 0 then { st with aux := shiftAux st.aux }
  else if 2 * st.len ≤ r - 1 then ⟨cand, tabulate 9 (fun j => mul (inv delta) (st.lam.coeff j)), r - st.len⟩
  else ⟨cand, shiftAux st.aux, st.len⟩

theorem solverStep_eq (S : Buffer Symbol 8) (st : SolverState) (r : Nat) :
    Machine.solverStep (buildField primPoly) S st r = solverStep S st r := by
  simp only [Machine.solverStep, solverStep, discrepancy, candidate, scaledByInverse, gfMul_eq, gfInv_eq]
  split <;> rfl

def bmSolve (S : Buffer Symbol 8) : SolverResult :=
  let st := (List.range' 1 8).foldl (solverStep S) solverStart
  ⟨st.lam, degree st.lam, st.len⟩

theorem bmSolve_eq (S : Buffer Symbol 8) : Machine.bmSolve (buildField primPoly) S = bmSolve S := by
  have : Machine.solverStep (buildField primPoly) S = solverStep S := by
    funext st r; exact solverStep_eq S st r
  simp only [Machine.bmSolve, bmSolve, solverRun, this]

def locatorAt (lam : Buffer Symbol 9) (i : Nat) : Symbol :=
  xorSum 9 (fun j => mul (lam.coeff j) (alpha (i * j)))

theorem chienRoots_eq (lam : Buffer Symbol 9) :
    chienRoots (buildField primPoly) lam = (List.range' 1 1023).filter (fun i => locatorAt lam i == 0) := by
  simp only [chienRoots, Machine.locatorAt, locatorAt, gfMul_eq, alphaPow_eq]

def chienSearch (lam : Buffer Symbol 9) : ChienResult :=
  let roots := (List.range' 1 1023).filter (fun i => locatorAt lam i == 0)
  { count := roots.length
    root := tabulate 8 (fun c => BitVec.ofNat 10 (roots.getD c 0))
    loc := tabulate 8 (fun c => BitVec.ofNat 10 ((roots.map rootToPosition).getD c 0))
    ok := roots.length == degree lam }

theorem chienSearch_eq (lam : Buffer Symbol 9) :
    Machine.chienSearch (buildField primPoly) lam = chienSearch lam := by
  simp only [Machine.chienSearch, chienSearch, chienRoots_eq]

def omegaPoly (S : Buffer Symbol 8) (lam : Buffer Symbol 9) : Buffer Symbol 8 :=
  tabulate 8 (fun i =>
    xorSum (min (degree lam) i + 1) (fun j => mul (syndromeAt S (i + 1 - j)) (lam.coeff j)))

theorem omegaPoly_eq (S : Buffer Symbol 8) (lam : Buffer Symbol 9) :
    Machine.omegaPoly (buildField primPoly) S lam = omegaPoly S lam := by
  simp only [Machine.omegaPoly, omegaPoly, gfMul_eq]

def applyMagnitudes (omega : Buffer Symbol 8) (lam : Buffer Symbol 9) :
    List Nat → Buffer Container 1023 → Except ErrorKind (Buffer Container 1023)
  | [], C => .ok C
  | rho :: rest, C =>
    let num := xorSum 8 (fun i => mul (omega.coeff i) (alpha (i * rho)))
    let den := xorSum 4 (fun k => mul (lam.coeff (2 * k + 1)) (alpha (2 * k * rho)))
    if den = 0 then .error .uncorrectable
    else if num = 0 then applyMagnitudes omega lam rest C
    else
      applyMagnitudes omega lam rest
        (C.set (rootToPosition rho)
          (symbolToContainer (containerToSymbol (C.coeff (rootToPosition rho)) ^^^ mul num (inv den))))

theorem applyMagnitudes_eq (omega : Buffer Symbol 8) (lam : Buffer Symbol 9) (roots : List Nat)
    (C : Buffer Container 1023) :
    Machine.applyMagnitudes (buildField primPoly) omega lam roots C = applyMagnitudes omega lam roots C := by
  induction roots generalizing C with
  | nil => rfl
  | cons rho rest ih =>
    simp only [Machine.applyMagnitudes, applyMagnitudes, ih, derivativeAt, evaluatorAt, gfDiv, gfMul_eq, alphaPow_eq,
      gfInv_eq, dite_eq_ite]

/-! ## The commands on a block whose tables are built -/

def rsEncode (D : Buffer Container 1015) : Except ErrorKind (Buffer Symbol 8) :=
  if allValid D then .ok (lfsrRun (D.cells.map containerToSymbol)) else .error .invalidSymbol

theorem rsEncode_eq (D : Buffer Container 1015) :
    Machine.rsEncode (buildField primPoly) (buildGen (buildField primPoly)) D = rsEncode D := by
  simp only [Machine.rsEncode, rsEncode, lfsrRun_eq]

def rsSyndromes (C : Buffer Container 1023) : Except ErrorKind (Buffer Symbol 8 × Bool) :=
  if allValid C then .ok (syndromes C, syndromesAllZero (syndromes C)) else .error .invalidSymbol

theorem rsSyndromes_eq (C : Buffer Container 1023) :
    Machine.rsSyndromes (buildField primPoly) C = rsSyndromes C := by
  simp only [Machine.rsSyndromes, rsSyndromes, syndromes_eq]

def forney (C : Buffer Container 1023) (S : Buffer Symbol 8) (lam : Buffer Symbol 9) (roots : List Nat) :
    Except ErrorKind (Buffer Container 1023 × Nat) :=
  match applyMagnitudes (omegaPoly S lam) lam roots C with
  | .error e => .error e
  | .ok C' => .ok (C', roots.length)

theorem forney_eq (C : Buffer Container 1023) (S : Buffer Symbol 8) (lam : Buffer Symbol 9) (roots : List Nat) :
    Machine.forney (buildField primPoly) C S lam roots = forney C S lam roots := by
  simp only [Machine.forney, forney, applyMagnitudes_eq, omegaPoly_eq]
  all_goals rfl

def rsDecode (C : Buffer Container 1023) : Except ErrorKind (Buffer Container 1023 × Nat) :=
  match rsSyndromes C with
  | .error e => .error e
  | .ok (S, z) =>
    if z then .ok (C, 0)
    else
      let lam := (bmSolve S).lam
      let r := chienSearch lam
      if r.ok then forney C S lam (listedRoots r.root r.count) else .error .uncorrectable

theorem rsDecode_eq (C : Buffer Container 1023) : Machine.rsDecode (buildField primPoly) C = rsDecode C := by
  simp only [Machine.rsDecode, rsDecode, rsSyndromes_eq, bmSolve_eq, chienSearch_eq, forney_eq]
  all_goals rfl

def correctBlock (D : Buffer Byte 512) (Es Er : Buffer Byte 10) : Except ErrorKind (Buffer Byte 512 × Nat) :=
  if Es = Er then .ok (D, 0)
  else
    match rsDecode (buildCw D (unpack Es)) with
    | .error e => .error e
    | .ok (C, count) => if 4 < count then .error .uncorrectable else .ok (dataBytes C, count)

theorem correctBlock_eq (D : Buffer Byte 512) (Es Er : Buffer Byte 10) :
    Machine.correctBlock (buildField primPoly) D Es Er = correctBlock D Es Er := by
  simp only [Machine.correctBlock, correctBlock, rsDecode_eq]
  all_goals rfl

section

variable (s : State)

def gfmulUnit : State := complete 0 { s with gfq := mul s.gfa s.gfb }

def gfinvUnit : State := if s.gfa = 0 then raise .zeroInverse s else complete 0 { s with gfq := inv s.gfa }

def encodeUnit : State :=
  match rsEncode (dataPart s.cw) with
  | .error e => raise e s
  | .ok P => complete 0 { s with par := P }

def syndUnit : State :=
  match rsSyndromes s.cw with
  | .error e => raise e s
  | .ok (S, z) => complete 0 { s with syn := S, allzero := z }

def bmsolveUnit : State :=
  let r := bmSolve s.syn
  complete 0 { s with lam := r.lam, deg := BitVec.ofNat 4 r.deg, ell := BitVec.ofNat 4 r.ell }

def chienUnit : State :=
  let r := chienSearch s.lam
  let s' := { s with root := r.root, loc := r.loc, nroot := BitVec.ofNat 10 r.count }
  if r.ok then complete 0 s' else raise .uncorrectable s'

def forneyUnit : State :=
  if !allValid s.cw then raise .invalidSymbol s
  else if 8 < s.nroot.toNat then raise .uncorrectable s
  else
    let roots := listedRoots s.root s.nroot.toNat
    let s' := { s with omega := omegaPoly s.syn s.lam }
    match forney s.cw s.syn s.lam roots with
    | .error e => raise e (scrubCorrected roots s')
    | .ok (C, count) => complete count { s' with cw := C }

def decodeUnit : State :=
  let s1 := syndUnit s
  if s1.status ≠ .ok then s1
  else if s1.allzero then s1
  else
    let s2 := chienUnit (bmsolveUnit s1)
    if s2.status ≠ .ok then s2 else forneyUnit s2

def computeUnit : State :=
  match rsEncode (dataPart (buildCw s.data (filled 8 0))) with
  | .error e => raise e (scrubUnitRegisters s)
  | .ok P => complete 0 (scrubUnitRegisters { s with eccO := pack P })

def correctUnit : State :=
  match correctBlock s.data s.eccS s.eccR with
  | .error e => raise e (scrubData (scrubUnitRegisters s))
  | .ok (D, count) => complete count (scrubUnitRegisters { s with data := D })

variable {s} (h : s.tables = buildField primPoly) (hg : s.gen = buildGen (buildField primPoly))

include h

theorem gfmulUnit_eq : Machine.gfmulUnit s = gfmulUnit s := by
  rw [Machine.gfmulUnit, gfmulUnit, h, gfMul_eq]

theorem gfinvUnit_eq : Machine.gfinvUnit s = gfinvUnit s := by
  simp only [Machine.gfinvUnit, gfinvUnit, h, gfInv_eq, dite_eq_ite]

theorem syndUnit_eq : Machine.syndUnit s = syndUnit s := by
  rw [Machine.syndUnit, syndUnit, h, rsSyndromes_eq]
  all_goals rfl

theorem bmsolveUnit_eq : Machine.bmsolveUnit s = bmsolveUnit s := by
  rw [Machine.bmsolveUnit, bmsolveUnit, h, bmSolve_eq]

theorem chienUnit_eq : Machine.chienUnit s = chienUnit s := by
  rw [Machine.chienUnit, chienUnit, h, chienSearch_eq]

theorem forneyUnit_eq : Machine.forneyUnit s = forneyUnit s := by
  simp only [Machine.forneyUnit, forneyUnit, h, omegaPoly_eq, forney_eq]
  all_goals rfl

theorem syndUnit_tables : (syndUnit s).tables = buildField primPoly := by
  rw [syndUnit]
  cases rsSyndromes s.cw <;> exact h

theorem decodeUnit_eq : Machine.decodeUnit s = decodeUnit s := by
  have h1 := syndUnit_tables h
  have h2 : (bmsolveUnit (syndUnit s)).tables = buildField primPoly := h1
  have h3 : (chienUnit (bmsolveUnit (syndUnit s))).tables = buildField primPoly := by
    rw [chienUnit]
    split <;> exact h2
  simp only [Machine.decodeUnit, decodeUnit, syndUnit_eq h, bmsolveUnit_eq h1, chienUnit_eq h2, forneyUnit_eq h3]

theorem correctUnit_eq : Machine.correctUnit s = correctUnit s := by
  rw [Machine.correctUnit, correctUnit, h, correctBlock_eq]
  all_goals rfl

include hg

theorem encodeUnit_eq : Machine.encodeUnit s = encodeUnit s := by
  rw [Machine.encodeUnit, encodeUnit, h, hg, rsEncode_eq]
  all_goals rfl

theorem computeUnit_eq : Machine.computeUnit s = computeUnit s := by
  rw [Machine.computeUnit, computeUnit, h, hg, rsEncode_eq]
  all_goals rfl

end

/-- The command `i` after `do_init`, evaluated without the tables. -/
def run (i : Instr) (s : State) : State :=
  match i with
  | .init => complete 0 (doInit primPoly s)
  | .gfmul => gfmulUnit (doInit primPoly s)
  | .gfinv => gfinvUnit (doInit primPoly s)
  | .encode => encodeUnit (doInit primPoly s)
  | .synd => syndUnit (doInit primPoly s)
  | .bmsolve => bmsolveUnit (doInit primPoly s)
  | .chien => chienUnit (doInit primPoly s)
  | .forney => forneyUnit (doInit primPoly s)
  | .decode => decodeUnit (doInit primPoly s)
  | .pack => packUnit s
  | .unpack => unpackUnit s
  | .compute => computeUnit (doInit primPoly s)
  | .correct => correctUnit (doInit primPoly s)

/-- Every command, on a block whose field context is what `INIT_DONE` says it is, can be evaluated in the fast form. -/
theorem exec_eq_run (i : Instr) (s : State)
    (h : s.initDone = true → s.tables = buildField primPoly ∧ s.gen = buildGen (buildField primPoly)) :
    exec i s = .next (run i s) := by
  have ht : (doInit primPoly s).tables = buildField primPoly := by
    unfold doInit; split
    · exact (h ‹_›).1
    · rfl
  have hg : (doInit primPoly s).gen = buildGen (buildField primPoly) := by
    unfold doInit; split
    · exact (h ‹_›).2
    · rfl
  cases i with
  | init => rfl
  | gfmul => exact congrArg Host.Outcome.next (gfmulUnit_eq ht)
  | gfinv => exact congrArg Host.Outcome.next (gfinvUnit_eq ht)
  | encode => exact congrArg Host.Outcome.next (encodeUnit_eq ht hg)
  | synd => exact congrArg Host.Outcome.next (syndUnit_eq ht)
  | bmsolve => exact congrArg Host.Outcome.next (bmsolveUnit_eq ht)
  | chien => exact congrArg Host.Outcome.next (chienUnit_eq ht)
  | forney => exact congrArg Host.Outcome.next (forneyUnit_eq ht)
  | decode => exact congrArg Host.Outcome.next (decodeUnit_eq ht)
  | pack => rfl
  | unpack => rfl
  | compute => exact congrArg Host.Outcome.next (computeUnit_eq ht hg)
  | correct => exact congrArg Host.Outcome.next (correctUnit_eq ht)

end Sys2Proof.Laws.Fast
end

