-- ==== Sys2Proof/Laws/State.lean ====
section
/-! SUPPORT. One lemma per field per shared update of the state: what it writes and what it leaves alone. -/

namespace Sys2Proof.Laws

open Sys2Proof.Machine

/-! ## `do_init` (R91, R103) -/

@[simp] theorem doInit_initDone (p : PrimPoly) (s : State) : (doInit p s).initDone = true := by
  unfold doInit; split <;> simp_all

theorem doInit_of_done (p : PrimPoly) (s : State) (h : s.initDone = true) : doInit p s = s := by
  simp [doInit, h]

theorem doInit_of_not_done (p : PrimPoly) (s : State) (h : s.initDone = false) :
    doInit p s = { s with tables := buildField p, gen := buildGen (buildField p), initDone := true } := by
  simp [doInit, h]

theorem doInit_tables (p : PrimPoly) (s : State) :
    (doInit p s).tables = if s.initDone then s.tables else buildField p := by
  unfold doInit; split <;> rfl

theorem doInit_gen (p : PrimPoly) (s : State) :
    (doInit p s).gen = if s.initDone then s.gen else buildGen (buildField p) := by
  unfold doInit; split <;> rfl

@[simp] theorem doInit_data (p : PrimPoly) (s : State) : (doInit p s).data = s.data := by unfold doInit; split <;> rfl
@[simp] theorem doInit_eccS (p : PrimPoly) (s : State) : (doInit p s).eccS = s.eccS := by unfold doInit; split <;> rfl
@[simp] theorem doInit_eccR (p : PrimPoly) (s : State) : (doInit p s).eccR = s.eccR := by unfold doInit; split <;> rfl
@[simp] theorem doInit_eccO (p : PrimPoly) (s : State) : (doInit p s).eccO = s.eccO := by unfold doInit; split <;> rfl
@[simp] theorem doInit_cw (p : PrimPoly) (s : State) : (doInit p s).cw = s.cw := by unfold doInit; split <;> rfl
@[simp] theorem doInit_par (p : PrimPoly) (s : State) : (doInit p s).par = s.par := by unfold doInit; split <;> rfl
@[simp] theorem doInit_syn (p : PrimPoly) (s : State) : (doInit p s).syn = s.syn := by unfold doInit; split <;> rfl
@[simp] theorem doInit_allzero (p : PrimPoly) (s : State) : (doInit p s).allzero = s.allzero := by unfold doInit; split <;> rfl
@[simp] theorem doInit_lam (p : PrimPoly) (s : State) : (doInit p s).lam = s.lam := by unfold doInit; split <;> rfl
@[simp] theorem doInit_deg (p : PrimPoly) (s : State) : (doInit p s).deg = s.deg := by unfold doInit; split <;> rfl
@[simp] theorem doInit_ell (p : PrimPoly) (s : State) : (doInit p s).ell = s.ell := by unfold doInit; split <;> rfl
@[simp] theorem doInit_root (p : PrimPoly) (s : State) : (doInit p s).root = s.root := by unfold doInit; split <;> rfl
@[simp] theorem doInit_loc (p : PrimPoly) (s : State) : (doInit p s).loc = s.loc := by unfold doInit; split <;> rfl
@[simp] theorem doInit_nroot (p : PrimPoly) (s : State) : (doInit p s).nroot = s.nroot := by unfold doInit; split <;> rfl
@[simp] theorem doInit_omega (p : PrimPoly) (s : State) : (doInit p s).omega = s.omega := by unfold doInit; split <;> rfl
@[simp] theorem doInit_gfa (p : PrimPoly) (s : State) : (doInit p s).gfa = s.gfa := by unfold doInit; split <;> rfl
@[simp] theorem doInit_gfb (p : PrimPoly) (s : State) : (doInit p s).gfb = s.gfb := by unfold doInit; split <;> rfl
@[simp] theorem doInit_gfq (p : PrimPoly) (s : State) : (doInit p s).gfq = s.gfq := by unfold doInit; split <;> rfl
@[simp] theorem doInit_cmd (p : PrimPoly) (s : State) : (doInit p s).cmd = s.cmd := by unfold doInit; split <;> rfl
@[simp] theorem doInit_status (p : PrimPoly) (s : State) : (doInit p s).status = s.status := by unfold doInit; split <;> rfl
@[simp] theorem doInit_result (p : PrimPoly) (s : State) : (doInit p s).result = s.result := by unfold doInit; split <;> rfl
@[simp] theorem doInit_cmdWritten (p : PrimPoly) (s : State) : (doInit p s).cmdWritten = s.cmdWritten := by unfold doInit; split <;> rfl
@[simp] theorem doInit_draws (p : PrimPoly) (s : State) : (doInit p s).draws = s.draws := by unfold doInit; split <;> rfl

/-! ## The command taken up (R50, R65) -/

@[simp] theorem takeCommand_initDone (s : State) : (takeCommand s).initDone = s.initDone := rfl
@[simp] theorem takeCommand_tables (s : State) : (takeCommand s).tables = s.tables := rfl
@[simp] theorem takeCommand_gen (s : State) : (takeCommand s).gen = s.gen := rfl
@[simp] theorem takeCommand_data (s : State) : (takeCommand s).data = s.data := rfl
@[simp] theorem takeCommand_eccS (s : State) : (takeCommand s).eccS = s.eccS := rfl
@[simp] theorem takeCommand_eccR (s : State) : (takeCommand s).eccR = s.eccR := rfl
@[simp] theorem takeCommand_eccO (s : State) : (takeCommand s).eccO = s.eccO := rfl
@[simp] theorem takeCommand_cw (s : State) : (takeCommand s).cw = s.cw := rfl
@[simp] theorem takeCommand_par (s : State) : (takeCommand s).par = s.par := rfl
@[simp] theorem takeCommand_syn (s : State) : (takeCommand s).syn = s.syn := rfl
@[simp] theorem takeCommand_allzero (s : State) : (takeCommand s).allzero = s.allzero := rfl
@[simp] theorem takeCommand_lam (s : State) : (takeCommand s).lam = s.lam := rfl
@[simp] theorem takeCommand_deg (s : State) : (takeCommand s).deg = s.deg := rfl
@[simp] theorem takeCommand_ell (s : State) : (takeCommand s).ell = s.ell := rfl
@[simp] theorem takeCommand_root (s : State) : (takeCommand s).root = s.root := rfl
@[simp] theorem takeCommand_loc (s : State) : (takeCommand s).loc = s.loc := rfl
@[simp] theorem takeCommand_nroot (s : State) : (takeCommand s).nroot = s.nroot := rfl
@[simp] theorem takeCommand_omega (s : State) : (takeCommand s).omega = s.omega := rfl
@[simp] theorem takeCommand_gfa (s : State) : (takeCommand s).gfa = s.gfa := rfl
@[simp] theorem takeCommand_gfb (s : State) : (takeCommand s).gfb = s.gfb := rfl
@[simp] theorem takeCommand_gfq (s : State) : (takeCommand s).gfq = s.gfq := rfl
@[simp] theorem takeCommand_cmd (s : State) : (takeCommand s).cmd = s.cmd := rfl
@[simp] theorem takeCommand_status (s : State) : (takeCommand s).status = s.status := rfl
@[simp] theorem takeCommand_result (s : State) : (takeCommand s).result = s.result := rfl
@[simp] theorem takeCommand_cmdWritten (s : State) : (takeCommand s).cmdWritten = false := rfl
@[simp] theorem takeCommand_draws (s : State) : (takeCommand s).draws = s.draws := rfl

/-! ## `raise E` (R204) -/

@[simp] theorem raise_initDone (e : ErrorKind) (s : State) : (raise e s).initDone = s.initDone := rfl
@[simp] theorem raise_tables (e : ErrorKind) (s : State) : (raise e s).tables = s.tables := rfl
@[simp] theorem raise_gen (e : ErrorKind) (s : State) : (raise e s).gen = s.gen := rfl
@[simp] theorem raise_data (e : ErrorKind) (s : State) : (raise e s).data = s.data := rfl
@[simp] theorem raise_eccS (e : ErrorKind) (s : State) : (raise e s).eccS = s.eccS := rfl
@[simp] theorem raise_eccR (e : ErrorKind) (s : State) : (raise e s).eccR = s.eccR := rfl
@[simp] theorem raise_eccO (e : ErrorKind) (s : State) : (raise e s).eccO = s.eccO := rfl
@[simp] theorem raise_cw (e : ErrorKind) (s : State) : (raise e s).cw = s.cw := rfl
@[simp] theorem raise_par (e : ErrorKind) (s : State) : (raise e s).par = s.par := rfl
@[simp] theorem raise_syn (e : ErrorKind) (s : State) : (raise e s).syn = s.syn := rfl
@[simp] theorem raise_allzero (e : ErrorKind) (s : State) : (raise e s).allzero = s.allzero := rfl
@[simp] theorem raise_lam (e : ErrorKind) (s : State) : (raise e s).lam = s.lam := rfl
@[simp] theorem raise_deg (e : ErrorKind) (s : State) : (raise e s).deg = s.deg := rfl
@[simp] theorem raise_ell (e : ErrorKind) (s : State) : (raise e s).ell = s.ell := rfl
@[simp] theorem raise_root (e : ErrorKind) (s : State) : (raise e s).root = s.root := rfl
@[simp] theorem raise_loc (e : ErrorKind) (s : State) : (raise e s).loc = s.loc := rfl
@[simp] theorem raise_nroot (e : ErrorKind) (s : State) : (raise e s).nroot = s.nroot := rfl
@[simp] theorem raise_omega (e : ErrorKind) (s : State) : (raise e s).omega = s.omega := rfl
@[simp] theorem raise_gfa (e : ErrorKind) (s : State) : (raise e s).gfa = s.gfa := rfl
@[simp] theorem raise_gfb (e : ErrorKind) (s : State) : (raise e s).gfb = s.gfb := rfl
@[simp] theorem raise_gfq (e : ErrorKind) (s : State) : (raise e s).gfq = s.gfq := rfl
@[simp] theorem raise_cmd (e : ErrorKind) (s : State) : (raise e s).cmd = s.cmd := rfl
@[simp] theorem raise_status (e : ErrorKind) (s : State) : (raise e s).status = e.status := rfl
@[simp] theorem raise_result (e : ErrorKind) (s : State) : (raise e s).result = 0 := rfl
@[simp] theorem raise_cmdWritten (e : ErrorKind) (s : State) : (raise e s).cmdWritten = s.cmdWritten := rfl
@[simp] theorem raise_draws (e : ErrorKind) (s : State) : (raise e s).draws = s.draws := rfl

/-! ## The end without an error (R70) -/

@[simp] theorem complete_initDone (count : Nat) (s : State) : (complete count s).initDone = s.initDone := rfl
@[simp] theorem complete_tables (count : Nat) (s : State) : (complete count s).tables = s.tables := rfl
@[simp] theorem complete_gen (count : Nat) (s : State) : (complete count s).gen = s.gen := rfl
@[simp] theorem complete_data (count : Nat) (s : State) : (complete count s).data = s.data := rfl
@[simp] theorem complete_eccS (count : Nat) (s : State) : (complete count s).eccS = s.eccS := rfl
@[simp] theorem complete_eccR (count : Nat) (s : State) : (complete count s).eccR = s.eccR := rfl
@[simp] theorem complete_eccO (count : Nat) (s : State) : (complete count s).eccO = s.eccO := rfl
@[simp] theorem complete_cw (count : Nat) (s : State) : (complete count s).cw = s.cw := rfl
@[simp] theorem complete_par (count : Nat) (s : State) : (complete count s).par = s.par := rfl
@[simp] theorem complete_syn (count : Nat) (s : State) : (complete count s).syn = s.syn := rfl
@[simp] theorem complete_allzero (count : Nat) (s : State) : (complete count s).allzero = s.allzero := rfl
@[simp] theorem complete_lam (count : Nat) (s : State) : (complete count s).lam = s.lam := rfl
@[simp] theorem complete_deg (count : Nat) (s : State) : (complete count s).deg = s.deg := rfl
@[simp] theorem complete_ell (count : Nat) (s : State) : (complete count s).ell = s.ell := rfl
@[simp] theorem complete_root (count : Nat) (s : State) : (complete count s).root = s.root := rfl
@[simp] theorem complete_loc (count : Nat) (s : State) : (complete count s).loc = s.loc := rfl
@[simp] theorem complete_nroot (count : Nat) (s : State) : (complete count s).nroot = s.nroot := rfl
@[simp] theorem complete_omega (count : Nat) (s : State) : (complete count s).omega = s.omega := rfl
@[simp] theorem complete_gfa (count : Nat) (s : State) : (complete count s).gfa = s.gfa := rfl
@[simp] theorem complete_gfb (count : Nat) (s : State) : (complete count s).gfb = s.gfb := rfl
@[simp] theorem complete_gfq (count : Nat) (s : State) : (complete count s).gfq = s.gfq := rfl
@[simp] theorem complete_cmd (count : Nat) (s : State) : (complete count s).cmd = s.cmd := rfl
@[simp] theorem complete_status (count : Nat) (s : State) : (complete count s).status = .ok := rfl
@[simp] theorem complete_result (count : Nat) (s : State) : (complete count s).result = BitVec.ofNat 4 count := rfl
@[simp] theorem complete_cmdWritten (count : Nat) (s : State) : (complete count s).cmdWritten = s.cmdWritten := rfl
@[simp] theorem complete_draws (count : Nat) (s : State) : (complete count s).draws = s.draws := rfl

/-! ## The unspecified unit-level registers (R30) -/

@[simp] theorem scrubUnitRegisters_initDone (s : State) : (scrubUnitRegisters s).initDone = s.initDone := rfl
@[simp] theorem scrubUnitRegisters_tables (s : State) : (scrubUnitRegisters s).tables = s.tables := rfl
@[simp] theorem scrubUnitRegisters_gen (s : State) : (scrubUnitRegisters s).gen = s.gen := rfl
@[simp] theorem scrubUnitRegisters_data (s : State) : (scrubUnitRegisters s).data = s.data := rfl
@[simp] theorem scrubUnitRegisters_eccS (s : State) : (scrubUnitRegisters s).eccS = s.eccS := rfl
@[simp] theorem scrubUnitRegisters_eccR (s : State) : (scrubUnitRegisters s).eccR = s.eccR := rfl
@[simp] theorem scrubUnitRegisters_eccO (s : State) : (scrubUnitRegisters s).eccO = s.eccO := rfl
@[simp] theorem scrubUnitRegisters_cmd (s : State) : (scrubUnitRegisters s).cmd = s.cmd := rfl
@[simp] theorem scrubUnitRegisters_status (s : State) : (scrubUnitRegisters s).status = s.status := rfl
@[simp] theorem scrubUnitRegisters_result (s : State) : (scrubUnitRegisters s).result = s.result := rfl
@[simp] theorem scrubUnitRegisters_cmdWritten (s : State) : (scrubUnitRegisters s).cmdWritten = s.cmdWritten := rfl
@[simp] theorem scrubUnitRegisters_draws (s : State) : (scrubUnitRegisters s).draws = s.draws + 14 := rfl

/-! ## The unspecified `DATA` (R187) -/

@[simp] theorem scrubData_initDone (s : State) : (scrubData s).initDone = s.initDone := rfl
@[simp] theorem scrubData_tables (s : State) : (scrubData s).tables = s.tables := rfl
@[simp] theorem scrubData_gen (s : State) : (scrubData s).gen = s.gen := rfl
@[simp] theorem scrubData_eccS (s : State) : (scrubData s).eccS = s.eccS := rfl
@[simp] theorem scrubData_eccR (s : State) : (scrubData s).eccR = s.eccR := rfl
@[simp] theorem scrubData_eccO (s : State) : (scrubData s).eccO = s.eccO := rfl
@[simp] theorem scrubData_cw (s : State) : (scrubData s).cw = s.cw := rfl
@[simp] theorem scrubData_par (s : State) : (scrubData s).par = s.par := rfl
@[simp] theorem scrubData_syn (s : State) : (scrubData s).syn = s.syn := rfl
@[simp] theorem scrubData_allzero (s : State) : (scrubData s).allzero = s.allzero := rfl
@[simp] theorem scrubData_lam (s : State) : (scrubData s).lam = s.lam := rfl
@[simp] theorem scrubData_deg (s : State) : (scrubData s).deg = s.deg := rfl
@[simp] theorem scrubData_ell (s : State) : (scrubData s).ell = s.ell := rfl
@[simp] theorem scrubData_root (s : State) : (scrubData s).root = s.root := rfl
@[simp] theorem scrubData_loc (s : State) : (scrubData s).loc = s.loc := rfl
@[simp] theorem scrubData_nroot (s : State) : (scrubData s).nroot = s.nroot := rfl
@[simp] theorem scrubData_omega (s : State) : (scrubData s).omega = s.omega := rfl
@[simp] theorem scrubData_gfa (s : State) : (scrubData s).gfa = s.gfa := rfl
@[simp] theorem scrubData_gfb (s : State) : (scrubData s).gfb = s.gfb := rfl
@[simp] theorem scrubData_gfq (s : State) : (scrubData s).gfq = s.gfq := rfl
@[simp] theorem scrubData_cmd (s : State) : (scrubData s).cmd = s.cmd := rfl
@[simp] theorem scrubData_status (s : State) : (scrubData s).status = s.status := rfl
@[simp] theorem scrubData_result (s : State) : (scrubData s).result = s.result := rfl
@[simp] theorem scrubData_cmdWritten (s : State) : (scrubData s).cmdWritten = s.cmdWritten := rfl
@[simp] theorem scrubData_draws (s : State) : (scrubData s).draws = s.draws + 1 := rfl

/-! ## The unspecified codeword positions (R162) -/

@[simp] theorem scrubCorrected_initDone (roots : List Nat) (s : State) : (scrubCorrected roots s).initDone = s.initDone := rfl
@[simp] theorem scrubCorrected_tables (roots : List Nat) (s : State) : (scrubCorrected roots s).tables = s.tables := rfl
@[simp] theorem scrubCorrected_gen (roots : List Nat) (s : State) : (scrubCorrected roots s).gen = s.gen := rfl
@[simp] theorem scrubCorrected_data (roots : List Nat) (s : State) : (scrubCorrected roots s).data = s.data := rfl
@[simp] theorem scrubCorrected_eccS (roots : List Nat) (s : State) : (scrubCorrected roots s).eccS = s.eccS := rfl
@[simp] theorem scrubCorrected_eccR (roots : List Nat) (s : State) : (scrubCorrected roots s).eccR = s.eccR := rfl
@[simp] theorem scrubCorrected_eccO (roots : List Nat) (s : State) : (scrubCorrected roots s).eccO = s.eccO := rfl
@[simp] theorem scrubCorrected_cw (roots : List Nat) (s : State) : (scrubCorrected roots s).cw = scrubPositions s.draws 0 roots s.cw := rfl
@[simp] theorem scrubCorrected_par (roots : List Nat) (s : State) : (scrubCorrected roots s).par = s.par := rfl
@[simp] theorem scrubCorrected_syn (roots : List Nat) (s : State) : (scrubCorrected roots s).syn = s.syn := rfl
@[simp] theorem scrubCorrected_allzero (roots : List Nat) (s : State) : (scrubCorrected roots s).allzero = s.allzero := rfl
@[simp] theorem scrubCorrected_lam (roots : List Nat) (s : State) : (scrubCorrected roots s).lam = s.lam := rfl
@[simp] theorem scrubCorrected_deg (roots : List Nat) (s : State) : (scrubCorrected roots s).deg = s.deg := rfl
@[simp] theorem scrubCorrected_ell (roots : List Nat) (s : State) : (scrubCorrected roots s).ell = s.ell := rfl
@[simp] theorem scrubCorrected_root (roots : List Nat) (s : State) : (scrubCorrected roots s).root = s.root := rfl
@[simp] theorem scrubCorrected_loc (roots : List Nat) (s : State) : (scrubCorrected roots s).loc = s.loc := rfl
@[simp] theorem scrubCorrected_nroot (roots : List Nat) (s : State) : (scrubCorrected roots s).nroot = s.nroot := rfl
@[simp] theorem scrubCorrected_omega (roots : List Nat) (s : State) : (scrubCorrected roots s).omega = s.omega := rfl
@[simp] theorem scrubCorrected_gfa (roots : List Nat) (s : State) : (scrubCorrected roots s).gfa = s.gfa := rfl
@[simp] theorem scrubCorrected_gfb (roots : List Nat) (s : State) : (scrubCorrected roots s).gfb = s.gfb := rfl
@[simp] theorem scrubCorrected_gfq (roots : List Nat) (s : State) : (scrubCorrected roots s).gfq = s.gfq := rfl
@[simp] theorem scrubCorrected_cmd (roots : List Nat) (s : State) : (scrubCorrected roots s).cmd = s.cmd := rfl
@[simp] theorem scrubCorrected_status (roots : List Nat) (s : State) : (scrubCorrected roots s).status = s.status := rfl
@[simp] theorem scrubCorrected_result (roots : List Nat) (s : State) : (scrubCorrected roots s).result = s.result := rfl
@[simp] theorem scrubCorrected_cmdWritten (roots : List Nat) (s : State) : (scrubCorrected roots s).cmdWritten = s.cmdWritten := rfl
@[simp] theorem scrubCorrected_draws (roots : List Nat) (s : State) : (scrubCorrected roots s).draws = s.draws + 1 := rfl

end Sys2Proof.Laws
end

