-- ==== Sys2Proof/Laws/Ops.lean ====
section
/-! SUPPORT. What each shared operation can do, once: the checks of containers, the assembly of operands, and what a
failed FORNEY leaves of the codeword buffer. -/

namespace Sys2Proof.Laws

open Sys2Proof.Machine

/-- R94: the second `do_init` writes nothing. -/
@[simp] theorem doInit_doInit (p q : PrimPoly) (s : State) : doInit q (doInit p s) = doInit p s :=
  doInit_of_done q _ (doInit_initDone p s)

/-- `do_init` depends on nothing that a command's own work writes. -/
theorem doInit_cases (p : PrimPoly) (s : State) :
    (s.initDone = true ∧ doInit p s = s) ∨
    (s.initDone = false ∧
      doInit p s = { s with tables := buildField p, gen := buildGen (buildField p), initDone := true }) := by
  cases h : s.initDone
  · exact .inr ⟨rfl, doInit_of_not_done p s h⟩
  · exact .inl ⟨rfl, doInit_of_done p s h⟩

/-! ## Containers (R67) -/

theorem allValid_iff {n : Nat} (cw : Buffer Container n) :
    allValid cw = true ↔ ∀ i, i < n → (cw.coeff i).toNat < 1024 := by
  rw [allValid, List.all_eq_true]
  constructor
  · intro h i hi
    rw [Buffer.coeff, getD_eq_getElem _ _ _ hi]
    have := h _ (List.getElem_mem (by rw [cw.size]; exact hi))
    simpa [containerValid] using this
  · intro h c hc
    obtain ⟨i, hi, rfl⟩ := List.getElem_of_mem hc
    have hi' : i < n := by rw [← cw.size]; exact hi
    have := h i hi'
    rw [Buffer.coeff, getD_eq_getElem _ _ _ hi'] at this
    simpa [containerValid] using this

theorem allValid_eq_false_iff {n : Nat} (cw : Buffer Container n) :
    allValid cw = false ↔ ∃ i, i < n ∧ 1024 ≤ (cw.coeff i).toNat := by
  rw [← Bool.not_eq_true, allValid_iff]
  push Not
  rfl

@[simp] theorem containerToSymbol_symbolToContainer (s : Symbol) :
    containerToSymbol (symbolToContainer s) = s := by
  apply BitVec.eq_of_toNat_eq
  have := s.isLt
  simp only [containerToSymbol, symbolToContainer, BitVec.toNat_setWidth]
  omega

theorem symbolToContainer_containerToSymbol (c : Container) (h : c.toNat < 1024) :
    symbolToContainer (containerToSymbol c) = c := by
  apply BitVec.eq_of_toNat_eq
  simp only [containerToSymbol, symbolToContainer, BitVec.toNat_setWidth]
  omega

/-- R67: "When a command writes a `CW` element it writes a valid symbol". -/
theorem symbolToContainer_lt (s : Symbol) : (symbolToContainer s).toNat < 1024 := by
  have := s.isLt
  simp only [symbolToContainer, BitVec.toNat_setWidth]
  omega

/-- R43: a data byte survives the way to a symbol and back. -/
@[simp] theorem symbolToByte_byteToSymbol (b : Byte) : symbolToByte (byteToSymbol b) = b := by
  apply BitVec.eq_of_toNat_eq
  have := b.isLt
  simp only [symbolToByte, byteToSymbol, BitVec.toNat_setWidth]
  omega

/-- R44: the position of a root exponent is inside the codeword buffer, whatever the exponent. -/
theorem rootToPosition_lt (rho : Nat) : rootToPosition rho < 1023 := Nat.mod_lt _ (by decide)

theorem coeff_dataPart (cw : Buffer Container 1023) (i : Nat) (h : i < 1015) : (dataPart cw).coeff i = cw.coeff i :=
  coeff_take cw 1015 i (by decide) h

theorem mem_listedRoots_le (root : Buffer (BitVec 10) 8) (k : Nat) : ∀ r ∈ listedRoots root k, r ≤ 1023 := by
  intro r hr
  obtain ⟨v, _, rfl⟩ := List.mem_map.mp hr
  have := v.isLt
  omega

theorem length_listedRoots (root : Buffer (BitVec 10) 8) (k : Nat) (h : k ≤ 8) : (listedRoots root k).length = k := by
  simp [listedRoots, root.size, h]

/-! ## What a failed FORNEY leaves (R162, U2) -/

theorem scrubPositions_other (d k : Nat) (roots : List Nat) (cw : Buffer Container 1023) (i : Nat)
    (h : ∀ r ∈ roots, rootToPosition r ≠ i) : (scrubPositions d k roots cw).coeff i = cw.coeff i := by
  induction roots generalizing k cw with
  | nil => rfl
  | cons r rest ih =>
    rw [scrubPositions, ih _ _ (fun r' hr' => h r' (by simp [hr'])),
      coeff_set _ _ _ _ (rootToPosition_lt r), if_neg (Ne.symm (h r (by simp)))]

theorem scrubPositions_valid (d k : Nat) (roots : List Nat) (cw : Buffer Container 1023)
    (h : allValid cw = true) : allValid (scrubPositions d k roots cw) = true := by
  induction roots generalizing k cw with
  | nil => exact h
  | cons r rest ih =>
    refine ih _ _ ((allValid_iff _).mpr fun i hi => ?_)
    rw [coeff_set _ _ _ _ (rootToPosition_lt r)]
    split
    · exact symbolToContainer_lt _
    · exact (allValid_iff _).mp h i hi

end Sys2Proof.Laws
end

