-- ==== Sys2Proof/Laws/Step.lean ====
section
/-! SUPPORT. What a command and a step can do, once. Every command answers a next state, the one of `execWith`; every later
fact about `exec` or `step` is a fact about that state. -/

namespace Sys2Proof.Laws

open Sys2Proof.Machine

/-- R8: the block is the one built with the default `PRIM_POLY`. -/
theorem exec_eq_execWith (i : Instr) (s : State) : exec i s = .next (execWith primPoly i s) := by
  cases i <;> rfl

theorem exec_next_iff (i : Instr) (s t : State) : exec i s = .next t ↔ t = execWith primPoly i s := by
  rw [exec_eq_execWith]
  constructor
  · intro h; injection h with h; exact h.symm
  · intro h; rw [h]

theorem step_eq_stepWith (s : State) : step s = .next (stepWith primPoly s) := by
  by_cases hw : s.cmdWritten = true
  · rw [step, stepWith, if_pos hw, if_pos hw]
    cases decode s.cmd with
    | ok i => exact exec_eq_execWith i _
    | error e => rfl
  · rw [step, stepWith, if_neg hw, if_neg hw]

/-- The whole of what a step can do: stay idle, run the decoded command, or end with BadCommand. -/
theorem step_cases {s t : State} (h : step s = .next t) :
    (s.cmdWritten = false ∧ t = s) ∨
    (∃ i, s.cmdWritten = true ∧ decode s.cmd = .ok i ∧ t = execWith primPoly i (takeCommand s)) ∨
    (∃ e, s.cmdWritten = true ∧ decode s.cmd = .error e ∧ t = badCommand (takeCommand s)) := by
  rw [step_eq_stepWith] at h
  injection h with h
  unfold stepWith at h
  split at h
  · split at h
    · exact .inr (.inl ⟨_, ‹_›, ‹_›, h.symm⟩)
    · exact .inr (.inr ⟨_, ‹_›, ‹_›, h.symm⟩)
  · exact .inl ⟨eq_false_of_ne_true ‹_›, h.symm⟩

end Sys2Proof.Laws
end

