-- ==== Sys2Proof/Laws/Units.lean ====
section
/-! SUPPORT. What each command's unit can do after `do_init`, once: the ways it can end, with the condition and the whole
next state of each. -/

namespace Sys2Proof.Laws

open Sys2Proof.Machine

/-! ## GFINV, ENCODE, SYND -/

theorem gfinvUnit_cases (s : State) :
    (s.gfa = 0 ∧ gfinvUnit s = raise .zeroInverse s) ∨
    (∃ h : s.gfa ≠ 0, gfinvUnit s = complete 0 { s with gfq := gfInv s.tables s.gfa h }) := by
  unfold gfinvUnit
  split
  · exact .inl ⟨‹_›, rfl⟩
  · exact .inr ⟨‹_›, rfl⟩

theorem encodeUnit_cases (s : State) :
    (allValid (dataPart s.cw) = false ∧ encodeUnit s = raise .invalidSymbol s) ∨
    (allValid (dataPart s.cw) = true ∧
      encodeUnit s =
        complete 0 { s with par := lfsrRun s.tables s.gen ((dataPart s.cw).cells.map containerToSymbol) }) := by
  cases h : allValid (dataPart s.cw)
  · exact .inl ⟨rfl, by simp [encodeUnit, rsEncode, h]⟩
  · exact .inr ⟨rfl, by simp [encodeUnit, rsEncode, h]⟩

theorem syndUnit_cases (s : State) :
    (allValid s.cw = false ∧ syndUnit s = raise .invalidSymbol s) ∨
    (allValid s.cw = true ∧
      syndUnit s =
        complete 0
          { s with syn := syndromes s.tables s.cw, allzero := syndromesAllZero (syndromes s.tables s.cw) }) := by
  cases h : allValid s.cw
  · exact .inl ⟨rfl, by simp [syndUnit, rsSyndromes, h]⟩
  · exact .inr ⟨rfl, by simp [syndUnit, rsSyndromes, h]⟩

/-! ## CHIEN -/

/-- The state after the search with its result registers written, before the status. -/
theorem chienUnit_eq (s : State) :
    chienUnit s =
      { s with
        root := (chienSearch s.tables s.lam).root, loc := (chienSearch s.tables s.lam).loc
        nroot := BitVec.ofNat 10 (chienSearch s.tables s.lam).count
        status := if (chienSearch s.tables s.lam).count = degree s.lam then .ok else .uncorrectable
        result := 0 } := by
  have hok : (chienSearch s.tables s.lam).ok = ((chienSearch s.tables s.lam).count == degree s.lam) := rfl
  simp only [chienUnit]
  by_cases h : (chienSearch s.tables s.lam).count = degree s.lam
  · rw [if_pos (by simp [hok, h]), if_pos h]; rfl
  · rw [if_neg (by simp [hok, h]), if_neg h]; rfl

/-- R150: the search tries 1023 points. -/
theorem chienSearch_count_le (F : FieldTables) (lam : Buffer Symbol 9) : (chienSearch F lam).count ≤ 1023 := by
  refine (List.length_filter_le _ _).trans ?_
  simp

theorem chienSearch_count_toNat (F : FieldTables) (lam : Buffer Symbol 9) :
    (BitVec.ofNat 10 (chienSearch F lam).count).toNat = (chienSearch F lam).count := by
  have := chienSearch_count_le F lam
  rw [BitVec.toNat_ofNat]
  omega

/-! ## FORNEY -/

/-- The corrector meets a zero derivative exactly when one of the roots has one. -/
theorem applyMagnitudes_error_iff (F : FieldTables) (omega : Buffer Symbol 8) (lam : Buffer Symbol 9) (roots : List Nat)
    (C : Buffer Container 1023) :
    applyMagnitudes F omega lam roots C = .error .uncorrectable ↔ ∃ r ∈ roots, derivativeAt F lam r = 0 := by
  induction roots generalizing C with
  | nil => simp [applyMagnitudes]
  | cons r rest ih =>
    unfold applyMagnitudes
    split
    · simp_all
    · have hr : ¬ derivativeAt F lam r = 0 := ‹_›
      split <;> rw [ih] <;> simp <;> exact fun h => absurd h hr

theorem applyMagnitudes_error (F : FieldTables) (omega : Buffer Symbol 8) (lam : Buffer Symbol 9) (roots : List Nat)
    (C : Buffer Container 1023) (e : ErrorKind) (h : applyMagnitudes F omega lam roots C = .error e) :
    e = .uncorrectable := by
  induction roots generalizing C with
  | nil => simp [applyMagnitudes] at h
  | cons r rest ih =>
    unfold applyMagnitudes at h
    split at h
    · exact (Except.error.inj h).symm
    · split at h
      · exact ih _ h
      · exact ih _ h

/-- What the corrector leaves: only listed positions change, and valid symbols stay valid. -/
theorem applyMagnitudes_ok (F : FieldTables) (omega : Buffer Symbol 8) (lam : Buffer Symbol 9) (roots : List Nat)
    (C C' : Buffer Container 1023) (h : applyMagnitudes F omega lam roots C = .ok C') :
    (∀ i, (∀ r ∈ roots, rootToPosition r ≠ i) → C'.coeff i = C.coeff i) ∧
    (allValid C = true → allValid C' = true) := by
  induction roots generalizing C with
  | nil =>
    obtain rfl : C = C' := by simpa [applyMagnitudes] using h
    exact ⟨fun _ _ => rfl, id⟩
  | cons r rest ih =>
    unfold applyMagnitudes at h
    split at h
    · simp at h
    · split at h
      · exact ⟨fun i hi => (ih _ h).1 i (fun r' hr' => hi r' (by simp [hr'])), (ih _ h).2⟩
      · refine ⟨fun i hi => ?_, fun hv => (ih _ h).2 ((allValid_iff _).mpr fun i hi => ?_)⟩
        · rw [(ih _ h).1 i (fun r' hr' => hi r' (by simp [hr'])), coeff_set _ _ _ _ (rootToPosition_lt r),
            if_neg (Ne.symm (hi r (by simp)))]
        · rw [coeff_set _ _ _ _ (rootToPosition_lt r)]
          split
          · exact symbolToContainer_lt _
          · exact (allValid_iff _).mp hv i hi

/-- The four ways FORNEY can end (R162). -/
theorem forneyUnit_cases (s : State) :
    (allValid s.cw = false ∧ forneyUnit s = raise .invalidSymbol s) ∨
    (allValid s.cw = true ∧ 8 < s.nroot.toNat ∧ forneyUnit s = raise .uncorrectable s) ∨
    (allValid s.cw = true ∧ s.nroot.toNat ≤ 8 ∧
      (∃ r ∈ listedRoots s.root s.nroot.toNat, derivativeAt s.tables s.lam r = 0) ∧
      forneyUnit s =
        raise .uncorrectable
          (scrubCorrected (listedRoots s.root s.nroot.toNat) { s with omega := omegaPoly s.tables s.syn s.lam })) ∨
    (allValid s.cw = true ∧ s.nroot.toNat ≤ 8 ∧
      (∀ r ∈ listedRoots s.root s.nroot.toNat, derivativeAt s.tables s.lam r ≠ 0) ∧
      ∃ C,
        applyMagnitudes s.tables (omegaPoly s.tables s.syn s.lam) s.lam (listedRoots s.root s.nroot.toNat) s.cw =
          .ok C ∧
        forneyUnit s =
          complete s.nroot.toNat { s with omega := omegaPoly s.tables s.syn s.lam, cw := C }) := by
  cases hv : allValid s.cw
  · exact .inl ⟨rfl, by simp [forneyUnit, hv]⟩
  refine .inr ?_
  by_cases hn : 8 < s.nroot.toNat
  · exact .inl ⟨rfl, hn, by simp [forneyUnit, hv, hn]⟩
  refine .inr ?_
  have hn' : s.nroot.toNat ≤ 8 := by omega
  cases ha : applyMagnitudes s.tables (omegaPoly s.tables s.syn s.lam) s.lam (listedRoots s.root s.nroot.toNat) s.cw with
  | error e =>
    obtain rfl := applyMagnitudes_error _ _ _ _ _ _ ha
    exact .inl ⟨rfl, hn', (applyMagnitudes_error_iff _ _ _ _ _).mp ha, by simp [forneyUnit, hv, hn, forney, ha]⟩
  | ok C =>
    refine .inr ⟨rfl, hn', fun r hr h0 => ?_, C, rfl, ?_⟩
    · rw [(applyMagnitudes_error_iff _ _ _ _ _).mpr ⟨r, hr, h0⟩] at ha
      cases ha
    · simp [forneyUnit, hv, hn, forney, ha, length_listedRoots _ _ hn']

/-! ## DECODE -/

/-- The four ways DECODE can go (R164). -/
theorem decodeUnit_cases (s : State) :
    (allValid s.cw = false ∧ decodeUnit s = raise .invalidSymbol s) ∨
    (allValid s.cw = true ∧ syndromesAllZero (syndromes s.tables s.cw) = true ∧ decodeUnit s = syndUnit s) ∨
    (allValid s.cw = true ∧ syndromesAllZero (syndromes s.tables s.cw) = false ∧
      (chienUnit (bmsolveUnit (syndUnit s))).status = .uncorrectable ∧
      decodeUnit s = chienUnit (bmsolveUnit (syndUnit s))) ∨
    (allValid s.cw = true ∧ syndromesAllZero (syndromes s.tables s.cw) = false ∧
      (chienUnit (bmsolveUnit (syndUnit s))).status = .ok ∧
      decodeUnit s = forneyUnit (chienUnit (bmsolveUnit (syndUnit s)))) := by
  rcases syndUnit_cases s with ⟨hv, h⟩ | ⟨hv, h⟩
  · exact .inl ⟨hv, by simp [decodeUnit, h, ErrorKind.status]⟩
  refine .inr ?_
  have hst : (syndUnit s).status = .ok := by rw [h]; rfl
  have haz : (syndUnit s).allzero = syndromesAllZero (syndromes s.tables s.cw) := by rw [h]; rfl
  cases hz : syndromesAllZero (syndromes s.tables s.cw)
  · refine .inr ?_
    rw [hz] at haz
    have hc : (chienUnit (bmsolveUnit (syndUnit s))).status = .ok ∨
        (chienUnit (bmsolveUnit (syndUnit s))).status = .uncorrectable := by
      rw [chienUnit_eq]
      dsimp only
      split <;> simp
    rcases hc with hc | hc
    · exact .inr ⟨hv, rfl, hc, by simp [decodeUnit, hst, haz, hc]⟩
    · exact .inl ⟨hv, rfl, hc, by simp [decodeUnit, hst, haz, hc]⟩
  · exact .inl ⟨hv, rfl, by rw [hz] at haz; simp [decodeUnit, hst, haz]⟩

/-! ## COMPUTE and CORRECT -/

/-- R184: every container of the zero-padded block is a valid symbol. -/
theorem allValid_buildCw (D : Buffer Byte 512) (P : Buffer Symbol 8) : allValid (buildCw D P) = true := by
  rw [allValid, List.all_eq_true]
  intro c hc
  have hcases : (∃ b : Byte, symbolToContainer (byteToSymbol b) = c) ∨ c = 0 ∨ ∃ v : Symbol, symbolToContainer v = c := by
    simp only [buildCw, List.mem_append, List.mem_map, List.mem_replicate] at hc
    obtain (⟨b, _, hb⟩ | ⟨_, h0⟩) | ⟨v, _, hv⟩ := hc
    · exact .inl ⟨b, hb⟩
    · exact .inr (.inl h0)
    · exact .inr (.inr ⟨v, hv⟩)
  simp only [containerValid, decide_eq_true_eq]
  obtain ⟨b, rfl⟩ | rfl | ⟨v, rfl⟩ := hcases
  · exact symbolToContainer_lt _
  · decide
  · exact symbolToContainer_lt _

theorem allValid_dataPart (cw : Buffer Container 1023) (h : allValid cw = true) : allValid (dataPart cw) = true := by
  rw [allValid_iff] at h ⊢
  intro i hi
  rw [coeff_dataPart cw i hi]
  exact h i (by omega)

/-- R185: InvalidSymbol cannot arise, so COMPUTE always ends with Ok. -/
theorem computeUnit_eq (s : State) :
    computeUnit s =
      complete 0
        (scrubUnitRegisters
          { s with
            eccO := pack
              (lfsrRun s.tables s.gen ((dataPart (buildCw s.data (filled 8 0))).cells.map containerToSymbol)) }) := by
  simp [computeUnit, rsEncode, allValid_dataPart _ (allValid_buildCw _ _)]

/-- The two ways CORRECT can end (R187). -/
theorem correctUnit_cases (s : State) :
    (∃ e, correctBlock s.tables s.data s.eccS s.eccR = .error e ∧
      correctUnit s = raise e (scrubData (scrubUnitRegisters s))) ∨
    (∃ D count, correctBlock s.tables s.data s.eccS s.eccR = .ok (D, count) ∧
      correctUnit s = complete count (scrubUnitRegisters { s with data := D })) := by
  cases h : correctBlock s.tables s.data s.eccS s.eccR with
  | error e => exact .inl ⟨e, rfl, by simp [correctUnit, h]⟩
  | ok r => exact .inr ⟨r.1, r.2, rfl, by simp [correctUnit, h]⟩

/-! ## The command register -/

theorem decodeUnit_cmd (s : State) : (decodeUnit s).cmd = s.cmd ∧ (decodeUnit s).cmdWritten = s.cmdWritten := by
  have hs : (syndUnit s).cmd = s.cmd ∧ (syndUnit s).cmdWritten = s.cmdWritten := by
    rcases syndUnit_cases s with ⟨_, h⟩ | ⟨_, h⟩ <;> rw [h] <;> exact ⟨rfl, rfl⟩
  have hc : ∀ u : State, (chienUnit u).cmd = u.cmd ∧ (chienUnit u).cmdWritten = u.cmdWritten := fun u => by
    rw [chienUnit_eq]; exact ⟨rfl, rfl⟩
  have hf : ∀ u : State, (forneyUnit u).cmd = u.cmd ∧ (forneyUnit u).cmdWritten = u.cmdWritten := fun u => by
    rcases forneyUnit_cases u with ⟨_, h⟩ | ⟨_, _, h⟩ | ⟨_, _, _, h⟩ | ⟨_, _, _, _, _, h⟩ <;> rw [h] <;> exact ⟨rfl, rfl⟩
  have hbc : (chienUnit (bmsolveUnit (syndUnit s))).cmd = s.cmd ∧
      (chienUnit (bmsolveUnit (syndUnit s))).cmdWritten = s.cmdWritten :=
    ⟨(hc _).1.trans hs.1, (hc _).2.trans hs.2⟩
  rcases decodeUnit_cases s with ⟨_, h⟩ | ⟨_, _, h⟩ | ⟨_, _, _, h⟩ | ⟨_, _, _, h⟩ <;> rw [h]
  · exact ⟨rfl, rfl⟩
  · exact hs
  · exact hbc
  · exact ⟨(hf _).1.trans hbc.1, (hf _).2.trans hbc.2⟩

/-- R27: only the host writes `CMD`: no command does. -/
theorem execWith_cmd (p : PrimPoly) (i : Instr) (s : State) :
    (execWith p i s).cmd = s.cmd ∧ (execWith p i s).cmdWritten = s.cmdWritten := by
  have hd : (doInit p s).cmd = s.cmd ∧ (doInit p s).cmdWritten = s.cmdWritten := ⟨by simp, by simp⟩
  have lift : ∀ u : State, u.cmd = (doInit p s).cmd ∧ u.cmdWritten = (doInit p s).cmdWritten →
      u.cmd = s.cmd ∧ u.cmdWritten = s.cmdWritten := fun u hu => ⟨hu.1.trans hd.1, hu.2.trans hd.2⟩
  cases i with
  | init => exact lift _ ⟨rfl, rfl⟩
  | gfmul => exact lift _ ⟨rfl, rfl⟩
  | gfinv =>
    refine lift (gfinvUnit (doInit p s)) ?_
    rcases gfinvUnit_cases (doInit p s) with ⟨_, h⟩ | ⟨_, h⟩ <;> rw [h] <;> exact ⟨rfl, rfl⟩
  | encode =>
    refine lift (encodeUnit (doInit p s)) ?_
    rcases encodeUnit_cases (doInit p s) with ⟨_, h⟩ | ⟨_, h⟩ <;> rw [h] <;> exact ⟨rfl, rfl⟩
  | synd =>
    refine lift (syndUnit (doInit p s)) ?_
    rcases syndUnit_cases (doInit p s) with ⟨_, h⟩ | ⟨_, h⟩ <;> rw [h] <;> exact ⟨rfl, rfl⟩
  | bmsolve => exact lift _ ⟨rfl, rfl⟩
  | chien =>
    refine lift (chienUnit (doInit p s)) ?_
    rw [chienUnit_eq]; exact ⟨rfl, rfl⟩
  | forney =>
    refine lift (forneyUnit (doInit p s)) ?_
    rcases forneyUnit_cases (doInit p s) with ⟨_, h⟩ | ⟨_, _, h⟩ | ⟨_, _, _, h⟩ | ⟨_, _, _, _, _, h⟩ <;> rw [h] <;>
      exact ⟨rfl, rfl⟩
  | decode => exact lift _ (decodeUnit_cmd _)
  | pack => exact ⟨rfl, rfl⟩
  | unpack => exact ⟨rfl, rfl⟩
  | compute =>
    refine lift (computeUnit (doInit p s)) ?_
    rw [computeUnit_eq]; exact ⟨rfl, rfl⟩
  | correct =>
    refine lift (correctUnit (doInit p s)) ?_
    rcases correctUnit_cases (doInit p s) with ⟨_, _, h⟩ | ⟨_, _, _, h⟩ <;> rw [h] <;> exact ⟨rfl, rfl⟩

/-- R47: a step leaves `CMD` as it was and the block idle, so the host has its moves again. -/
theorem step_leaves_idle {s t : State} (h : step s = .next t) : t.cmd = s.cmd ∧ t.cmdWritten = false := by
  rcases step_cases h with ⟨hw, rfl⟩ | ⟨i, _, _, rfl⟩ | ⟨_, _, _, rfl⟩
  · exact ⟨rfl, hw⟩
  · exact execWith_cmd primPoly i (takeCommand s)
  · exact ⟨rfl, rfl⟩

/-- R7: the fixed parameters, as the shapes of the buffers and the numerals of the commands use them. -/
theorem parameters_agree :
    Config.q = 2 ^ Config.m ∧ Config.n = Config.q - 1 ∧ Config.k = Config.n - 2 * Config.t ∧
    Config.padLen = Config.k - Config.dataLen ∧ 8 * Config.eccLen = Config.m * (2 * Config.t) ∧ Config.fcr = 1 ∧
    (Symbol = BitVec Config.m) ∧ (Container = BitVec Config.wIn) ∧
    State.reset.cw.cells.length = Config.n ∧ State.reset.data.cells.length = Config.dataLen ∧
    State.reset.par.cells.length = 2 * Config.t ∧ State.reset.eccO.cells.length = Config.eccLen ∧
    (∀ D P, (buildCw D P).cells.length = Config.dataLen + Config.padLen + 2 * Config.t) :=
  ⟨rfl, rfl, rfl, rfl, rfl, rfl, rfl, rfl, Buffer.size _, Buffer.size _, Buffer.size _, Buffer.size _, fun _ _ =>
    Buffer.size _⟩

/-! ## The functions of the units, read through the field -/

theorem containerToSymbol_xor (a b : Container) :
    containerToSymbol (a ^^^ b) = containerToSymbol a ^^^ containerToSymbol b := by
  simp [containerToSymbol, BitVec.setWidth_xor]

/-- R112: `gf_exp(GEN[j])` is g_j. -/
theorem generatorCoeff_buildGen (p : PrimPoly) (j : Nat) (h : j < 9) :
    generatorCoeff (buildField p) (buildGen (buildField p)) j = (generatorCoeffs (buildField p)).getD j 0 := by
  rw [generatorCoeff, buildGen, getD_tabulate _ _ _ h, gfExp_gfLog]

/-- R130: the term of the sum is c·α^k. -/
theorem timesAlphaPow_eq (p : PrimPoly) (c : Symbol) (k : Nat) :
    timesAlphaPow (buildField p) c k = gfMul (buildField p) c (alphaPow (buildField p) k) := by
  by_cases h : c = 0
  · subst h
    rw [timesAlphaPow, gfLog_zero]
    exact (gfMul_zero_left _ _).symm
  · obtain ⟨e, he, rfl⟩ := exists_alphaPow p c h
    rw [timesAlphaPow, gfLog_alphaPow_lt _ _ he, gfMul_alphaPow]
    show (buildField p).exp.coeff ((e + k) % 1023) = _
    rw [exp_coeff _ _ (Nat.mod_lt _ (by decide)), alphaPow_mod]

/-- R22: the all-zero flag. -/
theorem syndromesAllZero_iff (S : Buffer Symbol 8) : syndromesAllZero S = true ↔ ∀ i, i < 8 → S.coeff i = 0 := by
  rw [syndromesAllZero, List.all_eq_true]
  constructor
  · intro h i hi
    have := h _ (List.getElem_mem (l := S.cells) (n := i) (by rw [S.size]; exact hi))
    rw [Buffer.coeff, getD_eq_getElem _ _ _ hi]
    simpa using this
  · intro h c hc
    obtain ⟨i, hi, rfl⟩ := List.getElem_of_mem hc
    have hi' : i < 8 := by rw [← S.size]; exact hi
    have := h i hi'
    rw [Buffer.coeff, getD_eq_getElem _ _ _ hi'] at this
    simpa using this

end Sys2Proof.Laws
end

