-- ==== Sys2Proof/Laws/Host.lean ====
section
/-! SUPPORT. What each action of the host can do, once: it is an action exactly when no command runs, and what it leaves. -/

namespace Sys2Proof.Laws

open Sys2Proof.Machine

/-! ## Reads, writes and resets -/

theorem hostRead_of_idle {s : State} (h : s.cmdWritten = false) (r : HostReg) : hostRead s r = some (readElement s r) := by
  simp [hostRead, h]

theorem hostWrite_of_idle {s : State} (h : s.cmdWritten = false) (r : HostReg) (v : BitVec r.width) :
    hostWrite s r v = writeElement s r v := by
  simp [hostWrite, h]

/-- Only a write of `CMD` starts a command. -/
theorem writeElement_idle {s t : State} {r : HostReg} {v : BitVec r.width} (hr : r ≠ .cmd)
    (h : writeElement s r v = some t) : t.cmdWritten = s.cmdWritten := by
  cases r <;> first | exact absurd rfl hr | (cases h; done) | (cases h; rfl)

/-- R47, R233: while a command runs the host has no move, and no reset comes. -/
theorem no_action_while_running {s : State} (h : s.cmdWritten = true) (r : HostReg) (v : BitVec r.width) (i : Instr) :
    hostRead s r = none ∧ hostWrite s r v = none ∧ issue i s = none ∧ resetEvent s = none := by
  have hw : ∀ q (u : BitVec q.width), hostWrite s q u = none := fun q u => by simp [hostWrite, h]
  exact ⟨by simp [hostRead, h], hw r v, by rw [issue, hw], by simp [resetEvent, h]⟩

theorem resetEvent_eq_some {s r : State} (h : resetEvent s = some r) : s.cmdWritten = false ∧ r = resetState s := by
  unfold resetEvent at h
  split at h
  · cases h
  · exact ⟨by simpa using ‹¬ s.cmdWritten = true›, (Option.some.inj h).symm⟩

/-! ## Commands -/

/-- R65: `withFetchWord` is the host's write of `CMD` on a block that runs no command. -/
theorem hostWrite_cmd_eq_withFetchWord {s : State} (h : s.cmdWritten = false) (nbits w : Nat) :
    hostWrite s .cmd (BitVec.ofNat 8 w) = some (s.withFetchWord nbits w) := by
  rw [hostWrite_of_idle h]
  rfl

/-- R65: an idle block that is given the command `i` runs it. -/
theorem issue_of_idle {s : State} (h : s.cmdWritten = false) (i : Instr) :
    issue i s = some (exec i { s with cmd := encode i }) := by
  have hs : takeCommand { s with cmd := encode i, cmdWritten := true } = { s with cmd := encode i } := by
    cases s
    cases h
    rfl
  have hd : decode (encode i) = .ok i := by cases i <;> rfl
  rw [issue, hostWrite_of_idle h]
  simp only [writeElement, step, if_true, hd, hs]

/-- R72: `compute_ecc` on an idle block. -/
theorem computeEcc_eq {s t : State} (data : Buffer Byte 512) (h : s.cmdWritten = false)
    (ht : exec .compute { s with data := data, cmd := encode .compute } = .next t) :
    computeEcc data s = some (t.eccO, t) := by
  rw [computeEcc, issue_of_idle (s := { s with data := data }) h, ht]

/-- R72: `correct` on an idle block. -/
theorem correctData_eq {s t : State} (data : Buffer Byte 512) (stored recomp : Buffer Byte 10) (h : s.cmdWritten = false)
    (ht : exec .correct { s with data := data, eccS := stored, eccR := recomp, cmd := encode .correct } = .next t) :
    correctData data stored recomp s = some (if t.status = .ok then .okCount t.result t.data else .err t.status, t) := by
  rw [correctData, issue_of_idle (s := { s with data := data, eccS := stored, eccR := recomp }) h, ht]

/-! ## Writing a whole buffer element by element -/

/-- A field `get` of the state, replaced by `put`, whose elements the host writes one after another. -/
theorem foldlM_write {w n : Nat} (c : Buffer (BitVec w) n) (write : State → Fin n → Option State)
    (get : State → Buffer (BitVec w) n) (put : Buffer (BitVec w) n → State → State)
    (hwrite : ∀ u i, u.cmdWritten = false → write u i = some (put ((get u).set i (c.coeff i)) u))
    (hidle : ∀ b u, (put b u).cmdWritten = u.cmdWritten) (hget : ∀ b u, get (put b u) = b)
    (hput : ∀ b b' u, put b (put b' u) = put b u) (hself : ∀ u, put (get u) u = u) (s : State)
    (h : s.cmdWritten = false) : (List.finRange n).foldlM write s = some (put c s) := by
  have key : ∀ (l : List (Fin n)) (u : State), u.cmdWritten = false →
      l.foldlM write u = some (put (l.foldl (fun b (i : Fin n) => b.set i (c.coeff i)) (get u)) u) := by
    intro l
    induction l with
    | nil => intro u _; exact congrArg some (hself u).symm
    | cons i l ih =>
      intro u hu
      rw [List.foldlM_cons, hwrite u i hu]
      show l.foldlM write _ = _
      rw [ih _ ((hidle _ _).trans hu), hget, hput, List.foldl_cons]
  rw [key _ _ h, foldl_set_finRange]

theorem hostWrites_data {s : State} (h : s.cmdWritten = false) (data : Buffer Byte 512) :
    (List.finRange 512).foldlM (fun u (i : Fin 512) => hostWrite u (.data i) (data.coeff i)) s =
      some { s with data := data } :=
  foldlM_write data _ State.data (fun b u => { u with data := b }) (fun _ _ hu => hostWrite_of_idle hu _ _)
    (fun _ _ => rfl) (fun _ _ => rfl) (fun _ _ _ => rfl) (fun _ => rfl) s h

theorem hostWrites_eccS {s : State} (h : s.cmdWritten = false) (e : Buffer Byte 10) :
    (List.finRange 10).foldlM (fun u (i : Fin 10) => hostWrite u (.eccS i) (e.coeff i)) s = some { s with eccS := e } :=
  foldlM_write e _ State.eccS (fun b u => { u with eccS := b }) (fun _ _ hu => hostWrite_of_idle hu _ _)
    (fun _ _ => rfl) (fun _ _ => rfl) (fun _ _ _ => rfl) (fun _ => rfl) s h

theorem hostWrites_eccR {s : State} (h : s.cmdWritten = false) (e : Buffer Byte 10) :
    (List.finRange 10).foldlM (fun u (i : Fin 10) => hostWrite u (.eccR i) (e.coeff i)) s = some { s with eccR := e } :=
  foldlM_write e _ State.eccR (fun b u => { u with eccR := b }) (fun _ _ hu => hostWrite_of_idle hu _ _)
    (fun _ _ => rfl) (fun _ _ => rfl) (fun _ _ _ => rfl) (fun _ => rfl) s h

end Sys2Proof.Laws
end

