-- ==== Sys2Proof/Laws/PerInstr.lean ====
section
/-! SUPPORT. Facts about each command as syntax, one lemma per constructor. -/

namespace Sys2Proof.Laws.CommandWordWf

/-- R64, R65, R69 (a): the command is well-formed, its word has the pattern `0000oooo` with an assigned code, and the word
decodes to the command. -/
def Statement (i : Instr) : Prop :=
  i.wf = true ∧ (fieldsOf (encode i)).wf = true ∧ encode i = (codeOf i).setWidth 8 ∧ decode (encode i) = .ok i

theorem init : Statement .init := ⟨rfl, by decide, by decide, by decide⟩
theorem gfmul : Statement .gfmul := ⟨rfl, by decide, by decide, by decide⟩
theorem gfinv : Statement .gfinv := ⟨rfl, by decide, by decide, by decide⟩
theorem encode : Statement .encode := ⟨rfl, by decide, by decide, by decide⟩
theorem synd : Statement .synd := ⟨rfl, by decide, by decide, by decide⟩
theorem bmsolve : Statement .bmsolve := ⟨rfl, by decide, by decide, by decide⟩
theorem chien : Statement .chien := ⟨rfl, by decide, by decide, by decide⟩
theorem forney : Statement .forney := ⟨rfl, by decide, by decide, by decide⟩
theorem decode : Statement .decode := ⟨rfl, by decide, by decide, by decide⟩
theorem pack : Statement .pack := ⟨rfl, by decide, by decide, by decide⟩
theorem unpack : Statement .unpack := ⟨rfl, by decide, by decide, by decide⟩
theorem compute : Statement .compute := ⟨rfl, by decide, by decide, by decide⟩
theorem correct : Statement .correct := ⟨rfl, by decide, by decide, by decide⟩

end Sys2Proof.Laws.CommandWordWf
end

