-- ==== Sys2Proof/Tests/Slice0.lean ====
section
/-! SUPPORT. The model's own tests: the decoder on words written out from spec/30_encoding.md, the construction-time checks
on ill-formed terms, one step of each command on vectors of spec/95_test_vectors.md (the names in the docstrings are the
vectors' own), and for each obligation with hypotheses a state and operands that meet them. -/

namespace Sys2Proof.Tests

open Sys2Proof.Machine Sys2Proof.Safety Sys2Proof.Laws

set_option maxRecDepth 20000

/-! ## Command words (R64, R65): `CMD[7:4]` ++ `CMD[3:0]` -/

theorem test_decode_init : decode (0b0000#4 ++ 0b0001#4) = .ok .init := by decide
theorem test_decode_gfmul : decode (0b0000#4 ++ 0b0010#4) = .ok .gfmul := by decide
theorem test_decode_gfinv : decode (0b0000#4 ++ 0b0011#4) = .ok .gfinv := by decide
theorem test_decode_encode : decode (0b0000#4 ++ 0b0100#4) = .ok .encode := by decide
theorem test_decode_synd : decode (0b0000#4 ++ 0b0101#4) = .ok .synd := by decide
theorem test_decode_bmsolve : decode (0b0000#4 ++ 0b0110#4) = .ok .bmsolve := by decide
theorem test_decode_chien : decode (0b0000#4 ++ 0b0111#4) = .ok .chien := by decide
theorem test_decode_forney : decode (0b0000#4 ++ 0b1000#4) = .ok .forney := by decide
theorem test_decode_decode : decode (0b0000#4 ++ 0b1001#4) = .ok .decode := by decide
theorem test_decode_pack : decode (0b0000#4 ++ 0b1010#4) = .ok .pack := by decide
theorem test_decode_unpack : decode (0b0000#4 ++ 0b1011#4) = .ok .unpack := by decide
theorem test_decode_compute : decode (0b0000#4 ++ 0b1100#4) = .ok .compute := by decide
theorem test_decode_correct : decode (0b0000#4 ++ 0b1101#4) = .ok .correct := by decide

/-- T2 and T3: reserved codes, and a valid code under an upper nibble that is not 0. -/
theorem test_decode_rejects :
    decode (0b0000#4 ++ 0b0000#4) = .error .reservedCode ∧ decode (0b0000#4 ++ 0b1110#4) = .error .reservedCode ∧
    decode (0b0000#4 ++ 0b1111#4) = .error .reservedCode ∧
    decode (0b0001#4 ++ 0b0010#4) = .error .upperNibbleNotZero := by decide

theorem test_decodeTableWord :
    decodeTableWord 8 0x0D = some .correct ∧ decodeTableWord 8 0x0E = none ∧ decodeTableWord 8 0x12 = none ∧
    decodeTableWord 16 0x0D = none := by decide

/-- The very next step runs the word, and from reset it is the first command. -/
theorem test_withFetchWord :
    step (State.reset.withFetchWord 8 0x0A) = exec .pack { State.reset with cmd := 0x0A } := rfl

/-! ## The construction-time checks refuse ill-formed terms -/

theorem test_wf_refuses_upper_nibble : (CommandFields.mk 1 2).wf = false := by decide
theorem test_wf_refuses_code_0 : (CommandFields.mk 0 0).wf = false := by decide
theorem test_wf_refuses_code_14 : (CommandFields.mk 0 14).wf = false := by decide
theorem test_wf_refuses_code_15 : (CommandFields.mk 0 15).wf = false := by decide
theorem test_wf_accepts : (CommandFields.mk 0 1).wf = true ∧ (CommandFields.mk 0 13).wf = true := by decide

/-- R8: bit 10 clear; bit 0 clear. -/
theorem test_isPrimitive_refuses_shape : isPrimitive 0x209 = false ∧ isPrimitive 0x408 = false := by decide +kernel

/-- Reducible (x^10 + 1), and irreducible but not primitive (all eleven coefficients 1: α would have order 11). -/
theorem test_isPrimitive_refuses_order : isPrimitive 0x401 = false ∧ isPrimitive 0x7FF = false := by decide +kernel

/-! ## One step of each command -/

/-- The state after a command. -/
def after (i : Instr) (s : State) : State :=
  match exec i s with
  | .next t => t
  | .fault _ => s
  | .refused _ => s

/-- From a block that is not initialised, in the form the kernel evaluates fast. -/
theorem after_eq (i : Instr) (s : State) (h : s.initDone = false) : after i s = Fast.run i s := by
  rw [after, Fast.exec_eq_run i s (by simp [h])]

/-- A codeword buffer of zeros but for one element. -/
def oneSymbol (pos : Nat) (c : Container) : Buffer Container 1023 := (filled 1023 0).set pos c

/-- The reset state with a codeword buffer. -/
def withCw (cw : Buffer Container 1023) : State := { State.reset with cw := cw }

/-- The word W5: zero data with the stored parity 371 262 2B6 050 32E 2FD 155 243. -/
def wordW5 : Buffer Container 1023 :=
  buildCw (filled 512 0) ⟨[0x371, 0x262, 0x2B6, 0x050, 0x32E, 0x2FD, 0x155, 0x243], rfl⟩

/-- The word W0: zero data with the stored parity 167 3BD 0E4 3FE 1DC 134 02A 0FC. -/
def wordW0 : Buffer Container 1023 :=
  buildCw (filled 512 0) ⟨[0x167, 0x3BD, 0x0E4, 0x3FE, 0x1DC, 0x134, 0x02A, 0x0FC], rfl⟩

/-- The data of the word V5: zero but for `DATA[i]` = i, i = 1, ..., 5. -/
def dataV5 : Buffer Byte 512 := ((((((filled 512 0).set 1 1).set 2 2).set 3 3).set 4 4).set 5 5)

/-- The word V5. -/
def wordV5 : Buffer Container 1023 := buildCw dataV5 (filled 8 0)

/-- Section 2.1 of the vectors: EXP[1022] = 204, LOG[3FF] = 949. -/
theorem test_init_tables :
    (after .init State.reset).tables.exp.coeff 1022 = 0x204 ∧
    gfLog (after .init State.reset).tables 0x3FF = .exp 949 := by
  rw [show (after .init State.reset).tables = buildField primPoly from rfl, Fast.exp_eq _ (by decide),
    Fast.gfLog_eq _ (by decide)]
  decide +kernel

theorem test_init_status : (after .init State.reset).initDone = true ∧ (after .init State.reset).status = .ok := ⟨rfl, rfl⟩

/-- A7. -/
theorem test_gfmul_a7 : (after .gfmul { State.reset with gfa := 0x3FF, gfb := 0x3FF }).gfq = 0x2BA := by
  rw [after_eq _ _ rfl]; decide +kernel

/-- A3 over an old result. -/
theorem test_gfmul_a3 : (after .gfmul { State.reset with gfa := 0x005, gfb := 0, gfq := 0x3FF }).gfq = 0 := by
  rw [after_eq _ _ rfl]; decide +kernel

/-- I7. -/
theorem test_gfinv_i7 : (after .gfinv { State.reset with gfa := 0x155 }).gfq = 0x285 := by
  rw [after_eq _ _ rfl]; decide +kernel

/-- I8: `GFQ` keeps its value. -/
theorem test_gfinv_i8 :
    (after .gfinv { State.reset with gfq := 0x123 }).gfq = 0x123 ∧
    (after .gfinv { State.reset with gfq := 0x123 }).status.code = 4 := by
  rw [after_eq _ _ rfl]; decide +kernel

/-- E5: the most significant data symbol. -/
theorem test_encode_e5 :
    (after .encode (withCw (oneSymbol 1014 1))).par.cells =
      [0x31A, 0x115, 0x174, 0x0F1, 0x3AF, 0x0E3, 0x2D7, 0x3C1] := by
  rw [after_eq _ _ rfl]; decide +kernel

/-- E7: an invalid container; the initialisation precedes the check (T6). -/
theorem test_encode_e7 :
    (after .encode { withCw (oneSymbol 7 0x0400) with par := filled 8 0x155 }).status.code = 1 ∧
    (after .encode { withCw (oneSymbol 7 0x0400) with par := filled 8 0x155 }).par.cells = List.replicate 8 0x155 ∧
    (after .encode { withCw (oneSymbol 7 0x0400) with par := filled 8 0x155 }).initDone = true := by
  rw [after_eq _ _ rfl]; decide +kernel

/-- Y5: the last position. -/
theorem test_synd_y5 :
    (after .synd (withCw (oneSymbol 1022 1))).syn.cells =
      [0x204, 0x102, 0x081, 0x244, 0x122, 0x091, 0x24C, 0x126] := by
  rw [after_eq _ _ rfl]; decide +kernel

/-- Y4: an invalid container at the last position. -/
theorem test_synd_y4 :
    (after .synd (withCw (oneSymbol 1022 0x0400))).status.code = 1 ∧
    (after .synd (withCw (oneSymbol 1022 0x0400))).allzero = false := by
  rw [after_eq _ _ rfl]; decide +kernel

/-- The word V3. -/
theorem test_bmsolve_v3 :
    (after .bmsolve { State.reset with
      syn := ⟨[0x225, 0x3BE, 0x136, 0x30C, 0x292, 0x026, 0x369, 0x35F], rfl⟩ }).lam.cells =
        [0x001, 0x342, 0x083, 0, 0, 0, 0, 0, 0] := by
  rw [after_eq _ _ rfl]; decide +kernel

/-- The word V4, four errors: the degree and the length. -/
theorem test_bmsolve_v4 :
    (after .bmsolve { State.reset with
      syn := ⟨[0x19F, 0x238, 0x06F, 0x14C, 0x100, 0x18F, 0x0FD, 0x340], rfl⟩ }).deg = 4 ∧
    (after .bmsolve { State.reset with
      syn := ⟨[0x19F, 0x238, 0x06F, 0x14C, 0x100, 0x18F, 0x0FD, 0x340], rfl⟩ }).ell = 4 := by
  rw [after_eq _ _ rfl]; decide +kernel

/-- The word V3. -/
theorem test_chien_v3 :
    (after .chien { State.reset with lam := ⟨[0x001, 0x342, 0x083, 0, 0, 0, 0, 0, 0], rfl⟩ }).loc.cells =
      [300, 5, 0, 0, 0, 0, 0, 0] := by
  rw [after_eq _ _ rfl]; decide +kernel

/-- H2: λ = 0. -/
theorem test_chien_h2 :
    (after .chien State.reset).nroot = 1023 ∧ (after .chien State.reset).root.cells = [1, 2, 3, 4, 5, 6, 7, 8] ∧
    (after .chien State.reset).status.code = 2 := by
  rw [after_eq _ _ rfl]; decide +kernel

/-- F3: the root exponent 0 names position 0. -/
theorem test_forney_f3 :
    (after .forney { withCw (oneSymbol 0 1) with
      syn := filled 8 1, lam := ⟨[1, 1, 0, 0, 0, 0, 0, 0, 0], rfl⟩, nroot := 1 }).cw.cells = List.replicate 1023 0 := by
  rw [after_eq _ _ rfl]; decide +kernel

/-- F5: a zero derivative; the other elements are unchanged. -/
theorem test_forney_f5 :
    (after .forney { withCw (oneSymbol 0 1) with
      syn := filled 8 1, lam := ⟨[1, 0, 1, 0, 0, 0, 0, 0, 0], rfl⟩, root := (filled 8 0).set 0 1023
      nroot := 1 }).omega.cells = [1, 1, 0, 0, 0, 0, 0, 0] ∧
    (after .forney { withCw (oneSymbol 0 1) with
      syn := filled 8 1, lam := ⟨[1, 0, 1, 0, 0, 0, 0, 0, 0], rfl⟩, root := (filled 8 0).set 0 1023
      nroot := 1 }).status.code = 2 := by
  rw [after_eq _ _ rfl]; decide +kernel

/-- D-W5: five corrections. -/
theorem test_decode_w5 :
    (after .decode (withCw wordW5)).result = 5 ∧
    (after .decode (withCw wordW5)).loc.cells = [886, 877, 725, 573, 463, 0, 0, 0] := by
  rw [after_eq _ _ rfl]; decide +kernel

/-- D-V5: uncorrectable, with `CW` and `OMEGA` unchanged. -/
theorem test_decode_v5 :
    (after .decode (withCw wordV5)).status.code = 2 ∧ (after .decode (withCw wordV5)).cw.cells = wordV5.cells := by
  rw [after_eq _ _ rfl]; decide +kernel

/-- Q1; T5: PACK does not initialise. -/
theorem test_pack_q1 :
    (after .pack { State.reset with
      par := ⟨[0x344, 0x24B, 0x03A, 0x3A0, 0x297, 0x143, 0x033, 0x1FE], rfl⟩ }).eccO.cells =
        [0x44, 0x2F, 0xA9, 0x03, 0xE8, 0x97, 0x0E, 0x35, 0x83, 0x7F] ∧
    (after .pack State.reset).initDone = false := by decide +kernel

/-- Q13. -/
theorem test_pack_q13 :
    (after .pack { State.reset with
      par := ⟨[0x2AA, 0x155, 0x2AA, 0x155, 0x155, 0x2AA, 0x155, 0x2AA], rfl⟩ }).eccO.cells =
        [0xAA, 0x56, 0xA5, 0x6A, 0x55, 0x55, 0xA9, 0x5A, 0x95, 0xAA] := by decide +kernel

/-- Q12. -/
theorem test_unpack_q12 :
    (after .unpack { State.reset with
      eccS := ⟨[0x01, 0x08, 0x40, 0x00, 0x02, 0x10, 0x80, 0x00, 0x04, 0x20], rfl⟩ }).par.cells =
        [0x001, 0x002, 0x004, 0x008, 0x010, 0x020, 0x040, 0x080] := by decide +kernel

/-- Q11. -/
theorem test_unpack_q11 :
    (after .unpack { State.reset with eccS := ⟨[0, 0, 0, 0, 0, 0, 0, 0, 0, 0x80], rfl⟩ }).par.cells =
      [0, 0, 0, 0, 0, 0, 0, 0x200] := by decide +kernel

/-- K8: the last data byte. -/
theorem test_compute_k8 :
    (after .compute { State.reset with data := (filled 512 0).set 511 1 }).eccO.cells =
      [0x5C, 0x5C, 0xD9, 0x72, 0xC7, 0x93, 0x07, 0xA1, 0xBD, 0x73] := by
  rw [after_eq _ _ rfl]; decide +kernel

/-- C-V2: one error. -/
theorem test_correct_v2 :
    (after .correct { State.reset with
      data := (filled 512 0).set 100 4
      eccR := ⟨[0x50, 0xA4, 0x30, 0xAC, 0x7A, 0xBF, 0x44, 0x21, 0x5F, 0xEA], rfl⟩ }).data.cells =
        List.replicate 512 0 ∧
    (after .correct { State.reset with
      data := (filled 512 0).set 100 4
      eccR := ⟨[0x50, 0xA4, 0x30, 0xAC, 0x7A, 0xBF, 0x44, 0x21, 0x5F, 0xEA], rfl⟩ }).result = 1 := by
  rw [after_eq _ _ rfl]; decide +kernel

/-- Zero data with the stored ECC of C-W5. -/
def eccW5 : State :=
  { State.reset with eccS := ⟨[0x71, 0x8B, 0x69, 0x2B, 0x14, 0x2E, 0xF7, 0x5B, 0xD5, 0x90], rfl⟩ }

/-- C-W5: the decoder's count of five exceeds t. -/
theorem test_correct_w5 : (after .correct eccW5).status.code = 2 ∧ (after .correct eccW5).result = 0 := by
  rw [after_eq _ _ rfl]; decide +kernel

/-- T1: the reserved word 0x00 after reset. -/
theorem test_reserved_word :
    step (State.reset.withFetchWord 8 0x00) = .next { State.reset with status := .badCommand } := rfl

/-! ## Witnesses: the hypotheses of the obligations can be met -/

theorem runsOver_fresh (s : State) (h : s.initDone = false) : RunsOver primPoly s := by
  rw [RunsOver, doInit_of_not_done _ _ h]
  exact ⟨rfl, rfl⟩

/-- Another primitive `PRIM_POLY`, x^10 + x^7 + 1. -/
def otherPoly : PrimPoly := ⟨0x481, by decide +kernel⟩

/-- A block built with it, initialised. -/
theorem runsOver_other (s : State) : RunsOver otherPoly { doInit otherPoly State.reset with cw := s.cw, gfa := s.gfa } := by
  rw [RunsOver, doInit_of_done _ _ rfl]
  exact ⟨rfl, rfl⟩

theorem zero_valid : ∀ pos, pos < 1023 → (State.reset.cw.coeff pos).toNat < 1024 := by
  intro pos _
  simp [State.reset]

theorem zero_isCodeword (F : FieldTables) : IsCodeword F State.reset.cw := by
  intro i _ _
  have h : ∀ j, gfMul F (containerToSymbol (State.reset.cw.coeff j)) (alphaPow F (i * j)) = 0#10 := fun j => by
    rw [show State.reset.cw.coeff j = 0#16 from coeff_filled_zero j]
    exact gfMul_zero_left _ _
  exact (xorSum_congr fun j _ => h j).trans (xorSum_const_zero _)

theorem range_zip_cells {w n : Nat} (b : Buffer (BitVec w) n) :
    (List.range n).map (fun i => (i, b.coeff i)) = (List.range n).zip b.cells := by
  apply List.ext_getElem (by simp [b.size])
  intro i h1 _
  have hi : i < n := by simpa using h1
  simp [Buffer.coeff, getD_eq_getElem _ _ _ hi]

/-- The number of different elements in a form that reads each list once. -/
theorem differences_zip {w n : Nat} (a b : Buffer (BitVec w) n) :
    differences a b = (((List.range n).zip a.cells).filter (fun x => x.2 != b.coeff x.1)).length := by
  rw [← range_zip_cells, List.filter_map, List.length_map]
  rfl

/-- A codeword buffer of symbols 1023, the largest valid value. -/
theorem largest_valid : ∀ pos, pos < 1023 → ((filled 1023 (0x3FF : Container)).coeff pos).toNat < 1024 := by
  intro pos h
  rw [Buffer.coeff, getD_filled _ _ _ h]
  decide

theorem oneSymbol_coeff (pos q : Nat) (c : Container) (h : pos < 1023) :
    (oneSymbol pos c).coeff q = if q = pos then c else 0 := by
  rw [oneSymbol, coeff_set _ _ _ _ h, show (filled 1023 (0 : Container)).coeff q = 0 from coeff_filled_zero q]

theorem oneSymbol_valid (pos : Nat) (s : Symbol) (h : pos < 1023) :
    ∀ q, q < 1023 → ((oneSymbol pos (symbolToContainer s)).coeff q).toNat < 1024 := by
  intro q _
  rw [oneSymbol_coeff _ _ _ h]
  split
  · exact symbolToContainer_lt s
  · decide

/-- `exec` answers a next state, so a premise `exec i s = .next t` can be met for every `i` and `s`. -/
theorem witness_exec_next : ∀ i s, ∃ t, exec i s = .next t := fun i s => ⟨_, exec_eq_execWith i s⟩

theorem witness_FrameOfFieldEncoderAndPacking :
    (∃ t, exec .init State.reset = .next t) ∧ (∃ t, exec .gfmul State.reset = .next t) ∧
    (∃ t, exec .gfinv State.reset = .next t) ∧ (∃ t, exec .encode State.reset = .next t) ∧
    (∃ t, exec .pack State.reset = .next t) ∧ ∃ t, exec .unpack State.reset = .next t :=
  ⟨witness_exec_next _ _, witness_exec_next _ _, witness_exec_next _ _, witness_exec_next _ _, witness_exec_next _ _,
    witness_exec_next _ _⟩

theorem witness_FrameOfTheBoundaryCommands :
    (∃ t, exec .compute State.reset = .next t) ∧ ∃ t, exec .correct State.reset = .next t :=
  ⟨witness_exec_next _ _, witness_exec_next _ _⟩

theorem witness_EarlierOutcomeIsNeverRead :
    ∃ t t', exec .correct State.reset = .next t ∧ exec .correct { State.reset with allzero := true } = .next t' :=
  ⟨_, _, exec_eq_execWith _ _, exec_eq_execWith _ _⟩

theorem witness_step_next : ∀ s, ∃ t, step s = .next t := fun s => ⟨_, step_eq_stepWith s⟩

/-- The ranges of FieldTablesOfEveryPrimitivePolynomial, PrimitivityCheckIsTheBuildersCheck, DefaultGeneratorTable,
GeneratorHasTheEightRoots, SolverKeepsItsBounds, OmegaIsTheTruncatedProduct, ChienListsTheRoots and
PackIsTheLittleEndianBitstream, each at its last value. -/
theorem witness_ranges :
    (0x3FF : Symbol) ≠ 0 ∧ 1021 < 1022 ∧ 1021 < 1022 ∧ 1022 < 1023 ∧ 9 ≤ 9 ∧ (1 ≤ 8 ∧ 8 ≤ 8) ∧ (7 < 8 ∧ 8 ≤ 8) ∧ 1 < 2 := by
  decide

theorem witness_ResetLeavesTheSpecifiedValues :
    ∃ r, resetEvent State.reset = some r ∧ r ≠ State.reset :=
  ⟨_, rfl, fun h => absurd (congrArg State.draws h) (by decide)⟩

theorem witness_StepRunsTheWrittenCommand :
    ((State.reset.withFetchWord 8 0x0D).cmdWritten = true ∧ decode (State.reset.withFetchWord 8 0x0D).cmd = .ok .correct) ∧
    State.reset.cmdWritten = false := by decide

theorem witness_ReservedAndIllegalEncodings :
    ((State.reset.withFetchWord 8 16).cmdWritten = true ∧ 16 ≤ (State.reset.withFetchWord 8 16).cmd.toNat) ∧
    (State.reset.withFetchWord 8 0).cmd.toNat = 0 ∧ (State.reset.withFetchWord 8 14).cmd.toNat = 14 ∧
    (State.reset.withFetchWord 8 15).cmd.toNat = 15 ∧
    1024 ≤ ((oneSymbol 1022 0x0400).coeff 1022).toNat ∧ 1024 ≤ ((oneSymbol 1014 0xFFFF).coeff 1014).toNat ∧
    State.reset.gfa = 0 ∧ 8 < ({ State.reset with nroot := 9 } : State).nroot.toNat := by decide +kernel

theorem witness_ReservedAndIllegalEncodings_d :
    (∀ pos, pos < 1023 → (({ State.reset with nroot := 9 } : State).cw.coeff pos).toNat < 1024) := zero_valid

theorem witness_InitCommandRule :
    State.reset.initDone = false ∧ (doInit primPoly State.reset).initDone = true := ⟨rfl, rfl⟩

theorem witness_InitialisationIsIdempotent : ∃ t, exec .init State.reset = .next t := witness_exec_next _ _

theorem witness_StepKeepsTheContextSound :
    ContextBuilt primPoly (doInit primPoly State.reset) ∧ (doInit primPoly State.reset).initDone = true ∧
    ∃ t, step (doInit primPoly State.reset) = .next t := ⟨fun _ => ⟨rfl, rfl⟩, rfl, witness_step_next _⟩

theorem witness_BuiltContextIsNeverWritten :
    (doInit primPoly State.reset).initDone = true ∧ ∃ t, step (doInit primPoly State.reset) = .next t :=
  ⟨rfl, witness_step_next _⟩

theorem witness_LazyInitialisation :
    (Instr.forney ≠ .pack ∧ Instr.forney ≠ .unpack ∧ ∃ t, exec .forney State.reset = .next t) ∧
    (∃ t, exec .unpack State.reset = .next t) ∧
    decode State.reset.cmd = .error .reservedCode ∧ ∃ t, step State.reset = .next t :=
  ⟨⟨by decide, by decide, witness_exec_next _ _⟩, witness_exec_next _ _, by decide, witness_step_next _⟩

theorem witness_GfmulCommandRule :
    (State.reset.gfa = 0 ∧ ∃ t, exec .gfmul State.reset = .next t) ∧
    RunsOver primPoly { State.reset with gfa := 0x009, gfb := 0x200 } :=
  ⟨⟨rfl, witness_exec_next _ _⟩, runsOver_fresh _ rfl⟩

theorem witness_GfinvCommandRule :
    State.reset.gfa = 0 ∧ ({ State.reset with gfa := 0x3FF } : State).gfa ≠ 0 ∧
    RunsOver primPoly { State.reset with gfa := 0x001 } ∧ RunsOver primPoly { State.reset with gfa := 0x003 } :=
  ⟨rfl, by decide, runsOver_fresh _ rfl, runsOver_fresh _ rfl⟩

theorem witness_GfmulIsThePolynomialProduct : ∃ p s, RunsOver p s := ⟨_, _, runsOver_other State.reset⟩

theorem witness_GfinvGivesTheUniqueInverse : ∃ p s, RunsOver p s ∧ s.gfa ≠ 0 :=
  ⟨_, _, runsOver_other { State.reset with gfa := 0x3FF }, by decide⟩

theorem witness_EncodeCommandRule :
    1024 ≤ ((withCw (oneSymbol 1014 0x0400)).cw.coeff 1014).toNat ∧
    (∀ i, i < 1015 → ((withCw (filled 1023 0x3FF)).cw.coeff i).toNat < 1024) ∧
    (∀ i, i < 1015 → State.reset.cw.coeff i = 0) ∧
    RunsOver primPoly (withCw (oneSymbol 0 1)) ∧ (withCw (oneSymbol 0 1)).cw.coeff 0 = 1 ∧
    (∀ i, 1 ≤ i → i < 1015 → (withCw (oneSymbol 0 1)).cw.coeff i = 0) := by
  refine ⟨by decide +kernel, fun i hi => largest_valid i (by omega), fun i _ => coeff_filled_zero i, runsOver_fresh _ rfl,
    ?_, fun i h _ => ?_⟩
  · exact (oneSymbol_coeff 0 0 1 (by decide)).trans (if_pos rfl)
  · exact (oneSymbol_coeff 0 i 1 (by decide)).trans (if_neg (by omega))

theorem witness_EncodedWordIsACodeword :
    RunsOver primPoly (withCw (filled 1023 0x3FF)) ∧
    ∀ i, i < 1015 → ((withCw (filled 1023 0x3FF)).cw.coeff i).toNat < 1024 :=
  ⟨runsOver_fresh _ rfl, fun i hi => largest_valid i (by omega)⟩

theorem witness_EncoderIsLinear :
    ∃ (D D' E : Buffer Container 1015) (P P' : Buffer Symbol 8),
      (∀ i, i < 1015 → E.coeff i = D.coeff i ^^^ D'.coeff i) ∧
      rsEncode (buildField primPoly) (buildGen (buildField primPoly)) D = .ok P ∧
      rsEncode (buildField primPoly) (buildGen (buildField primPoly)) D' = .ok P' := by
  have h : allValid (filled 1015 (0x3FF : Container)) = true := by
    rw [allValid_iff]
    intro i hi
    rw [Buffer.coeff, getD_filled _ _ _ hi]
    decide
  refine ⟨filled 1015 0x3FF, filled 1015 0x3FF, filled 1015 0, _, _, fun i hi => ?_, by rw [rsEncode, if_pos h],
    by rw [rsEncode, if_pos h]⟩
  rw [BitVec.xor_self]
  exact coeff_filled_zero i

theorem witness_SyndEvaluatesTheReceivedPolynomial :
    1024 ≤ ((withCw (oneSymbol 1022 0x0400)).cw.coeff 1022).toNat ∧
    (RunsOver primPoly (withCw (filled 1023 0x3FF)) ∧
      ∀ pos, pos < 1023 → ((withCw (filled 1023 0x3FF)).cw.coeff pos).toNat < 1024) ∧
    (∀ pos, pos < 1023 → State.reset.cw.coeff pos = 0) ∧
    (RunsOver primPoly (withCw (oneSymbol 1022 (symbolToContainer 0x3FF))) ∧
      ∀ q, q < 1023 → (withCw (oneSymbol 1022 (symbolToContainer 0x3FF))).cw.coeff q =
        if q = 1022 then symbolToContainer 0x3FF else 0) :=
  ⟨by decide +kernel, ⟨runsOver_fresh _ rfl, largest_valid⟩, fun i _ => coeff_filled_zero i, runsOver_fresh _ rfl,
    fun q _ => oneSymbol_coeff _ q _ (by decide)⟩

theorem witness_SyndromesAreLinear :
    (∀ pos, pos < 1023 →
      State.reset.cw.coeff pos = (oneSymbol 1022 1).coeff pos ^^^ (oneSymbol 1022 1).coeff pos) ∧
    IsCodeword (buildField primPoly) State.reset.cw :=
  ⟨fun pos _ => by rw [BitVec.xor_self]; exact coeff_filled_zero pos, zero_isCodeword _⟩

theorem witness_BmsolveCommandRule :
    (∀ i, i < 8 → State.reset.syn.coeff i = 0) ∧
    (RunsOver primPoly { State.reset with syn := (filled 8 0).set 0 1 } ∧
      ∀ i, i < 8 → ((filled 8 (0 : Symbol)).set 0 1).coeff i = if i = 0 then 1 else 0) ∧
    ∀ i, 1 ≤ i → i ≤ 8 →
      syndromeAt ⟨[0x056, 0x04C, 0x193, 0x01D, 0x3B3, 0x1F7, 0x392, 0x156], rfl⟩ i =
        gfMul (buildField primPoly) 0x004 (alphaPow (buildField primPoly) (100 * i)) := by
  refine ⟨fun i _ => coeff_filled_zero i, ⟨runsOver_fresh _ rfl, by decide +kernel⟩, ?_⟩
  intro i h1 h8
  rw [Fast.gfMul_eq, Fast.alphaPow_eq]
  interval_cases i <;> decide +kernel

theorem witness_SolverYieldsARecurrence :
    RunsOver primPoly { State.reset with syn := filled 8 1 } ∧
    (after .bmsolve { State.reset with syn := filled 8 1 }).ell = 1 :=
  ⟨runsOver_fresh _ rfl, by rw [after_eq _ _ rfl]; decide +kernel⟩

theorem witness_RootsAreAtMostTheDegree :
    RunsOver primPoly State.reset ∧ (∃ t, exec .chien State.reset = .next t) ∧
    (∀ j, j < 9 → State.reset.lam.coeff j = 0) ∧
    ∃ j, j < 9 ∧ ({ State.reset with lam := (filled 9 0).set 8 1 } : State).lam.coeff j ≠ 0 :=
  ⟨runsOver_fresh _ rfl, witness_exec_next _ _, fun i _ => coeff_filled_zero i, 8, by decide, by decide +kernel⟩

/-- Eight roots, two of which name position 0 (the rule's own corner case), with a locator whose derivative is 1
everywhere. -/
def eightRoots : State :=
  { State.reset with
    lam := ⟨[0, 1, 0, 0, 0, 0, 0, 0, 0], rfl⟩, root := ⟨[0, 1, 2, 3, 4, 5, 6, 1023], rfl⟩, nroot := 8 }

theorem derivativeAt_fast (lam : Buffer Symbol 9) (rho : Nat) :
    derivativeAt (buildField primPoly) lam rho =
      xorSum 4 (fun k => Fast.mul (lam.coeff (2 * k + 1)) (Fast.alpha (2 * k * rho))) := by
  simp only [derivativeAt, Fast.gfMul_eq, Fast.alphaPow_eq]

theorem witness_ForneyAppliesTheMagnitudes :
    RunsOver primPoly eightRoots ∧ (∀ pos, pos < 1023 → (eightRoots.cw.coeff pos).toNat < 1024) ∧
    eightRoots.nroot.toNat ≤ 8 ∧
    (∀ c, c < eightRoots.nroot.toNat →
      derivativeAt (buildField primPoly) eightRoots.lam (eightRoots.root.coeff c).toNat ≠ 0) ∧
    rootToPosition (eightRoots.root.coeff 0).toNat = 0 ∧ rootToPosition (eightRoots.root.coeff 7).toNat = 0 := by
  refine ⟨runsOver_fresh _ rfl, zero_valid, by decide, fun c hc => ?_, by decide⟩
  rw [derivativeAt_fast]
  have hc' : c < 8 := hc
  interval_cases c <;> decide +kernel

theorem witness_ForneyStopsAtAZeroDerivative :
    (∀ pos, pos < 1023 → (({ State.reset with nroot := 8 } : State).cw.coeff pos).toNat < 1024) ∧
    ({ State.reset with nroot := 8 } : State).nroot.toNat ≤ 8 ∧
    ∃ c, c < ({ State.reset with nroot := 8 } : State).nroot.toNat ∧
      derivativeAt (doInit primPoly { State.reset with nroot := 8 }).tables State.reset.lam
        (State.reset.root.coeff c).toNat = 0 :=
  ⟨zero_valid, by decide, 7, by decide, by
    rw [show (doInit primPoly { State.reset with nroot := 8 }).tables = buildField primPoly from rfl, derivativeAt_fast]
    decide +kernel⟩

theorem witness_ForneyTwiceUndoesTheCorrection :
    (after .forney { withCw (oneSymbol 0 1) with
      syn := filled 8 1, lam := ⟨[1, 1, 0, 0, 0, 0, 0, 0, 0], rfl⟩, nroot := 1 }).status = .ok := by
  rw [after_eq _ _ rfl]; decide +kernel

/-- The states of the chain SYND, BMSOLVE, CHIEN, from a block that is not initialised. -/
theorem chain_eq (s : State) (h : s.initDone = false) :
    exec .synd s = .next (Fast.syndUnit (doInit primPoly s)) ∧
    exec .bmsolve (Fast.syndUnit (doInit primPoly s)) =
      .next (Fast.bmsolveUnit (Fast.syndUnit (doInit primPoly s))) ∧
    exec .chien (Fast.bmsolveUnit (Fast.syndUnit (doInit primPoly s))) =
      .next (Fast.chienUnit (Fast.bmsolveUnit (Fast.syndUnit (doInit primPoly s)))) := by
  have ht : (doInit primPoly s).tables = buildField primPoly := (runsOver_fresh s h).1
  have hs := Fast.syndUnit_eq ht
  have h1 := Fast.syndUnit_tables ht
  have hd : (Fast.syndUnit (doInit primPoly s)).initDone = true := by
    rw [← hs]
    rcases syndUnit_cases (doInit primPoly s) with ⟨_, h⟩ | ⟨_, h⟩ <;> rw [h] <;> simp
  refine ⟨?_, ?_, ?_⟩
  · rw [← hs]; rfl
  · rw [← Fast.bmsolveUnit_eq h1]
    show Host.Outcome.next (bmsolveUnit (doInit primPoly _)) = _
    rw [doInit_of_done _ _ hd]
  · rw [← Fast.chienUnit_eq (show (Fast.bmsolveUnit (Fast.syndUnit (doInit primPoly s))).tables = _ from h1)]
    show Host.Outcome.next (chienUnit (doInit primPoly _)) = _
    rw [doInit_of_done _ _ (show (Fast.bmsolveUnit (Fast.syndUnit (doInit primPoly s))).initDone = true from hd)]

/-- An invalid container; a codeword; a word with too many errors; a word with one error. The premises about `exec` are
`chain_eq`. -/
theorem witness_DecodeIsTheCommandChain :
    (Fast.syndUnit (doInit primPoly (withCw (oneSymbol 1022 0x0400)))).status ≠ .ok ∧
    (Fast.syndUnit (doInit primPoly State.reset)).allzero = true ∧
    ((Fast.syndUnit (doInit primPoly (withCw wordV5))).allzero = false ∧
      (Fast.chienUnit (Fast.bmsolveUnit (Fast.syndUnit (doInit primPoly (withCw wordV5))))).status ≠ .ok) ∧
    ((Fast.syndUnit (doInit primPoly (withCw (oneSymbol 0 1)))).allzero = false ∧
      (Fast.chienUnit (Fast.bmsolveUnit (Fast.syndUnit (doInit primPoly (withCw (oneSymbol 0 1)))))).status = .ok) := by
  decide +kernel

theorem witness_DecodeAgreesWithTheDecodePath : RunsOver primPoly (withCw wordV5) := runsOver_fresh _ rfl

theorem witness_DecodeFailsOnlyAtTheRootCount :
    RunsOver primPoly (withCw wordV5) ∧ (after .decode (withCw wordV5)).status = .uncorrectable := by
  refine ⟨runsOver_fresh _ rfl, ?_⟩
  rw [after_eq _ _ rfl]; decide +kernel

theorem witness_DecodeOfACodeword :
    RunsOver primPoly State.reset ∧ (∀ pos, pos < 1023 → (State.reset.cw.coeff pos).toNat < 1024) ∧
    IsCodeword (buildField primPoly) State.reset.cw := ⟨runsOver_fresh _ rfl, zero_valid, zero_isCodeword _⟩

theorem receivedAt_fast (cw : Buffer Container 1023) (i : Nat) :
    receivedAt (buildField primPoly) cw i =
      ((List.range 1023).zip cw.cells).foldl
        (fun acc x => acc ^^^ Fast.mul (containerToSymbol x.2) (Fast.alpha (i * x.1))) 0 := by
  simp only [receivedAt, Fast.gfMul_eq, Fast.alphaPow_eq]
  rw [← range_zip_cells, List.foldl_map]
  rfl

theorem wordW0_received (i : Nat) (h1 : 1 ≤ i) (h8 : i ≤ 8) :
    receivedAt (buildField primPoly) wordW0 i = if i = 1 then 1 else 0 := by
  rw [receivedAt_fast]
  interval_cases i <;> decide +kernel

/-- The word W0 meets both clauses. -/
theorem witness_DecodeAcceptsTheUnitLocator :
    RunsOver primPoly (withCw wordW0) ∧ (∀ pos, pos < 1023 → ((withCw wordW0).cw.coeff pos).toNat < 1024) ∧
    ¬IsCodeword (buildField primPoly) (withCw wordW0).cw ∧
    (∀ j, j < 9 → (bmSolve (buildField primPoly) (syndromes (buildField primPoly) (withCw wordW0).cw)).lam.coeff j =
      if j = 0 then 1 else 0) ∧
    ∀ i, 1 ≤ i → i ≤ 8 → receivedAt (buildField primPoly) (withCw wordW0).cw i = if i = 1 then 1 else 0 := by
  refine ⟨runsOver_fresh _ rfl, (allValid_iff _).mp (allValid_buildCw _ _), fun h => ?_, ?_, wordW0_received⟩
  · have := h 1 (by decide) (by decide)
    rw [show (withCw wordW0).cw = wordW0 from rfl, wordW0_received 1 (by decide) (by decide)] at this
    exact absurd this (by decide)
  · rw [Fast.bmSolve_eq, Fast.syndromes_eq]
    decide +kernel

/-- Four wrong symbols, at the first and the last positions of the data part and of the parity part. -/
def fourErrors : Buffer Container 1023 := ((((filled 1023 0).set 0 0x3FF).set 1014 1).set 1015 2).set 1022 0x200

theorem witness_DecodeRepairsUpToFourErrors :
    RunsOver primPoly (withCw fourErrors) ∧ allValid (withCw fourErrors).cw = true ∧
    (∀ pos, pos < 1023 → (State.reset.cw.coeff pos).toNat < 1024) ∧
    IsCodeword (buildField primPoly) State.reset.cw ∧ differences (withCw fourErrors).cw State.reset.cw = 4 := by
  refine ⟨runsOver_fresh _ rfl, by decide +kernel, zero_valid, zero_isCodeword _, ?_⟩
  rw [differences_zip]
  simp only [show ∀ i, State.reset.cw.coeff i = 0#16 from coeff_filled_zero]
  decide +kernel

theorem witness_ComputeCommandRule :
    (∀ i, i < 512 → State.reset.data.coeff i = 0) ∧ ContextBuilt primPoly State.reset ∧
    ContextBuilt primPoly (doInit primPoly State.reset) ∧
    State.reset.data = (doInit primPoly State.reset).data ∧
    ((filled 512 (0 : Byte)).set 0 1).coeff 0 = 0x01 ∧
    (∀ i, 1 ≤ i → i < 512 → ((filled 512 (0 : Byte)).set 0 1).coeff i = 0) := by
  refine ⟨fun i _ => coeff_filled_zero i, (fun h => nomatch h), (fun _ => ⟨rfl, rfl⟩), rfl, by decide +kernel, fun i h _ => ?_⟩
  rw [coeff_set _ _ _ _ (by decide), if_neg (by omega)]
  exact coeff_filled_zero i

theorem witness_EncodeThenPackIsCompute :
    ∃ s t u v P, s.cw = buildCw s.data P ∧ exec .encode s = .next t ∧ exec .pack t = .next u ∧ exec .compute s = .next v :=
  ⟨withCw (buildCw (filled 512 0) (filled 8 0x3FF)), _, _, _, filled 8 0x3FF, rfl, exec_eq_execWith _ _,
    exec_eq_execWith _ _, exec_eq_execWith _ _⟩

theorem witness_CorrectCommandRule :
    State.reset.eccS = State.reset.eccR ∧
    ({ State.reset with eccR := (filled 10 0).set 9 1 } : State).eccS ≠
      ({ State.reset with eccR := (filled 10 0).set 9 1 } : State).eccR := ⟨rfl, by decide +kernel⟩

theorem witness_CodewordExactlyWhenTheEccMatches : ∃ p s, RunsOver p s := ⟨_, _, runsOver_other State.reset⟩

theorem witness_RoundTripWithoutCorruption : State.reset.cmdWritten = false := rfl

theorem witness_OneCorruptedByteIsRepaired :
    ContextBuilt primPoly State.reset ∧ State.reset.cmdWritten = false ∧ 511 < 512 ∧ (0xFF : Byte) ≠ 0 :=
  ⟨(fun h => nomatch h), rfl, by decide, by decide⟩

theorem witness_CorrectionWithinTheBound :
    ContextBuilt primPoly State.reset ∧ State.reset.cmdWritten = false ∧
    differences (((((filled 512 (0 : Byte)).set 0 0xFF).set 1 1).set 510 2).set 511 0x80) (filled 512 0) = 4 := by
  refine ⟨(fun h => nomatch h), rfl, ?_⟩
  rw [differences_zip]
  simp only [show ∀ i, (filled 512 (0 : Byte)).coeff i = 0#8 from coeff_filled_zero]
  decide +kernel

/-- A word that names no command; a CORRECT that fails, from a state that runs over the default field. -/
theorem witness_WhichCommandEndsInWhichError :
    ((State.reset.withFetchWord 8 0xFF).cmdWritten = true ∧
      decode (State.reset.withFetchWord 8 0xFF).cmd = .error .upperNibbleNotZero) ∧
    RunsOver primPoly eccW5 ∧ (∃ t, exec .correct eccW5 = .next t) ∧
    (after .correct eccW5).status = .uncorrectable := by
  refine ⟨by decide, runsOver_fresh _ rfl, witness_exec_next _ _, ?_⟩
  rw [after_eq _ _ rfl]
  decide +kernel

theorem witness_ResultIsACountOrZero :
    (after .gfinv State.reset).status ≠ .ok ∧ (after .chien State.reset).status ≠ .ok := by
  rw [after_eq _ _ rfl, after_eq _ _ rfl]; decide +kernel

theorem witness_PreciseErrorsWriteNoResult :
    (after .encode (withCw (oneSymbol 1014 0x0400))).status = .invalidSymbol ∧
    (after .gfinv State.reset).status = .zeroInverse := by
  rw [after_eq _ _ rfl, after_eq _ _ rfl]; decide +kernel

/-- FORNEY and DECODE leave the position 5 alone when the only listed root names position 0. -/
theorem witness_FrameOfTheDecoder :
    ∀ rho, rho ∈ listedRoots (filled 8 0) 1 → rootToPosition rho ≠ 5 := by decide +kernel

/-- R233: between the write of `CMD` and the step, neither an operand nor `CMD` can be written; after the step it can. -/
theorem test_no_move_while_running :
    (∀ v, hostWrite (State.reset.withFetchWord 8 0x02) .gfa v = none) ∧
    (∀ v, hostWrite (State.reset.withFetchWord 8 0x02) .cmd v = none) ∧
    hostRead (State.reset.withFetchWord 8 0x02) .status = none ∧
    hostRead (State.reset.withFetchWord 8 0x02 |> stepWith primPoly) .status = some 0 := by
  refine ⟨fun _ => rfl, fun _ => rfl, rfl, rfl⟩

theorem witness_HostReadAfterWrite :
    (∃ t, hostWrite State.reset (.cw 1022) 0xFFFF = some t) ∧ HostReg.cw 1022 ≠ .cmd ∧ HostReg.gfa ≠ .cw 1022 ∧
    State.reset.cmdWritten = false ∧ ∃ t, step State.reset = .next t :=
  ⟨⟨_, rfl⟩, by decide, by decide, rfl, witness_step_next _⟩

end Sys2Proof.Tests
end

section
/-! PROOFS for spec/00_scope.md: the check that admits a `PRIM_POLY` (R8, R92), and what a step runs (R10, R50, R65, R230). -/

namespace Sys2Proof.Proofs

open Sys2Proof.Machine Sys2Proof.Laws

/-! ## The check of R92 -/

/-- Recording `v` in the bit set `seen` does not make another element count as seen. -/
theorem testBit_record_eq_false {seen : Nat} {u v : Symbol} (hu : seen.testBit u.toNat = false) (huv : v ≠ u) :
    (seen ||| (1 <<< v.toNat)).testBit u.toNat = false := by
  have hne : v.toNat ≠ u.toNat := fun h => huv (BitVec.eq_of_toNat_eq h)
  rw [Nat.testBit_or, hu, Nat.one_shiftLeft, Nat.testBit_two_pow_of_ne hne, Bool.or_false]

/-- The converse of `entriesDistinct_spec`: the bit set refuses no recurrence whose entries are non-zero, unseen and
distinct. An entry is looked up in `seen` after the earlier ones were recorded there, and it differs from each of them. -/
theorem entriesDistinct_of_distinct (p : BitVec 11) (k : Nat) (v : Symbol) (seen : Nat)
    (hnew : ∀ i, i < k → (xtimes p)^[i] v ≠ 0 ∧ seen.testBit ((xtimes p)^[i] v).toNat = false)
    (hdist : ∀ i j, i < j → j < k → (xtimes p)^[i] v ≠ (xtimes p)^[j] v)
    (hlast : (xtimes p)^[k] v = 1) : entriesDistinct p k v seen = true := by
  induction k generalizing v seen with
  | zero => exact beq_iff_eq.mpr hlast
  | succ k ih =>
    obtain ⟨hv, hseen⟩ := hnew 0 k.succ_pos
    have hrest : entriesDistinct p k (xtimes p v) (seen ||| (1 <<< v.toNat)) = true := by
      refine ih _ _ (fun i hi => ?_) (fun i j hij hj => ?_) hlast
      · obtain ⟨hne, hold⟩ := hnew (i + 1) (Nat.succ_lt_succ hi)
        have hvi := hdist 0 (i + 1) i.succ_pos (Nat.succ_lt_succ hi)
        exact ⟨hne, testBit_record_eq_false hold hvi⟩
      · exact hdist (i + 1) (j + 1) (Nat.succ_lt_succ hij) (Nat.succ_lt_succ hj)
    simp only [entriesDistinct, Bool.and_eq_true, bne_iff_ne, Bool.not_eq_true']
    exact ⟨⟨hv, hseen⟩, hrest⟩

/-- The check line of R92 as the builder runs it, with nothing seen before the first entry. -/
theorem entriesDistinct_nothing_seen_iff (p : BitVec 11) (k : Nat) (v : Symbol) :
    entriesDistinct p k v 0 = true ↔
      (∀ i, i < k → (xtimes p)^[i] v ≠ 0) ∧
      (∀ i j, i < j → j < k → (xtimes p)^[i] v ≠ (xtimes p)^[j] v) ∧ (xtimes p)^[k] v = 1 := by
  constructor
  · intro h
    obtain ⟨hnew, hdist, hlast⟩ := entriesDistinct_spec p k v 0 h
    exact ⟨fun i hi => (hnew i hi).1, hdist, hlast⟩
  · rintro ⟨hne, hdist, hlast⟩
    exact entriesDistinct_of_distinct p k v 0 (fun i hi => ⟨hne i hi, Nat.zero_testBit _⟩) hdist hlast

/-- Settles O9: after the two fixed bits the check is `entriesDistinct` from 1 with nothing seen, and its bit set finds an
entry exactly when it has occurred (an induction over the entries, in both directions). -/
theorem primitivityCheckIsTheBuildersCheck : Obligations.PrimitivityCheckIsTheBuildersCheck := by
  unfold Obligations.PrimitivityCheckIsTheBuildersCheck
  intro p
  rw [isPrimitive, Bool.and_eq_true, Bool.and_eq_true, entriesDistinct_nothing_seen_iff, and_assoc]

/-! ## One step -/

/-- R10, R65: a step with a written command that decodes runs it, with the write taken up. -/
theorem step_of_decode {s : State} {i : Instr} (hw : s.cmdWritten = true) (hd : decode s.cmd = .ok i) :
    step s = exec i (takeCommand s) := by
  rw [step, if_pos hw, hd]

/-- R212, R230: a step with no command written keeps the state (log entry 3). -/
theorem step_of_idle {s : State} (hw : s.cmdWritten = false) : step s = .next s := by
  rw [step, if_neg (Bool.eq_false_iff.mp hw)]

/-- Settles O4: the branches of `step` with a command that decodes and with no command written. -/
theorem stepRunsTheWrittenCommand : Obligations.StepRunsTheWrittenCommand := by
  unfold Obligations.StepRunsTheWrittenCommand
  exact fun _ => ⟨fun _ hw hd => step_of_decode hw hd, step_of_idle⟩

end Sys2Proof.Proofs
end

section
/-! PROOFS for spec/10_state.md: the field context that no command writes once it is built (R13, R17), the reset values (R31),
what `RESULT` can hold (R27, R70, R200), that no command reads the outcome of an earlier one (R29, R205), and what COMPUTE and
CORRECT leave alone (R30). -/

namespace Sys2Proof.Proofs

open Sys2Proof.Machine Sys2Proof.Laws Sys2Proof.Safety

/-! ## A command is its initialisation and then its unit (R103) -/

/-- R103: the state on which the unit of a command starts: PACK and UNPACK run no `do_init`. -/
def unitStart (p : PrimPoly) (i : Instr) (s : State) : State :=
  match i with
  | .pack | .unpack => s
  | _ => doInit p s

/-- What a command does after its `do_init`. -/
def commandUnit (i : Instr) (s : State) : State :=
  match i with
  | .init => complete 0 s
  | .gfmul => gfmulUnit s
  | .gfinv => gfinvUnit s
  | .encode => encodeUnit s
  | .synd => syndUnit s
  | .bmsolve => bmsolveUnit s
  | .chien => chienUnit s
  | .forney => forneyUnit s
  | .decode => decodeUnit s
  | .pack => packUnit s
  | .unpack => unpackUnit s
  | .compute => computeUnit s
  | .correct => correctUnit s

theorem execWith_eq_commandUnit (p : PrimPoly) (i : Instr) (s : State) :
    execWith p i s = commandUnit i (unitStart p i s) := by
  cases i <;> rfl

theorem exec_eq_commandUnit (i : Instr) (s : State) :
    exec i s = .next (commandUnit i (unitStart primPoly i s)) := by
  rw [exec_eq_execWith, execWith_eq_commandUnit]

theorem eq_commandUnit_of_exec {i : Instr} {s t : State} (h : exec i s = .next t) :
    t = commandUnit i (unitStart primPoly i s) := by
  rw [(exec_next_iff i s t).mp h, execWith_eq_commandUnit]

theorem unitStart_cases (p : PrimPoly) (i : Instr) (s : State) : unitStart p i s = s ∨ unitStart p i s = doInit p s := by
  cases i
  case pack | unpack => exact .inl rfl
  all_goals exact .inr rfl

/-! ## The field context (R13, R17) -/

/-- R17: the state `t` has the field context of `s`. -/
structure SameContext (s t : State) : Prop where
  initDone : t.initDone = s.initDone
  tables : t.tables = s.tables
  gen : t.gen = s.gen

theorem SameContext.refl (s : State) : SameContext s s := ⟨rfl, rfl, rfl⟩

theorem SameContext.trans {s t u : State} (hst : SameContext s t) (htu : SameContext t u) : SameContext s u :=
  ⟨htu.initDone.trans hst.initDone, htu.tables.trans hst.tables, htu.gen.trans hst.gen⟩

theorem SameContext.contextBuilt {p : PrimPoly} {s t : State} (h : SameContext s t) (hs : ContextBuilt p s) :
    ContextBuilt p t := by
  intro ht
  rw [h.tables, h.gen]
  exact hs (h.initDone.symm.trans ht)

theorem takeCommand_sameContext (s : State) : SameContext s (takeCommand s) := ⟨rfl, rfl, rfl⟩

theorem syndUnit_sameContext (s : State) : SameContext s (syndUnit s) := by
  obtain ⟨-, h⟩ | ⟨-, h⟩ := syndUnit_cases s <;> rw [h] <;> exact ⟨rfl, rfl, rfl⟩

theorem bmsolveUnit_sameContext (s : State) : SameContext s (bmsolveUnit s) := ⟨rfl, rfl, rfl⟩

theorem chienUnit_sameContext (s : State) : SameContext s (chienUnit s) := by
  rw [chienUnit_eq]; exact ⟨rfl, rfl, rfl⟩

theorem forneyUnit_sameContext (s : State) : SameContext s (forneyUnit s) := by
  obtain ⟨-, h⟩ | ⟨-, -, h⟩ | ⟨-, -, -, h⟩ | ⟨-, -, -, C, -, h⟩ := forneyUnit_cases s <;> rw [h] <;>
    exact ⟨rfl, rfl, rfl⟩

/-- The four ways of DECODE end after SYND, after CHIEN or after FORNEY (R164). -/
theorem decodeUnit_sameContext (s : State) : SameContext s (decodeUnit s) := by
  have hsynd := syndUnit_sameContext s
  have hchien : SameContext s (chienUnit (bmsolveUnit (syndUnit s))) :=
    (hsynd.trans (bmsolveUnit_sameContext _)).trans (chienUnit_sameContext _)
  obtain ⟨-, h⟩ | ⟨-, -, h⟩ | ⟨-, -, -, h⟩ | ⟨-, -, -, h⟩ := decodeUnit_cases s <;> rw [h]
  · exact ⟨rfl, rfl, rfl⟩
  · exact hsynd
  · exact hchien
  · exact hchien.trans (forneyUnit_sameContext _)

/-- R17: `do_init` alone writes the field context; no unit does. -/
theorem commandUnit_sameContext (i : Instr) (s : State) : SameContext s (commandUnit i s) := by
  cases i with
  | init | gfmul | pack | unpack => exact ⟨rfl, rfl, rfl⟩
  | gfinv =>
    show SameContext s (gfinvUnit s)
    obtain ⟨-, h⟩ | ⟨_, h⟩ := gfinvUnit_cases s <;> rw [h] <;> exact ⟨rfl, rfl, rfl⟩
  | encode =>
    show SameContext s (encodeUnit s)
    obtain ⟨-, h⟩ | ⟨-, h⟩ := encodeUnit_cases s <;> rw [h] <;> exact ⟨rfl, rfl, rfl⟩
  | synd => exact syndUnit_sameContext s
  | bmsolve => exact bmsolveUnit_sameContext s
  | chien => exact chienUnit_sameContext s
  | forney => exact forneyUnit_sameContext s
  | decode => exact decodeUnit_sameContext s
  | compute =>
    show SameContext s (computeUnit s)
    rw [computeUnit_eq]; exact ⟨rfl, rfl, rfl⟩
  | correct =>
    show SameContext s (correctUnit s)
    obtain ⟨e, -, h⟩ | ⟨D, count, -, h⟩ := correctUnit_cases s <;> rw [h] <;> exact ⟨rfl, rfl, rfl⟩

/-- R13, R91: what `do_init` leaves is a sound context. -/
theorem doInit_contextBuilt {p : PrimPoly} {s : State} (h : ContextBuilt p s) : ContextBuilt p (doInit p s) := by
  obtain ⟨-, heq⟩ | ⟨-, heq⟩ := doInit_cases p s <;> rw [heq]
  · exact h
  · exact fun _ => ⟨rfl, rfl⟩

theorem doInit_takeCommand (p : PrimPoly) (s : State) : doInit p (takeCommand s) = takeCommand (doInit p s) := by
  unfold doInit; rw [takeCommand_initDone]; split <;> rfl

/-- A step leaves the field context as it was, or as `do_init` leaves it. -/
theorem step_context {s t : State} (h : step s = .next t) : SameContext s t ∨ SameContext (doInit primPoly s) t := by
  obtain ⟨-, rfl⟩ | ⟨i, -, -, rfl⟩ | ⟨e, -, -, rfl⟩ := step_cases h
  · exact .inl (.refl _)
  · rw [execWith_eq_commandUnit]
    have hunit := commandUnit_sameContext i (unitStart primPoly i (takeCommand s))
    obtain hstart | hstart := unitStart_cases primPoly i (takeCommand s) <;> rw [hstart] at hunit ⊢
    · exact .inl ((takeCommand_sameContext s).trans hunit)
    · rw [doInit_takeCommand] at hunit ⊢
      exact .inr ((takeCommand_sameContext _).trans hunit)
  · exact .inl ⟨rfl, rfl, rfl⟩

/-- Settles O14: `do_init` builds a sound context or keeps it, and nothing else of a step writes it. -/
theorem stepKeepsTheContextSound : Obligations.StepKeepsTheContextSound := by
  unfold Obligations.StepKeepsTheContextSound
  intro s t hs hstep
  obtain hsame | hsame := step_context hstep
  · exact hsame.contextBuilt hs
  · exact hsame.contextBuilt (doInit_contextBuilt hs)

/-- Settles O15: with `INIT_DONE` = 1 the `do_init` of a step writes nothing. -/
theorem builtContextIsNeverWritten : Obligations.BuiltContextIsNeverWritten := by
  unfold Obligations.BuiltContextIsNeverWritten
  intro s t hdone hstep
  have hsame : SameContext s t := by
    have := step_context hstep
    rwa [doInit_of_done primPoly s hdone, or_self] at this
  exact ⟨hsame.initDone.trans hdone, hsame.tables, hsame.gen⟩

/-! ## `RESULT` (R27, R70, R200) -/

/-- R70, R204: a command ends with `raise E`, or without an error and a count of at most `bound`. -/
inductive EndsWithin (bound : Nat) : State → Prop where
  | raised (e : ErrorKind) (s : State) : EndsWithin bound (raise e s)
  | completed (count : Nat) (s : State) (h : count ≤ bound) : EndsWithin bound (complete count s)

theorem EndsWithin.mono {a b : Nat} {t : State} (hab : a ≤ b) (h : EndsWithin a t) : EndsWithin b t := by
  cases h with
  | raised e s => exact .raised e s
  | completed count s hcount => exact .completed count s (hcount.trans hab)

theorem EndsWithin.result_of_error {bound : Nat} {t : State} (h : EndsWithin bound t) (hst : t.status ≠ .ok) :
    t.result = 0 := by
  cases h with
  | raised e s => rfl
  | completed count s hcount => exact absurd rfl hst

theorem EndsWithin.result_le {bound : Nat} {t : State} (h : EndsWithin bound t) : t.result.toNat ≤ bound := by
  cases h with
  | raised e s => exact Nat.zero_le _
  | completed count s hcount =>
    rw [complete_result, BitVec.toNat_ofNat]
    exact (Nat.mod_le _ _).trans hcount

/-- R70: the largest count that a command can put in `RESULT`. -/
def countBound (i : Instr) : Nat :=
  match i with
  | .forney | .decode => 8
  | .correct => 4
  | _ => 0

theorem syndUnit_endsWithin (s : State) : EndsWithin 0 (syndUnit s) := by
  obtain ⟨-, h⟩ | ⟨-, h⟩ := syndUnit_cases s <;> rw [h]
  · exact .raised _ _
  · exact .completed _ _ le_rfl

theorem chienUnit_endsWithin (s : State) : EndsWithin 0 (chienUnit s) := by
  unfold chienUnit
  dsimp only
  split
  · exact .completed _ _ le_rfl
  · exact .raised _ _

/-- FORNEY counts the listed roots, of which there are at most eight (R162). -/
theorem forneyUnit_endsWithin (s : State) : EndsWithin 8 (forneyUnit s) := by
  obtain ⟨-, h⟩ | ⟨-, -, h⟩ | ⟨-, -, -, h⟩ | ⟨-, hn, -, C, -, h⟩ := forneyUnit_cases s <;> rw [h]
  · exact .raised _ _
  · exact .raised _ _
  · exact .raised _ _
  · exact .completed _ _ hn

theorem decodeUnit_endsWithin (s : State) : EndsWithin 8 (decodeUnit s) := by
  obtain ⟨-, h⟩ | ⟨-, -, h⟩ | ⟨-, -, -, h⟩ | ⟨-, -, -, h⟩ := decodeUnit_cases s <;> rw [h]
  · exact .raised _ _
  · exact (syndUnit_endsWithin s).mono (Nat.zero_le 8)
  · exact (chienUnit_endsWithin _).mono (Nat.zero_le 8)
  · exact forneyUnit_endsWithin _

/-- R186: `correct` refuses a count above t = 4. -/
theorem correctBlock_count_le {F : FieldTables} {D D' : Buffer Byte 512} {Es Er : Buffer Byte 10} {count : Nat}
    (h : correctBlock F D Es Er = .ok (D', count)) : count ≤ 4 := by
  unfold correctBlock at h
  split at h
  · cases h; exact Nat.zero_le 4
  · split at h
    · cases h
    · split at h
      · cases h
      · cases h; exact Nat.le_of_not_lt ‹_›

theorem commandUnit_endsWithin (i : Instr) (s : State) : EndsWithin (countBound i) (commandUnit i s) := by
  cases i with
  | init | gfmul | bmsolve | pack | unpack => exact .completed 0 _ le_rfl
  | gfinv =>
    show EndsWithin 0 (gfinvUnit s)
    obtain ⟨-, h⟩ | ⟨_, h⟩ := gfinvUnit_cases s <;> rw [h]
    · exact .raised _ _
    · exact .completed _ _ le_rfl
  | encode =>
    show EndsWithin 0 (encodeUnit s)
    obtain ⟨-, h⟩ | ⟨-, h⟩ := encodeUnit_cases s <;> rw [h]
    · exact .raised _ _
    · exact .completed _ _ le_rfl
  | synd => exact syndUnit_endsWithin s
  | chien => exact chienUnit_endsWithin s
  | forney => exact forneyUnit_endsWithin s
  | decode => exact decodeUnit_endsWithin s
  | compute =>
    show EndsWithin 0 (computeUnit s)
    rw [computeUnit_eq]; exact .completed _ _ le_rfl
  | correct =>
    show EndsWithin 4 (correctUnit s)
    obtain ⟨e, -, h⟩ | ⟨D, count, hblock, h⟩ := correctUnit_cases s <;> rw [h]
    · exact .raised _ _
    · exact .completed _ _ (correctBlock_count_le hblock)

theorem countBound_le (i : Instr) : countBound i ≤ 8 := by
  cases i <;> decide

theorem countBound_eq_zero {i : Instr} (hf : i ≠ .forney) (hd : i ≠ .decode) (hc : i ≠ .correct) : countBound i = 0 := by
  cases i
  case forney => exact absurd rfl hf
  case decode => exact absurd rfl hd
  case correct => exact absurd rfl hc
  all_goals rfl

/-- Settles O54: every command ends with `raise E` or with a count within its own bound. -/
theorem resultIsACountOrZero : Obligations.ResultIsACountOrZero := by
  unfold Obligations.ResultIsACountOrZero
  intro i s t hexec
  have hends : EndsWithin (countBound i) t := by
    rw [eq_commandUnit_of_exec hexec]; exact commandUnit_endsWithin i _
  refine ⟨hends.result_of_error, fun hf hd hc => ?_, ?_, hends.result_le.trans (countBound_le i)⟩
  · have hle := hends.result_le
    rw [countBound_eq_zero hf hd hc] at hle
    exact BitVec.eq_of_toNat_eq (Nat.le_zero.mp hle)
  · rintro rfl
    exact hends.result_le

/-! ## The outcome of an earlier command (R29, R205) -/

theorem syndUnit_of_invalid {s : State} (hv : allValid s.cw = false) : syndUnit s = raise .invalidSymbol s := by
  simp [syndUnit, rsSyndromes, hv]

theorem decodeUnit_of_invalid {s : State} (hv : allValid s.cw = false) : decodeUnit s = raise .invalidSymbol s := by
  simp [decodeUnit, syndUnit_of_invalid hv, ErrorKind.status]

section
variable (s : State) (a : Status) (r : BitVec 4) (z : Bool)

theorem unitStart_status_result (p : PrimPoly) (i : Instr) :
    unitStart p i { s with status := a, result := r } = { unitStart p i s with status := a, result := r } := by
  have hinit : doInit p { s with status := a, result := r } = { doInit p s with status := a, result := r } := by
    unfold doInit; split <;> rfl
  cases i
  case pack | unpack => rfl
  all_goals exact hinit

theorem unitStart_allzero (p : PrimPoly) (i : Instr) :
    unitStart p i { s with allzero := z } = { unitStart p i s with allzero := z } := by
  have hinit : doInit p { s with allzero := z } = { doInit p s with allzero := z } := by
    unfold doInit; split <;> rfl
  cases i
  case pack | unpack => rfl
  all_goals exact hinit

/-- Every way of a unit to end writes `STATUS` and `RESULT` over, and none reads them before. -/
theorem commandUnit_status_result (i : Instr) :
    commandUnit i { s with status := a, result := r } = commandUnit i s := by
  have hsynd : syndUnit { s with status := a, result := r } = syndUnit s := rfl
  cases i
  case decode =>
    show decodeUnit { s with status := a, result := r } = decodeUnit s
    unfold decodeUnit
    rw [hsynd]
  all_goals rfl

/-- R205: the states `t` and `t'` differ at most in `ALLZERO`. -/
def EqualButAllzero (t t' : State) : Prop := t' = { t with allzero := t'.allzero }

/-- A SYND that ends without an error writes `ALLZERO` over (R131). -/
theorem syndUnit_allzero_of_valid (hv : allValid s.cw = true) :
    syndUnit { s with allzero := z } = syndUnit s := by
  simp only [syndUnit, rsSyndromes, if_pos hv, complete]

theorem syndUnit_allzero : EqualButAllzero (syndUnit s) (syndUnit { s with allzero := z }) := by
  cases hv : allValid s.cw with
  | false => rw [syndUnit_of_invalid hv, syndUnit_of_invalid (s := { s with allzero := z }) hv]; rfl
  | true => rw [syndUnit_allzero_of_valid s z hv]; rfl

/-- DECODE tests the flag that its own SYND has written (R164). -/
theorem decodeUnit_allzero : EqualButAllzero (decodeUnit s) (decodeUnit { s with allzero := z }) := by
  cases hv : allValid s.cw with
  | false => rw [decodeUnit_of_invalid hv, decodeUnit_of_invalid (s := { s with allzero := z }) hv]; rfl
  | true =>
    have hdecode : decodeUnit { s with allzero := z } = decodeUnit s := by
      unfold decodeUnit
      rw [syndUnit_allzero_of_valid s z hv]
    rw [hdecode]; rfl

theorem commandUnit_allzero (i : Instr) :
    EqualButAllzero (commandUnit i s) (commandUnit i { s with allzero := z }) := by
  cases i with
  | init | gfmul | bmsolve | pack | unpack => rfl
  | gfinv =>
    show EqualButAllzero (gfinvUnit s) (gfinvUnit { s with allzero := z })
    unfold gfinvUnit; dsimp only; split <;> rfl
  | encode =>
    show EqualButAllzero (encodeUnit s) (encodeUnit { s with allzero := z })
    unfold encodeUnit; dsimp only; split <;> rfl
  | synd => exact syndUnit_allzero s z
  | chien =>
    show EqualButAllzero (chienUnit s) (chienUnit { s with allzero := z })
    rw [chienUnit_eq, chienUnit_eq]; rfl
  | forney =>
    show EqualButAllzero (forneyUnit s) (forneyUnit { s with allzero := z })
    unfold forneyUnit
    dsimp only
    split
    · rfl
    split
    · rfl
    split <;> rfl
  | decode => exact decodeUnit_allzero s z
  | compute =>
    show EqualButAllzero (computeUnit s) (computeUnit { s with allzero := z })
    rw [computeUnit_eq, computeUnit_eq]; rfl
  | correct =>
    show EqualButAllzero (correctUnit s) (correctUnit { s with allzero := z })
    unfold correctUnit; dsimp only; split <;> rfl

end

/-- Settles O55: `do_init` carries the three registers along, and the unit of a command reads none of them. -/
theorem earlierOutcomeIsNeverRead : Obligations.EarlierOutcomeIsNeverRead := by
  unfold Obligations.EarlierOutcomeIsNeverRead
  refine fun i s a r z => ⟨?_, fun t t' h h' => ?_⟩
  · rw [exec_eq_commandUnit, unitStart_status_result, commandUnit_status_result, exec_eq_commandUnit]
  · rw [eq_commandUnit_of_exec h, eq_commandUnit_of_exec h', unitStart_allzero]
    exact commandUnit_allzero _ z i

/-! ## Reset (R31, R230) -/

/-- Settles O1: the four values are those that `State.reset` and `resetState` write. -/
theorem resetLeavesTheSpecifiedValues : Obligations.ResetLeavesTheSpecifiedValues := by
  unfold Obligations.ResetLeavesTheSpecifiedValues
  rintro s r (rfl | hreset)
  · exact ⟨rfl, rfl, rfl, rfl, rfl⟩
  · obtain ⟨-, rfl⟩ := resetEvent_eq_some hreset
    exact ⟨rfl, rfl, rfl, rfl, rfl⟩

/-- Settles O13: `INIT_DONE` is 0 at reset. -/
theorem contextIsSoundAtReset : Obligations.ContextIsSoundAtReset := by
  unfold Obligations.ContextIsSoundAtReset
  exact fun hdone => nomatch hdone

/-! ## The boundary commands (R30, R185, R187) -/

theorem computeUnit_frame (s : State) :
    (computeUnit s).data = s.data ∧ (computeUnit s).eccS = s.eccS ∧ (computeUnit s).eccR = s.eccR := by
  rw [computeUnit_eq]; exact ⟨rfl, rfl, rfl⟩

theorem correctUnit_frame (s : State) :
    (correctUnit s).eccS = s.eccS ∧ (correctUnit s).eccR = s.eccR ∧ (correctUnit s).eccO = s.eccO := by
  obtain ⟨e, -, h⟩ | ⟨D, count, -, h⟩ := correctUnit_cases s <;> rw [h] <;> exact ⟨rfl, rfl, rfl⟩

/-- Settles O59: the frames of the two units after `do_init`, and no command writes `CMD` (R27). -/
theorem frameOfTheBoundaryCommands : Obligations.FrameOfTheBoundaryCommands := by
  unfold Obligations.FrameOfTheBoundaryCommands
  refine fun s t => ⟨fun h => ?_, fun h => ?_⟩ <;> rw [(exec_next_iff _ s t).mp h]
  · obtain ⟨hdata, heccS, heccR⟩ := computeUnit_frame (doInit primPoly s)
    exact ⟨hdata.trans (doInit_data _ s), heccS.trans (doInit_eccS _ s), heccR.trans (doInit_eccR _ s),
      execWith_cmd primPoly .compute s⟩
  · obtain ⟨heccS, heccR, heccO⟩ := correctUnit_frame (doInit primPoly s)
    exact ⟨heccS.trans (doInit_eccS _ s), heccR.trans (doInit_eccR _ s), heccO.trans (doInit_eccO _ s),
      execWith_cmd primPoly .correct s⟩

end Sys2Proof.Proofs
end

section
/-! PROOFS for spec/20_memory.md: what each command leaves alone (R40), and what the host reads and writes between two commands
(R45 to R47, R233). -/

namespace Sys2Proof.Proofs

open Sys2Proof.Machine Sys2Proof.Laws

/-! ## The field context in a frame -/

theorem unitStart_frame (p : PrimPoly) (i : Instr) (s : State) :
    unitStart p i s =
      { s with
        initDone := (unitStart p i s).initDone, tables := (unitStart p i s).tables, gen := (unitStart p i s).gen } := by
  obtain h | h := unitStart_cases p i s <;> rw [h]
  obtain ⟨-, h⟩ | ⟨-, h⟩ := doInit_cases p s <;> rw [h]

/-- A command is its unit, started on the state before with the field context of the state after: `do_init` writes nothing but
the context (R91), and the unit leaves that as it is (R17). -/
theorem eq_commandUnit_with_context {i : Instr} {s t : State} (h : exec i s = .next t) :
    t = commandUnit i { s with initDone := t.initDone, tables := t.tables, gen := t.gen } := by
  have ht : t = commandUnit i (unitStart primPoly i s) := eq_commandUnit_of_exec h
  have hsame : SameContext (unitStart primPoly i s) t := by
    have := commandUnit_sameContext i (unitStart primPoly i s)
    rwa [← ht] at this
  have hstart : unitStart primPoly i s = { s with initDone := t.initDone, tables := t.tables, gen := t.gen } := by
    rw [hsame.initDone, hsame.tables, hsame.gen]
    exact unitStart_frame primPoly i s
  rwa [hstart] at ht

/-! ## The frames of the units

Each says what the state `t` after the unit can differ in from the state `s` on which the unit starts. -/

section
variable {s t : State}

theorem complete_frame {count : Nat} (h : t = complete count s) :
    t = { s with status := t.status, result := t.result } := by
  rw [h]; rfl

theorem gfmulUnit_frame (h : t = gfmulUnit s) :
    t = { s with gfq := t.gfq, status := t.status, result := t.result } := by
  rw [h]; rfl

theorem gfinvUnit_frame (h : t = gfinvUnit s) :
    t = { s with gfq := t.gfq, status := t.status, result := t.result } := by
  obtain ⟨-, heq⟩ | ⟨_, heq⟩ := gfinvUnit_cases s <;> rw [h, heq] <;> rfl

theorem encodeUnit_frame (h : t = encodeUnit s) :
    t = { s with par := t.par, status := t.status, result := t.result } := by
  obtain ⟨-, heq⟩ | ⟨-, heq⟩ := encodeUnit_cases s <;> rw [h, heq] <;> rfl

theorem packUnit_frame (h : t = packUnit s) :
    t = { s with eccO := t.eccO, status := t.status, result := t.result } := by
  rw [h]; rfl

theorem unpackUnit_frame (h : t = unpackUnit s) :
    t = { s with par := t.par, status := t.status, result := t.result } := by
  rw [h]; rfl

theorem syndUnit_frame (h : t = syndUnit s) :
    t = { s with syn := t.syn, allzero := t.allzero, status := t.status, result := t.result } := by
  obtain ⟨-, heq⟩ | ⟨-, heq⟩ := syndUnit_cases s <;> rw [h, heq] <;> rfl

theorem bmsolveUnit_frame (h : t = bmsolveUnit s) :
    t = { s with lam := t.lam, deg := t.deg, ell := t.ell, status := t.status, result := t.result } := by
  rw [h]; rfl

theorem chienUnit_frame (h : t = chienUnit s) :
    t = { s with root := t.root, loc := t.loc, nroot := t.nroot, status := t.status, result := t.result } := by
  rw [h, chienUnit_eq]

theorem forneyUnit_frame (h : t = forneyUnit s) :
    t = { s with cw := t.cw, omega := t.omega, status := t.status, result := t.result, draws := t.draws } := by
  obtain ⟨-, heq⟩ | ⟨-, -, heq⟩ | ⟨-, -, -, heq⟩ | ⟨-, -, -, C, -, heq⟩ := forneyUnit_cases s <;> rw [h, heq] <;> rfl

/-- R161, R162: the corrector writes `CW` at the positions of the listed roots alone, and so does a zero derivative (U2). -/
theorem forneyUnit_cw_other (h : t = forneyUnit s) {pos : Nat}
    (hpos : ∀ rho, rho ∈ listedRoots s.root s.nroot.toNat → rootToPosition rho ≠ pos) :
    t.cw.coeff pos = s.cw.coeff pos := by
  obtain ⟨-, heq⟩ | ⟨-, -, heq⟩ | ⟨-, -, -, heq⟩ | ⟨-, -, -, C, hC, heq⟩ := forneyUnit_cases s <;> rw [h, heq]
  · rfl
  · rfl
  · exact scrubPositions_other _ _ _ _ _ hpos
  · exact (applyMagnitudes_ok _ _ _ _ _ _ hC).1 pos hpos

/-! ## DECODE (R164) -/

/-- R164: `t` differs from `s` in nothing but the registers that SYND, BMSOLVE and CHIEN write. -/
def EqualButSearch (s t : State) : Prop :=
  t = { s with
    syn := t.syn, allzero := t.allzero, lam := t.lam, deg := t.deg, ell := t.ell
    root := t.root, loc := t.loc, nroot := t.nroot, status := t.status, result := t.result }

theorem EqualButSearch.trans {u : State} (hst : EqualButSearch s t) (htu : EqualButSearch t u) : EqualButSearch s u := by
  rw [EqualButSearch, htu, hst]

theorem EqualButSearch.of_synd (h : t = syndUnit s) : EqualButSearch s t := by
  rw [EqualButSearch, syndUnit_frame h]

theorem EqualButSearch.of_bmsolve (h : t = bmsolveUnit s) : EqualButSearch s t := by
  rw [EqualButSearch, bmsolveUnit_frame h]

theorem EqualButSearch.of_chien (h : t = chienUnit s) : EqualButSearch s t := by
  rw [EqualButSearch, chienUnit_frame h]

/-- DECODE ends after SYND or after CHIEN, or goes on to FORNEY there. -/
theorem decodeUnit_search (s : State) :
    ∃ u, EqualButSearch s u ∧ (decodeUnit s = u ∨ decodeUnit s = forneyUnit u) := by
  have hsynd : EqualButSearch s (syndUnit s) := .of_synd rfl
  have hchien : EqualButSearch s (chienUnit (bmsolveUnit (syndUnit s))) :=
    (hsynd.trans (.of_bmsolve rfl)).trans (.of_chien rfl)
  obtain ⟨hv, h⟩ | ⟨-, -, h⟩ | ⟨-, -, -, h⟩ | ⟨-, -, -, h⟩ := decodeUnit_cases s
  · exact ⟨_, hsynd, .inl (h.trans (syndUnit_of_invalid hv).symm)⟩
  · exact ⟨_, hsynd, .inl h⟩
  · exact ⟨_, hchien, .inl h⟩
  · exact ⟨_, hchien, .inr h⟩

theorem decodeUnit_frame (h : t = decodeUnit s) :
    t = { s with
      cw := t.cw, syn := t.syn, allzero := t.allzero, lam := t.lam, deg := t.deg, ell := t.ell
      root := t.root, loc := t.loc, nroot := t.nroot, omega := t.omega
      status := t.status, result := t.result, draws := t.draws } := by
  obtain ⟨u, hsearch, heq | heq⟩ := decodeUnit_search s
  · rw [h, heq, hsearch]
  · rw [forneyUnit_frame (h.trans heq), hsearch]

/-- The roots that FORNEY corrects at inside DECODE are those that DECODE leaves listed. -/
theorem decodeUnit_cw_other (h : t = decodeUnit s) {pos : Nat}
    (hpos : ∀ rho, rho ∈ listedRoots t.root t.nroot.toNat → rootToPosition rho ≠ pos) :
    t.cw.coeff pos = s.cw.coeff pos := by
  obtain ⟨u, hsearch, heq⟩ := decodeUnit_search s
  have hcw : u.cw = s.cw := by rw [hsearch]
  obtain heq | heq := heq
  · rw [h, heq, hcw]
  · have hforney : t = forneyUnit u := h.trans heq
    have hroot : t.root = u.root := by rw [forneyUnit_frame hforney]
    have hnroot : t.nroot = u.nroot := by rw [forneyUnit_frame hforney]
    rw [hroot, hnroot] at hpos
    rw [forneyUnit_cw_other hforney hpos, hcw]

end

/-- Settles O57: the frame of each unit, on the state before with the field context of the state after. -/
theorem frameOfFieldEncoderAndPacking : Obligations.FrameOfFieldEncoderAndPacking := by
  unfold Obligations.FrameOfFieldEncoderAndPacking
  refine fun s t => ⟨fun h => ?_, fun h => ?_, fun h => ?_, fun h => ?_, fun h => ?_⟩
  · exact complete_frame (eq_commandUnit_with_context h)
  · obtain h | h := h
    · exact gfmulUnit_frame (eq_commandUnit_with_context h)
    · exact gfinvUnit_frame (eq_commandUnit_with_context h)
  · exact encodeUnit_frame (eq_commandUnit_with_context h)
  · exact packUnit_frame (eq_commandUnit_of_exec h)
  · exact unpackUnit_frame (eq_commandUnit_of_exec h)

/-- Settles O58: the frame of each unit, on the state before with the field context of the state after; a root names the only
positions of `CW` that FORNEY, alone or inside DECODE, can write. -/
theorem frameOfTheDecoder : Obligations.FrameOfTheDecoder := by
  unfold Obligations.FrameOfTheDecoder
  refine fun s t => ⟨fun h => ?_, fun h => ?_, fun h => ?_, fun h => ?_, fun h => ?_⟩ <;>
    have hunit := eq_commandUnit_with_context h
  · exact syndUnit_frame hunit
  · exact bmsolveUnit_frame hunit
  · exact chienUnit_frame hunit
  · exact ⟨forneyUnit_frame hunit, fun _ _ hpos => forneyUnit_cw_other hunit hpos⟩
  · exact ⟨decodeUnit_frame hunit, fun _ _ hpos => decodeUnit_cw_other hunit hpos⟩

/-! ## The host's side (R40, R45 to R47, R233) -/

section
variable {s t : State} {r : HostReg} {v : BitVec r.width}

theorem hostWrite_eq_some (h : hostWrite s r v = some t) : s.cmdWritten = false ∧ writeElement s r v = some t := by
  cases hw : s.cmdWritten with
  | true => rw [hostWrite, if_pos hw] at h; cases h
  | false => rw [hostWrite_of_idle hw] at h; exact ⟨rfl, h⟩

/-- The six elements that are read-only to the host (log entry 6). -/
theorem writeElement_eq_none_iff (s : State) (r : HostReg) (v : BitVec r.width) :
    writeElement s r v = none ↔
      (∃ i, r = .omega i) ∨ r = .deg ∨ r = .ell ∨ r = .status ∨ r = .result ∨ r = .initDone := by
  cases r <;> simp [writeElement]

theorem ofBool_beq_one (b : BitVec 1) : BitVec.ofBool (b == 1) = b := by
  revert b; decide

theorem readElement_written (h : writeElement s r v = some t) : readElement t r = v := by
  cases r with
  | omega | deg | ell | status | result | initDone => cases h
  | allzero => cases h; exact ofBool_beq_one v
  | nroot | gfa | gfb | gfq | cmd => cases h; rfl
  | data i | eccS i | eccR i | eccO i | cw i | par i | syn i | lam i | root i | loc i =>
    cases h; exact coeff_set_self _ _ _ i.isLt

theorem coeff_set_other {w n : Nat} (b : Buffer (BitVec w) n) {i j : Fin n} (x : BitVec w) (h : j ≠ i) :
    (b.set i x).coeff j = b.coeff j := by
  rw [coeff_set _ _ _ _ i.isLt, if_neg (Fin.val_ne_of_ne h)]

/-- R40: no element aliases another: not one of the same buffer, by `coeff_set_other`, and not one of another register. -/
theorem readElement_other (h : writeElement s r v = some t) {q : HostReg} (hq : q ≠ r) :
    readElement t q = readElement s q := by
  cases r with
  | omega | deg | ell | status | result | initDone => cases h
  | allzero | nroot | gfa | gfb | gfq | cmd =>
    cases h
    cases q <;> simp [readElement] at hq ⊢
  | data i | eccS i | eccR i | eccO i | cw i | par i | syn i | lam i | root i | loc i =>
    cases h
    cases q <;> simp_all [readElement, coeff_set_other]

end

/-- Settles O60: a write that is an action leaves the block idle unless it is a write of `CMD`, and a read of an idle block gives
the element; while a command runs there is no action, and its step leaves the block idle. -/
theorem hostReadAfterWrite : Obligations.HostReadAfterWrite := by
  unfold Obligations.HostReadAfterWrite
  refine ⟨fun s t r v hr h => ?_, fun s v hs => hostWrite_of_idle hs .cmd v, fun s r v => ?_, fun s r => ?_, fun s t h => ?_⟩
  · obtain ⟨hs, hwrite⟩ := hostWrite_eq_some h
    have ht : t.cmdWritten = false := (writeElement_idle hr hwrite).trans hs
    refine ⟨?_, fun q hq => ?_⟩
    · rw [hostRead_of_idle ht, readElement_written hwrite]
    · rw [hostRead_of_idle ht, hostRead_of_idle hs, readElement_other hwrite hq]
  · cases hs : s.cmdWritten with
    | true => simp [hostWrite, hs]
    | false => simp [hostWrite_of_idle hs, writeElement_eq_none_iff]
  · cases hs : s.cmdWritten with
    | true => simp [hostRead, hs]
    | false => simp [hostRead_of_idle hs]
  · obtain ⟨hcmd, hidle⟩ := step_leaves_idle h
    exact ⟨hidle, (hostRead_of_idle hidle .cmd).trans (congrArg some hcmd)⟩

end Sys2Proof.Proofs
end

section
/-! PROOFS for spec/30_encoding.md: decode and encode agree (R64, R65, R69, R71), the four kinds of reserved and illegal
encodings (R69), and the bitstream of the ECC bytes (R66). -/

namespace Sys2Proof.Proofs

open Sys2Proof.Machine Sys2Proof.Laws

/-! ## The decoder and the encoder (R64, R65, R71) -/

/-- R65: a command word is its two fields side by side. -/
theorem eq_append_iff_fieldsOf (w : CommandWord) (r c : BitVec 4) : w = r ++ c ↔ fieldsOf w = ⟨r, c⟩ := by
  constructor
  · rintro rfl
    rw [fieldsOf, BitVec.extractLsb'_append_eq_left, BitVec.extractLsb'_append_eq_right]
  · intro h
    obtain ⟨rfl, rfl⟩ := CommandFields.mk.inj h
    have happend : w.extractLsb' 4 4 ++ w.extractLsb' 0 4 = w.extractLsb' 0 8 :=
      BitVec.extractLsb'_append_extractLsb'_eq_extractLsb' rfl
    rw [happend, BitVec.extractLsb'_eq_self]

/-- R64: a code names at most one command, and a command has one code. -/
theorem commandOfCode_eq_ok_iff (c : BitVec 4) (i : Instr) : commandOfCode c = .ok i ↔ c = codeOf i := by
  constructor
  · intro h
    unfold commandOfCode at h
    split at h <;> cases h <;> exact BitVec.eq_of_toNat_eq ‹_›
  · rintro rfl
    cases i <;> rfl

/-- R65, R69 (a): a word decodes to a command when its upper nibble is 0 and its code names the command. -/
theorem decode_eq_ok_iff (w : CommandWord) (i : Instr) :
    decode w = .ok i ↔ (fieldsOf w).reserved = 0 ∧ commandOfCode (fieldsOf w).op = .ok i := by
  simp only [decode, CommandFields.upperNibbleClear, beq_iff_eq]
  by_cases hr : (fieldsOf w).reserved = 0
  · rw [if_pos hr, and_iff_right hr]
  · rw [if_neg hr]
    exact ⟨nofun, fun ⟨h0, _⟩ => absurd h0 hr⟩

/-- Settles O3: both sides say that the upper nibble of `w` is 0 and its code is that of `i`. -/
theorem decodeAndEncodeAgree : Obligations.DecodeAndEncodeAgree := by
  unfold Obligations.DecodeAndEncodeAgree
  intro i w
  rw [decode_eq_ok_iff, commandOfCode_eq_ok_iff, encode, eq_append_iff_fieldsOf, CommandFields.mk.injEq]

/-- Settles O2: the decoder evaluated on each word. -/
theorem commandTableWordsDecode : Obligations.CommandTableWordsDecode := by
  unfold Obligations.CommandTableWordsDecode
  decide

/-! ## Reserved and illegal encodings (R69) -/

theorem encode_toNat_bounds (i : Instr) : 1 ≤ (encode i).toNat ∧ (encode i).toNat ≤ 13 := by
  cases i <;> decide

/-- R69 (a): a word outside 1..13 is the encoding of no command. -/
theorem exists_decode_error {w : CommandWord} (h : w.toNat = 0 ∨ 14 ≤ w.toNat) : ∃ e, decode w = .error e := by
  cases hd : decode w with
  | error e => exact ⟨e, rfl⟩
  | ok i =>
    obtain rfl := (decodeAndEncodeAgree i w).mp hd
    have := encode_toNat_bounds i
    omega

/-- R69 (a), R65: a step with a written word that names no command ends with BadCommand, with the write taken up. -/
theorem step_of_decode_error {s : State} {e : DecodeError} (hw : s.cmdWritten = true) (hd : decode s.cmd = .error e) :
    step s = .next (badCommand (takeCommand s)) := by
  rw [step, if_pos hw, hd]

theorem encodeUnit_of_invalid {s : State} (hv : allValid (dataPart s.cw) = false) :
    encodeUnit s = raise .invalidSymbol s := by
  simp [encodeUnit, rsEncode, hv]

theorem forneyUnit_of_invalid {s : State} (hv : allValid s.cw = false) : forneyUnit s = raise .invalidSymbol s := by
  simp [forneyUnit, hv]

theorem forneyUnit_of_nroot {s : State} (hv : allValid s.cw = true) (hn : 8 < s.nroot.toNat) :
    forneyUnit s = raise .uncorrectable s := by
  simp [forneyUnit, hv, hn]

theorem gfinvUnit_of_zero {s : State} (h : s.gfa = 0) : gfinvUnit s = raise .zeroInverse s := dif_pos h

/-- R67: a command that reads all of `CW` ends with InvalidSymbol when one container is invalid. -/
theorem exec_of_invalid {s : State} {i : Instr} (hi : i ∈ [Instr.synd, .forney, .decode])
    (hv : allValid s.cw = false) : exec i s = .next (raise .invalidSymbol (doInit primPoly s)) := by
  have hv' : allValid (doInit primPoly s).cw = false := by rwa [doInit_cw]
  rw [exec_eq_commandUnit]
  obtain rfl | rfl | rfl : i = .synd ∨ i = .forney ∨ i = .decode := by simpa using hi
  · exact congrArg _ (syndUnit_of_invalid hv')
  · exact congrArg _ (forneyUnit_of_invalid hv')
  · exact congrArg _ (decodeUnit_of_invalid hv')

/-- Settles O5: each kind is one branch of its unit, taken on the state after `do_init` (which writes no operand). -/
theorem reservedAndIllegalEncodings : Obligations.ReservedAndIllegalEncodings := by
  unfold Obligations.ReservedAndIllegalEncodings
  refine fun s => ⟨fun hw hword => ?_, fun pos hpos hinv => ⟨fun i hi => ?_, fun hdata => ?_⟩, fun hzero => ?_,
    fun hvalid hn => ?_⟩
  · obtain ⟨e, hd⟩ : ∃ e, decode s.cmd = .error e := exists_decode_error (by omega)
    exact step_of_decode_error hw hd
  · exact exec_of_invalid hi ((allValid_eq_false_iff _).mpr ⟨pos, hpos, hinv⟩)
  · have hv : allValid (dataPart (doInit primPoly s).cw) = false := by
      rw [allValid_eq_false_iff]
      exact ⟨pos, hdata, by rwa [coeff_dataPart _ _ hdata, doInit_cw]⟩
    rw [exec_eq_commandUnit]
    exact congrArg _ (encodeUnit_of_invalid hv)
  · have hzero' : (doInit primPoly s).gfa = 0 := by rwa [doInit_gfa]
    rw [exec_eq_commandUnit]
    exact congrArg _ (gfinvUnit_of_zero hzero')
  · have hv : allValid (doInit primPoly s).cw = true := by rwa [doInit_cw, allValid_iff]
    have hn' : 8 < (doInit primPoly s).nroot.toNat := by rwa [doInit_nroot]
    rw [exec_eq_commandUnit]
    exact congrArg _ (forneyUnit_of_nroot hv hn')

/-! ## The bitstream of the ECC bytes (R66) -/

/-- The low `k` bits as a remainder. -/
theorem toNat_and_mask {w : Nat} (x : BitVec w) {mask : BitVec w} {k : Nat} (hmask : mask.toNat = 2 ^ k - 1) :
    (x &&& mask).toNat = x.toNat % 2 ^ k := by
  rw [BitVec.toNat_and, hmask, Nat.and_two_pow_sub_one_eq_mod]

/-- A field of `a` bits above a field of `k` bits is a number of `a + k` bits. -/
theorem two_fields_lt {x y a k : Nat} (hx : x < 2 ^ a) (hy : y < 2 ^ k) : x * 2 ^ k + y < 2 ^ (a + k) := by
  rw [Nat.pow_add, Nat.mul_comm x]
  exact Nat.mul_add_lt_mul_of_lt_of_lt hx hy

/-- Two bit fields side by side: nothing of the high one is shifted out, and the low one lies below it. -/
theorem toNat_shiftLeft_or {w : Nat} {hi lo : BitVec w} {a k : Nat} (hhi : hi.toNat < 2 ^ a) (hlo : lo.toNat < 2 ^ k)
    (hw : a + k ≤ w) : (hi <<< k ||| lo).toNat = hi.toNat * 2 ^ k + lo.toNat := by
  have hfit : hi.toNat * 2 ^ k < 2 ^ w :=
    (two_fields_lt hhi (Nat.two_pow_pos k)).trans_le (Nat.pow_le_pow_right Nat.two_pos hw)
  rw [BitVec.toNat_or, BitVec.toNat_shiftLeft, Nat.shiftLeft_eq, Nat.mod_eq_of_lt hfit, ← Nat.shiftLeft_eq,
    Nat.shiftLeft_add_eq_or_of_lt hlo]

/-- The bits from `j` on of a word of `j + k` bits. -/
theorem toNat_ushiftRight_lt {w : Nat} (x : BitVec w) {j k : Nat} (hw : j + k = w) : (x >>> j).toNat < 2 ^ k := by
  rw [BitVec.toNat_ushiftRight, Nat.shiftRight_eq_div_pow]
  exact Nat.div_lt_of_lt_mul (by rw [← Nat.pow_add, hw]; exact x.isLt)

/-- R180: a byte that holds the low `a` bits of one symbol above the high `k` bits of the symbol before it. -/
theorem packByte_toNat (hi lo : Symbol) {mask : Symbol} (a k j : Nat) (hmask : mask.toNat = 2 ^ a - 1)
    (hbyte : a + k = 8) (hsymbol : j + k = 10) :
    (((hi &&& mask) <<< k ||| lo >>> j).setWidth 8).toNat = hi.toNat % 2 ^ a * 2 ^ k + lo.toNat / 2 ^ j := by
  have hhigh : (hi &&& mask).toNat < 2 ^ a := by
    rw [toNat_and_mask hi hmask]; exact Nat.mod_lt _ (Nat.two_pow_pos a)
  have hlow := toNat_ushiftRight_lt lo hsymbol
  have hlt : (hi &&& mask).toNat * 2 ^ k + (lo >>> j).toNat < 2 ^ 8 := hbyte ▸ two_fields_lt hhigh hlow
  rw [BitVec.toNat_setWidth, toNat_shiftLeft_or hhigh hlow (by omega), Nat.mod_eq_of_lt hlt, toNat_and_mask hi hmask,
    BitVec.toNat_ushiftRight, Nat.shiftRight_eq_div_pow]

/-- R181: a symbol that holds the low `a` bits of one byte above the high `k` bits of the byte before it. -/
theorem unpackSymbol_toNat (hi lo : Byte) {mask : Byte} (a k j : Nat) (hmask : mask.toNat = 2 ^ a - 1)
    (hsymbol : a + k = 10) (hbyte : j + k = 8) :
    ((hi &&& mask).setWidth 10 <<< k ||| (lo >>> j).setWidth 10).toNat =
      hi.toNat % 2 ^ a * 2 ^ k + lo.toNat / 2 ^ j := by
  have hwide (x : Byte) : (x.setWidth 10).toNat = x.toNat := BitVec.toNat_setWidth_of_le (by decide)
  have hhigh : ((hi &&& mask).setWidth 10).toNat < 2 ^ a := by
    rw [hwide, toNat_and_mask hi hmask]; exact Nat.mod_lt _ (Nat.two_pow_pos a)
  have hlow : ((lo >>> j).setWidth 10).toNat < 2 ^ k := by
    rw [hwide]; exact toNat_ushiftRight_lt lo hbyte
  rw [toNat_shiftLeft_or hhigh hlow hsymbol.le, hwide, hwide, toNat_and_mask hi hmask, BitVec.toNat_ushiftRight,
    Nat.shiftRight_eq_div_pow]

theorem packGroup_toNat (s0 s1 s2 s3 : Symbol) :
    (packGroup s0 s1 s2 s3).map BitVec.toNat =
      [s0.toNat % 2 ^ 8, s1.toNat % 2 ^ 6 * 2 ^ 2 + s0.toNat / 2 ^ 8, s2.toNat % 2 ^ 4 * 2 ^ 4 + s1.toNat / 2 ^ 6,
        s3.toNat % 2 ^ 2 * 2 ^ 6 + s2.toNat / 2 ^ 4, s3.toNat / 2 ^ 2] := by
  have hfirst : ((s0 &&& 0xFF).setWidth 8).toNat = s0.toNat % 2 ^ 8 := by
    rw [BitVec.toNat_setWidth, toNat_and_mask s0 (k := 8) rfl, Nat.mod_mod]
  have hlast : ((s3 >>> 2).setWidth 8).toNat = s3.toNat / 2 ^ 2 := by
    rw [BitVec.toNat_setWidth, Nat.mod_eq_of_lt (toNat_ushiftRight_lt s3 rfl), BitVec.toNat_ushiftRight,
      Nat.shiftRight_eq_div_pow]
  simp only [packGroup, List.map_cons, List.map_nil]
  rw [hfirst, packByte_toNat s1 s0 6 2 8 rfl rfl rfl, packByte_toNat s2 s1 4 4 6 rfl rfl rfl,
    packByte_toNat s3 s2 2 6 4 rfl rfl rfl, hlast]

theorem unpackGroup_toNat (b0 b1 b2 b3 b4 : Byte) :
    (unpackGroup b0 b1 b2 b3 b4).map BitVec.toNat =
      [b1.toNat % 2 ^ 2 * 2 ^ 8 + b0.toNat, b2.toNat % 2 ^ 4 * 2 ^ 6 + b1.toNat / 2 ^ 2,
        b3.toNat % 2 ^ 6 * 2 ^ 4 + b2.toNat / 2 ^ 4, b4.toNat * 2 ^ 2 + b3.toNat / 2 ^ 6] := by
  have hfirst := unpackSymbol_toNat b1 b0 2 8 0 (mask := 0x03) rfl rfl rfl
  have hlast := unpackSymbol_toNat b4 b3 8 2 6 (mask := 0xFF) rfl rfl rfl
  rw [BitVec.ushiftRight_zero, Nat.pow_zero, Nat.div_one] at hfirst
  rw [show (0xFF : Byte) = BitVec.allOnes 8 from rfl, BitVec.and_allOnes, Nat.mod_eq_of_lt b4.isLt] at hlast
  simp only [unpackGroup, List.map_cons, List.map_nil]
  rw [hfirst, unpackSymbol_toNat b2 b1 4 6 2 rfl rfl rfl, unpackSymbol_toNat b3 b2 6 4 4 rfl rfl rfl, hlast]

/-- R66, R180: the five bytes are the base-256 digits of the number whose base-1024 digits are the four symbols. -/
theorem ofDigits_packGroup (s0 s1 s2 s3 : Symbol) :
    Nat.ofDigits (2 ^ 8) ((packGroup s0 s1 s2 s3).map BitVec.toNat) =
      Nat.ofDigits (2 ^ 10) ([s0, s1, s2, s3].map BitVec.toNat) := by
  rw [packGroup_toNat]
  simp only [List.map_cons, List.map_nil, Nat.ofDigits_cons, Nat.ofDigits_nil]
  omega

/-- R66, R181: the four symbols are the base-1024 digits of the number whose base-256 digits are the five bytes. -/
theorem ofDigits_unpackGroup (b0 b1 b2 b3 b4 : Byte) :
    Nat.ofDigits (2 ^ 10) ((unpackGroup b0 b1 b2 b3 b4).map BitVec.toNat) =
      Nat.ofDigits (2 ^ 8) ([b0, b1, b2, b3, b4].map BitVec.toNat) := by
  rw [unpackGroup_toNat]
  simp only [List.map_cons, List.map_nil, Nat.ofDigits_cons, Nat.ofDigits_nil]
  omega

/-- R66: the bytes of group `g` are made of the symbols of group `g`. -/
theorem pack_group (P : Buffer Symbol 8) {g : Nat} (hg : g < 2) :
    [(pack P).coeff (5 * g), (pack P).coeff (5 * g + 1), (pack P).coeff (5 * g + 2), (pack P).coeff (5 * g + 3),
        (pack P).coeff (5 * g + 4)] =
      packGroup (P.coeff (4 * g)) (P.coeff (4 * g + 1)) (P.coeff (4 * g + 2)) (P.coeff (4 * g + 3)) := by
  interval_cases g <;> rfl

theorem unpack_group (E : Buffer Byte 10) {g : Nat} (hg : g < 2) :
    [(unpack E).coeff (4 * g), (unpack E).coeff (4 * g + 1), (unpack E).coeff (4 * g + 2),
        (unpack E).coeff (4 * g + 3)] =
      unpackGroup (E.coeff (5 * g)) (E.coeff (5 * g + 1)) (E.coeff (5 * g + 2)) (E.coeff (5 * g + 3))
        (E.coeff (5 * g + 4)) := by
  interval_cases g <;> rfl

/-- Settles O45: the two sides are the numbers that the digits of the group spell, by `ofDigits_packGroup` and
`ofDigits_unpackGroup`. -/
theorem packIsTheLittleEndianBitstream : Obligations.PackIsTheLittleEndianBitstream := by
  unfold Obligations.PackIsTheLittleEndianBitstream
  refine ⟨fun P g hg => ?_, fun E g hg => ?_⟩
  · have hdigits := ofDigits_packGroup (P.coeff (4 * g)) (P.coeff (4 * g + 1)) (P.coeff (4 * g + 2))
      (P.coeff (4 * g + 3))
    rw [← pack_group P hg] at hdigits
    simp only [List.map_cons, List.map_nil, Nat.ofDigits_cons, Nat.ofDigits_nil] at hdigits
    omega
  · have hdigits := ofDigits_unpackGroup (E.coeff (5 * g)) (E.coeff (5 * g + 1)) (E.coeff (5 * g + 2))
      (E.coeff (5 * g + 3)) (E.coeff (5 * g + 4))
    rw [← unpack_group E hg] at hdigits
    simp only [List.map_cons, List.map_nil, Nat.ofDigits_cons, Nat.ofDigits_nil] at hdigits
    omega

end Sys2Proof.Proofs
end

section
/-! PROOFS for spec/40_field_arith.md: the initialisation and who runs it (R91, R94, R103), the tables (R92, R93, R99), the field
product as a product of polynomials and the inverse (R90, R95, R96), and GFMUL and GFINV (R100, R101). -/

namespace Sys2Proof.Proofs

open Sys2Proof.Machine Sys2Proof.Laws Sys2Proof.Safety

/-! ## The field tables (R92, R93, R99) -/

/-- R92: each entry is the doubling of the one before. -/
theorem exp_coeff_succ (p : PrimPoly) {i : Nat} (h : i < 1022) :
    (buildField p).exp.coeff (i + 1) = xtimes p.bits ((buildField p).exp.coeff i) := by
  rw [exp_coeff p _ (Nat.succ_lt_succ h), exp_coeff p _ (Nat.lt_succ_of_lt h), alphaPow_eq, alphaPow_eq,
    Function.iterate_succ_apply']

/-- R90: a non-zero element is one entry of the forward table and no other. -/
theorem existsUnique_exp_coeff (p : PrimPoly) {v : Symbol} (hv : v ≠ 0) :
    ∃! i, i < 1023 ∧ (buildField p).exp.coeff i = v := by
  obtain ⟨e, he, rfl⟩ := exists_alphaPow p v hv
  refine ⟨e, ⟨he, exp_coeff p e he⟩, fun i ⟨hi, hiv⟩ => ?_⟩
  rw [exp_coeff p i hi] at hiv
  exact alphaPow_injective p hi he hiv

/-- R93: `LOG[EXP[i]] = i`. -/
theorem gfLog_exp_coeff (p : PrimPoly) {i : Nat} (h : i < 1023) :
    gfLog (buildField p) ((buildField p).exp.coeff i) = .exp ⟨i, h⟩ := by
  rw [exp_coeff p i h, gfLog_alphaPow_lt]

/-- R99: the other direction of `gfExp_gfLog`. -/
theorem gfLog_gfExp (p : PrimPoly) (l : LogForm) : gfLog (buildField p) (gfExp (buildField p) l) = l := by
  cases l with
  | logz => exact gfLog_zero p
  | exp e => exact gfLog_exp_coeff p e.isLt

/-- Settles O10: entry i is the i-fold doubling of 1, these entries are distinct and reach every non-zero element, and `LOG`
finds the index of an entry. -/
theorem fieldTablesOfEveryPrimitivePolynomial : Obligations.FieldTablesOfEveryPrimitivePolynomial := by
  unfold Obligations.FieldTablesOfEveryPrimitivePolynomial
  exact fun p => ⟨rfl, fun _ hi => exp_coeff_succ p hi, fun _ hv => existsUnique_exp_coeff p hv,
    fun _ hi => gfLog_exp_coeff p hi, gfLog_zero p, gfExp_gfLog p, gfLog_gfExp p⟩

/-! ## The initialisation (R91, R94, R103) -/

theorem exec_init (s : State) : exec .init s = .next (complete 0 (doInit primPoly s)) := rfl

/-- Settles O7: the two branches of `do_init`; the example is entry 10 of the default tables. -/
theorem initCommandRule : Obligations.InitCommandRule := by
  unfold Obligations.InitCommandRule
  have h10 : (buildField primPoly).exp.coeff 10 = 0x009 := rfl
  refine ⟨fun s hs => ?_, fun s hs => ?_, h10, ?_⟩
  · rw [exec_init, doInit_of_not_done primPoly s hs]; rfl
  · rw [exec_init, doInit_of_done primPoly s hs]; rfl
  · rw [← h10]
    exact gfLog_exp_coeff primPoly (by decide)

/-- Settles O8: what one run leaves is a fixed point of `do_init`, and INIT leaves such a state with `STATUS` Ok. -/
theorem initialisationIsIdempotent : Obligations.InitialisationIsIdempotent := by
  unfold Obligations.InitialisationIsIdempotent
  refine ⟨fun p k s => ?_, fun s t h => ?_⟩
  · rw [Function.iterate_succ_apply]
    exact Function.iterate_fixed (doInit_doInit p p s) k
  · obtain rfl : t = complete 0 (doInit primPoly s) := eq_commandUnit_of_exec h
    have hdone : (complete 0 (doInit primPoly s)).initDone = true := doInit_initDone primPoly s
    rw [exec_init, doInit_of_done primPoly _ hdone]
    rfl

theorem unitStart_of_initialising {i : Instr} (hp : i ≠ .pack) (hu : i ≠ .unpack) (p : PrimPoly) (s : State) :
    unitStart p i s = doInit p s := by
  cases i
  case pack => exact absurd rfl hp
  case unpack => exact absurd rfl hu
  all_goals rfl

/-- Settles O16: no unit writes the field context (`commandUnit_sameContext`), so a command leaves that on which its unit
starts. -/
theorem lazyInitialisation : Obligations.LazyInitialisation := by
  unfold Obligations.LazyInitialisation
  refine ⟨fun i s t hp hu h => ?_, fun i s t hi h => ?_, fun s t e hd h => ?_⟩
  · have hsame : SameContext (doInit primPoly s) t := by
      rw [eq_commandUnit_of_exec h, unitStart_of_initialising hp hu]
      exact commandUnit_sameContext i _
    exact ⟨hsame.initDone.trans (doInit_initDone primPoly s), hsame.tables, hsame.gen⟩
  · rw [eq_commandUnit_of_exec h]
    obtain rfl | rfl := hi <;> exact ⟨rfl, rfl, rfl⟩
  · obtain ⟨-, rfl⟩ | ⟨i, -, hi, -⟩ | ⟨-, -, -, rfl⟩ := step_cases h
    · exact ⟨rfl, rfl, rfl⟩
    · rw [hd] at hi
      cases hi
    · exact ⟨rfl, rfl, rfl⟩

/-! ## The field product is the product of polynomials (R90, R95)

A 20-bit polynomial is evaluated at α: its low ten bits, plus α^10 times its high ten bits. This value is linear, a shift
doubles it, and `PRIM_POLY` has the value 0; so long division keeps it, and the carry-less product has the value `gf_mul`. -/

/-- R92: no reduction happens below x^10. -/
theorem iterate_xtimes_one (p : BitVec 11) {i : Nat} (h : i < 10) : (xtimes p)^[i] 1 = BitVec.twoPow 10 i := by
  induction i with
  | zero => rfl
  | succ i ih =>
    have hbit : (BitVec.twoPow 10 i).getLsbD 9 = false := by
      rw [BitVec.getLsbD_twoPow, decide_eq_false (by omega : ¬ i = 9), Bool.and_false]
    rw [Function.iterate_succ_apply', ih (Nat.lt_of_succ_lt h), xtimes, hbit, BitVec.twoPow_eq, BitVec.twoPow_eq,
      BitVec.shiftLeft_add]
    rfl

/-- R92: `EXP[10] = P[9:0]`, x^10 reduced. -/
theorem iterate_xtimes_one_ten (p : BitVec 11) : (xtimes p)^[10] 1 = p.setWidth 10 := by
  rw [Function.iterate_succ_apply', iterate_xtimes_one p (by decide), xtimes, if_pos (by decide)]
  exact BitVec.zero_xor

theorem xtimes_of_low (p : BitVec 11) {v : Symbol} (h : v.getLsbD 9 = false) : xtimes p v = v <<< 1 := by
  rw [xtimes, h]; rfl

/-- `xtimes` as a shift and a reduction. -/
theorem xtimes_eq_shift_xor (p : BitVec 11) (v : Symbol) :
    xtimes p v = (v <<< 1) ^^^ (if v.getLsbD 9 then p.setWidth 10 else 0) := by
  unfold xtimes
  split
  · rfl
  · exact BitVec.xor_zero.symm

/-- The value at α of a polynomial of degree at most 19. -/
def valueAtAlpha (p : BitVec 11) (v : BitVec 20) : Symbol :=
  v.setWidth 10 ^^^ (xtimes p)^[10] ((v >>> 10).setWidth 10)

theorem valueAtAlpha_zero (p : BitVec 11) : valueAtAlpha p 0 = 0 := by
  rw [valueAtAlpha]
  simpa using iterate_xtimes_zero p 10

theorem valueAtAlpha_xor (p : BitVec 11) (u v : BitVec 20) :
    valueAtAlpha p (u ^^^ v) = valueAtAlpha p u ^^^ valueAtAlpha p v := by
  simp only [valueAtAlpha, BitVec.setWidth_xor, BitVec.ushiftRight_xor_distrib, iterate_xtimes_xor]
  ac_rfl

/-- `v` has no term x^n or above. -/
def DegreeBelow (n : Nat) (v : BitVec 20) : Prop := ∀ i, n ≤ i → v.getLsbD i = false

theorem DegreeBelow.mono {m n : Nat} {v : BitVec 20} (h : DegreeBelow m v) (hmn : m ≤ n) : DegreeBelow n v :=
  fun i hi => h i (hmn.trans hi)

theorem degreeBelow_setWidth {w : Nat} (a : BitVec w) : DegreeBelow w (a.setWidth 20) := by
  intro i hi
  rw [BitVec.getLsbD_setWidth, BitVec.getLsbD_of_ge a i hi, Bool.and_false]

/-- A polynomial of degree below 10 is its own value. -/
theorem valueAtAlpha_of_low (p : BitVec 11) {v : BitVec 20} (h : DegreeBelow 10 v) :
    valueAtAlpha p v = v.setWidth 10 := by
  have hhigh : (v >>> 10).setWidth 10 = 0 := by
    ext i hi
    simp [h (10 + i) (by omega)]
  rw [valueAtAlpha, hhigh, iterate_xtimes_zero]
  exact BitVec.xor_zero

/-- The high half of a shifted polynomial takes up bit 9 of the low half. -/
theorem shiftLeft_one_highHalf (v : BitVec 20) :
    ((v <<< 1) >>> 10).setWidth 10 =
      ((v >>> 10).setWidth 10 <<< 1) ^^^ (if v.getLsbD 9 then (1 : Symbol) else 0) := by
  ext i hi
  cases i with
  | zero => cases hbit : v.getLsbD 9 <;> simpa [BitVec.getElem_shiftLeft] using hbit
  | succ i =>
    have hi' : 10 + (i + 1) < 20 := by omega
    have hcarried : (if v.getLsbD 9 then (1 : Symbol) else 0)[i + 1] = false := by split <;> simp
    rw [BitVec.getElem_xor, hcarried]
    simp [BitVec.getElem_shiftLeft, hi', BitVec.getLsbD_eq_getElem (x := v) (i := 10 + i) (by omega)]

/-- Shifting a polynomial multiplies its value by α; the term that the doubling of the low half reduces is the one that the
high half takes up. -/
theorem valueAtAlpha_shiftLeft_one (p : BitVec 11) {v : BitVec 20} (h : v.getLsbD 19 = false) :
    valueAtAlpha p (v <<< 1) = xtimes p (valueAtAlpha p v) := by
  have hlow : (v <<< 1).setWidth 10 = v.setWidth 10 <<< 1 :=
    BitVec.setWidth_shiftLeft_of_le (by decide)
  have htop : ((v >>> 10).setWidth 10).getLsbD 9 = false := by simpa using h
  have hcarry : (xtimes p)^[10] (if v.getLsbD 9 then (1 : Symbol) else 0) =
      if v.getLsbD 9 then p.setWidth 10 else 0 := by
    split
    · exact iterate_xtimes_one_ten p
    · exact iterate_xtimes_zero p 10
  calc valueAtAlpha p (v <<< 1)
      = (v.setWidth 10 <<< 1) ^^^ ((xtimes p)^[10] ((v >>> 10).setWidth 10 <<< 1) ^^^
          (if v.getLsbD 9 then p.setWidth 10 else 0)) := by
        rw [valueAtAlpha, hlow, shiftLeft_one_highHalf, iterate_xtimes_xor, hcarry]
    _ = xtimes p (v.setWidth 10) ^^^ (xtimes p)^[10] (xtimes p ((v >>> 10).setWidth 10)) := by
        rw [xtimes_eq_shift_xor p (v.setWidth 10), xtimes_of_low p htop, BitVec.getLsbD_setWidth]
        simp only [Nat.reduceLT, decide_true, Bool.true_and]
        ac_rfl
    _ = xtimes p (valueAtAlpha p v) := by
        rw [valueAtAlpha, xtimes_xor, ← Function.iterate_succ_apply, Function.iterate_succ_apply']

theorem valueAtAlpha_shiftLeft (p : BitVec 11) {v : BitVec 20} {k : Nat} (h : DegreeBelow (20 - k) v) :
    valueAtAlpha p (v <<< k) = (xtimes p)^[k] (valueAtAlpha p v) := by
  induction k with
  | zero => rw [BitVec.shiftLeft_zero]; rfl
  | succ k ih =>
    have htop : (v <<< k).getLsbD 19 = false := by
      rw [BitVec.getLsbD_shiftLeft, h (19 - k) (by omega), Bool.and_false]
    rw [BitVec.shiftLeft_add, valueAtAlpha_shiftLeft_one p htop, ih fun i hi => h i (by omega),
      Function.iterate_succ_apply']

/-! ### Long division -/

/-- PRIM_POLY(α) = 0: its low part is α^10 reduced, and its bit 10 is α^10. -/
theorem valueAtAlpha_modulus {p : BitVec 11} (hp : p.getLsbD 10 = true) : valueAtAlpha p (p.setWidth 20) = 0 := by
  have hhigh : ((p.setWidth 20) >>> 10).setWidth 10 = (1 : Symbol) := by
    ext i hi
    cases i with
    | zero => simpa using hp
    | succ i => simp [BitVec.getLsbD_of_ge p (10 + (i + 1)) (by omega)]
  rw [valueAtAlpha, hhigh, iterate_xtimes_one_ten]
  simp

theorem valueAtAlpha_modulus_shiftLeft {p : BitVec 11} (hp : p.getLsbD 10 = true) {k : Nat} (h : k < 9) :
    valueAtAlpha p (p.setWidth 20 <<< k) = 0 := by
  rw [valueAtAlpha_shiftLeft p ((degreeBelow_setWidth p).mono (by omega)), valueAtAlpha_modulus hp, iterate_xtimes_zero]

/-- One turn of the long division, which cancels the term x^(18 - j). -/
def divisionStep (p : BitVec 11) (v : BitVec 20) (j : Nat) : BitVec 20 :=
  if v.getLsbD (18 - j) then v ^^^ (p.setWidth 20 <<< (18 - j - 10)) else v

theorem polyReduce_eq_foldl (p : BitVec 11) (v : BitVec 20) :
    polyReduce p v = (List.range 9).foldl (divisionStep p) v := rfl

theorem valueAtAlpha_divisionStep {p : BitVec 11} (hp : p.getLsbD 10 = true) (v : BitVec 20) (j : Nat) :
    valueAtAlpha p (divisionStep p v j) = valueAtAlpha p v := by
  unfold divisionStep
  split
  · rw [valueAtAlpha_xor, valueAtAlpha_modulus_shiftLeft hp (by omega)]
    exact BitVec.xor_zero
  · rfl

theorem divisionStep_degreeBelow {p : BitVec 11} (hp : p.getLsbD 10 = true) {v : BitVec 20} {j : Nat} (hj : j < 9)
    (h : DegreeBelow (19 - j) v) : DegreeBelow (18 - j) (divisionStep p v j) := by
  intro i hi
  unfold divisionStep
  obtain rfl | hlt := Nat.eq_or_lt_of_le hi
  · have hlead : (p.setWidth 20 <<< (18 - j - 10)).getLsbD (18 - j) = true := by
      have hin : 18 - j < 20 ∧ ¬ 18 - j < 18 - j - 10 := by omega
      have hshift : 18 - j - (18 - j - 10) = 10 := by omega
      simp [hin, hshift, hp]
    split
    · rename_i hbit
      rw [BitVec.getLsbD_xor, hbit, hlead]; rfl
    · exact eq_false_of_ne_true ‹_›
  · have hv : v.getLsbD i = false := h i (by omega)
    have hp' : (p.setWidth 20 <<< (18 - j - 10)).getLsbD i = false := by
      rw [BitVec.getLsbD_shiftLeft, degreeBelow_setWidth p (i - (18 - j - 10)) (by omega), Bool.and_false]
    split
    · rw [BitVec.getLsbD_xor, hv, hp']; rfl
    · exact hv

/-- Long division keeps the value at α, and each turn lowers the bound of the degree by one. -/
theorem foldl_divisionStep {p : BitVec 11} (hp : p.getLsbD 10 = true) {v : BitVec 20} (hv : DegreeBelow 19 v) {n : Nat}
    (hn : n ≤ 9) :
    valueAtAlpha p ((List.range n).foldl (divisionStep p) v) = valueAtAlpha p v ∧
      DegreeBelow (19 - n) ((List.range n).foldl (divisionStep p) v) := by
  induction n with
  | zero => exact ⟨rfl, hv⟩
  | succ n ih =>
    obtain ⟨hvalue, hdeg⟩ := ih (Nat.le_of_succ_le hn)
    rw [List.range_succ, List.foldl_append, List.foldl_cons, List.foldl_nil]
    exact ⟨(valueAtAlpha_divisionStep hp _ n).trans hvalue, (divisionStep_degreeBelow hp hn hdeg).mono (by omega)⟩

/-- The remainder of the long division is the value at α. -/
theorem polyReduce_setWidth {p : BitVec 11} (hp : p.getLsbD 10 = true) {v : BitVec 20} (hv : DegreeBelow 19 v) :
    (polyReduce p v).setWidth 10 = valueAtAlpha p v := by
  obtain ⟨hvalue, hdeg⟩ := foldl_divisionStep hp hv (n := 9) (by decide)
  rw [polyReduce_eq_foldl, ← valueAtAlpha_of_low p hdeg, hvalue]

/-! ### The carry-less product -/

/-- One turn of the carry-less product. -/
def productStep (a b : Symbol) (v : BitVec 20) (i : Nat) : BitVec 20 :=
  if b.getLsbD i then v ^^^ (a.setWidth 20 <<< i) else v

theorem polyProduct_eq_foldl (a b : Symbol) : polyProduct a b = (List.range 10).foldl (productStep a b) 0 := rfl

theorem valueAtAlpha_symbol_shiftLeft (p : BitVec 11) (a : Symbol) {k : Nat} (h : k < 10) :
    valueAtAlpha p (a.setWidth 20 <<< k) = (xtimes p)^[k] a := by
  have hlow : valueAtAlpha p (a.setWidth 20) = a := by
    rw [valueAtAlpha_of_low p (degreeBelow_setWidth a)]
    simp
  rw [valueAtAlpha_shiftLeft p ((degreeBelow_setWidth a).mono (by omega)), hlow]

theorem productStep_degreeBelow (a b : Symbol) {v : BitVec 20} {i : Nat} (hi : i < 10) (h : DegreeBelow 19 v) :
    DegreeBelow 19 (productStep a b v i) := by
  intro k hk
  unfold productStep
  split
  · rw [BitVec.getLsbD_xor, h k hk, BitVec.getLsbD_shiftLeft, degreeBelow_setWidth a (k - i) (by omega),
      Bool.and_false, Bool.xor_false]
  · exact h k hk

/-- The `n` low terms of a polynomial. -/
def lowTerms (b : Symbol) (n : Nat) : Symbol := (b.setWidth n).setWidth 10

theorem lowTerms_zero (b : Symbol) : lowTerms b 0 = 0 := by
  ext i hi
  simp [lowTerms]

theorem lowTerms_succ (b : Symbol) (n : Nat) :
    lowTerms b (n + 1) = lowTerms b n ^^^ (if b.getLsbD n then BitVec.twoPow 10 n else 0) := by
  cases hb : b.getLsbD n with
  | false => simpa [lowTerms] using BitVec.setWidth_setWidth_succ_eq_setWidth_setWidth_of_getLsbD_false hb
  | true =>
    have hor : lowTerms b (n + 1) = lowTerms b n ||| BitVec.twoPow 10 n :=
      BitVec.setWidth_setWidth_succ_eq_setWidth_setWidth_or_twoPow_of_getLsbD_true hb
    rw [hor]
    ext i hi
    by_cases hin : i = n
    · simp [lowTerms, hin]
    · simp [hin]

/-- A turn adds `a` times the term of `b` that it looks at. -/
theorem valueAtAlpha_productStep (p : PrimPoly) (a b : Symbol) (v : BitVec 20) {i : Nat} (hi : i < 10) :
    valueAtAlpha p.bits (productStep a b v i) =
      valueAtAlpha p.bits v ^^^ gfMul (buildField p) a (if b.getLsbD i then BitVec.twoPow 10 i else 0) := by
  unfold productStep
  split
  · rw [valueAtAlpha_xor, valueAtAlpha_symbol_shiftLeft p.bits a hi, ← iterate_xtimes_one p.bits hi, ← alphaPow_eq,
      gfMul_comm, gfMul_alphaPow_left]
  · exact ((congrArg _ (gfMul_zero_right _ a)).trans BitVec.xor_zero).symm

/-- After the turns 0, ..., n - 1 the accumulator has the value of `a` times the `n` low terms of `b`. -/
theorem foldl_productStep (p : PrimPoly) (a b : Symbol) {n : Nat} (hn : n ≤ 10) :
    valueAtAlpha p.bits ((List.range n).foldl (productStep a b) 0) = gfMul (buildField p) a (lowTerms b n) ∧
      DegreeBelow 19 ((List.range n).foldl (productStep a b) 0) := by
  induction n with
  | zero =>
    refine ⟨?_, fun i _ => BitVec.getLsbD_zero⟩
    rw [lowTerms_zero]
    exact (valueAtAlpha_zero p.bits).trans (gfMul_zero_right _ a).symm
  | succ n ih =>
    obtain ⟨hvalue, hdeg⟩ := ih (Nat.le_of_succ_le hn)
    rw [List.range_succ, List.foldl_append, List.foldl_cons, List.foldl_nil]
    refine ⟨?_, productStep_degreeBelow a b hn hdeg⟩
    rw [valueAtAlpha_productStep p a b _ hn, hvalue, lowTerms_succ, gfMul_xor_right]

/-- R8: bit 10 of `PRIM_POLY` is set. -/
theorem primPoly_bits_ten (p : PrimPoly) : p.bits.getLsbD 10 = true := by
  obtain ⟨h, -⟩ := (primitivityCheckIsTheBuildersCheck p.bits).mp p.primitive
  exact h

/-- R95: the product through the tables is the product of the polynomials, modulo `PRIM_POLY`. -/
theorem gfMul_eq_polyMulMod (p : PrimPoly) (a b : Symbol) : gfMul (buildField p) a b = polyMulMod p.bits a b := by
  obtain ⟨hvalue, hdeg⟩ := foldl_productStep p a b (n := 10) le_rfl
  rw [← polyProduct_eq_foldl] at hvalue hdeg
  have hall : lowTerms b 10 = b := by simp [lowTerms]
  rw [polyMulMod, polyReduce_setWidth (primPoly_bits_ten p) hdeg, hvalue, hall]

/-! ## GFMUL (R100) -/

theorem exec_gfmul (s : State) :
    exec .gfmul s =
      .next { doInit primPoly s with
        gfq := gfMul (doInit primPoly s).tables s.gfa s.gfb, status := .ok, result := 0 } := by
  rw [← doInit_gfa primPoly s, ← doInit_gfb primPoly s]
  rfl

theorem gfq_of_gfmul {s t : State} (h : exec .gfmul s = .next t) :
    t.gfq = gfMul (doInit primPoly s).tables s.gfa s.gfb := by
  rw [exec_gfmul] at h
  cases h
  rfl

/-- Settles O17: the unit after `do_init`; the example is evaluated in the fast form of the default field. -/
theorem gfmulCommandRule : Obligations.GfmulCommandRule := by
  unfold Obligations.GfmulCommandRule
  refine ⟨exec_gfmul, fun s t hzero h => ?_, fun s t ⟨htables, _⟩ ha hb h => ?_⟩
  · rw [gfq_of_gfmul h]
    obtain hzero | hzero := hzero <;> rw [hzero]
    · exact gfMul_zero_left _ _
    · exact gfMul_zero_right _ _
  · rw [gfq_of_gfmul h, htables, ha, hb, Fast.gfMul_eq]
    decide

/-- Settles O19: GFMUL computes with the tables of `p`, and there `gf_mul` is the product of polynomials. -/
theorem gfmulIsThePolynomialProduct : Obligations.GfmulIsThePolynomialProduct := by
  unfold Obligations.GfmulIsThePolynomialProduct
  intro p s ⟨htables, _⟩
  refine ⟨_, exec_gfmul s, ?_, rfl⟩
  rw [← gfMul_eq_polyMulMod, ← htables]

/-! ## GFINV (R96, R101) -/

/-- R96: the inverse is the only element whose product with `a` is 1. -/
theorem gfMul_eq_one_iff (p : PrimPoly) {a : Symbol} (h : a ≠ 0) (b : Symbol) :
    gfMul (buildField p) a b = 1 ↔ b = gfInv (buildField p) a h := by
  constructor
  · intro hb
    exact gfMul_left_cancel p a b _ h (hb.trans (gfMul_gfInv p a h).symm)
  · rintro rfl
    exact gfMul_gfInv p a h

theorem exec_gfinv_of_zero {s : State} (h : s.gfa = 0) :
    exec .gfinv s = .next { doInit primPoly s with status := .zeroInverse, result := 0 } := by
  obtain ⟨-, -, hzero, -⟩ := reservedAndIllegalEncodings s
  exact hzero h

theorem exec_gfinv_of_ne_zero (s : State) (h : s.gfa ≠ 0) :
    exec .gfinv s =
      .next { doInit primPoly s with
        gfq := gfInv (doInit primPoly s).tables s.gfa h, status := .ok, result := 0 } := by
  have h' : (doInit primPoly s).gfa ≠ 0 := by rwa [doInit_gfa]
  rw [exec_eq_execWith, execWith, gfinvCommand, gfinvUnit, dif_neg h']
  simp only [doInit_gfa]
  rfl

theorem gfq_of_gfinv {p : PrimPoly} {s t : State} (hs : RunsOver p s) (hne : s.gfa ≠ 0) (h : exec .gfinv s = .next t) :
    t.gfq = gfInv (buildField p) s.gfa hne := by
  obtain ⟨htables, -⟩ := hs
  rw [exec_gfinv_of_ne_zero s hne] at h
  cases h
  rw [← htables]

/-- Settles O18: the two branches of the unit after `do_init`; 1 · 1 = 1 gives the inverse of 1, and the example is evaluated
in the fast form of the default field. -/
theorem gfinvCommandRule : Obligations.GfinvCommandRule := by
  unfold Obligations.GfinvCommandRule
  refine ⟨fun _ => exec_gfinv_of_zero, exec_gfinv_of_ne_zero, rfl, fun p s t hs ha h => ?_, fun s t hs ha h => ?_⟩
  · have hne : s.gfa ≠ 0 := by rw [ha]; decide
    rw [gfq_of_gfinv hs hne h, eq_comm, ← gfMul_eq_one_iff p hne, ha]
    exact gfMul_one_left p 1
  · have hne : s.gfa ≠ 0 := by rw [ha]; decide
    rw [gfq_of_gfinv hs hne h, Fast.gfInv_eq, ha]
    decide

/-- Settles O20: `GFQ` is `gf_inv(GFA)`, the only solution of `gf_mul(GFA, b) = 1`, and `gf_mul` is the product of polynomials. -/
theorem gfinvGivesTheUniqueInverse : Obligations.GfinvGivesTheUniqueInverse := by
  unfold Obligations.GfinvGivesTheUniqueInverse
  intro p s hs hne
  have hexec := exec_gfinv_of_ne_zero s hne
  refine ⟨_, hexec, rfl, fun b => ?_⟩
  rw [← gfMul_eq_polyMulMod, gfq_of_gfinv hs hne hexec, gfMul_eq_one_iff p hne]

end Sys2Proof.Proofs
end

section
/-! PROOFS for spec/41_generator_poly.md: the generator polynomial as the product of its linear factors, its roots and its log
form (R110 to R112), and the table of the default `PRIM_POLY` (R113). -/

namespace Sys2Proof.Proofs

open Sys2Proof.Machine Sys2Proof.Laws

/-! ## A polynomial at a power of α -/

/-- A sum with its first term taken out. -/
theorem xorSum_succ_front (k : Nat) (f : Nat → Symbol) : xorSum (k + 1) f = f 0 ^^^ xorSum k (fun j => f (j + 1)) := by
  induction k with
  | zero => rw [xorSum_succ, xorSum_zero, xorSum_zero, BitVec.xor_comm]
  | succ k ih => rw [xorSum_succ, ih, xorSum_succ, BitVec.xor_assoc]

/-- The value at α^i of the polynomial with the coefficients `P`, the constant term first. -/
def valueAtPower (F : FieldTables) (P : List Symbol) (i : Nat) : Symbol :=
  xorSum P.length (fun j => gfMul F (P.getD j 0) (alphaPow F (i * j)))

/-- The constant term of P is its value at the exponent 0, and the rest is α^i times P shifted down. -/
theorem valueAtPower_cons (p : PrimPoly) (c : Symbol) (P : List Symbol) (i : Nat) :
    valueAtPower (buildField p) (c :: P) i =
      c ^^^ gfMul (buildField p) (alphaPow (buildField p) i) (valueAtPower (buildField p) P i) := by
  have hterm : ∀ j, gfMul (buildField p) (P.getD j 0) (alphaPow (buildField p) (i * (j + 1))) =
      gfMul (buildField p) (alphaPow (buildField p) i)
        (gfMul (buildField p) (P.getD j 0) (alphaPow (buildField p) (i * j))) := fun j => by
    rw [gfMul_comm _ (P.getD j 0), gfMul_comm _ (P.getD j 0), ← gfMul_assoc, gfMul_alphaPow, Nat.mul_succ, Nat.add_comm]
  have hconst : gfMul (buildField p) c (alphaPow (buildField p) (i * 0)) = c := by
    rw [Nat.mul_zero, alphaPow_zero]
    exact gfMul_one_right p c
  rw [valueAtPower, List.length_cons, xorSum_succ_front, List.getD_cons_zero, hconst]
  simp only [List.getD_cons_succ, hterm]
  rw [← gfMul_xorSum, valueAtPower]

/-! ## Multiplying by a linear factor (R111) -/

section
variable (F : FieldTables) (a : Symbol) (P : List Symbol)

theorem length_timesLinear : (timesLinear F a P).length = P.length + 1 := by
  simp [timesLinear]

/-- Coefficient j of P·(x ⊕ a): that of x·P plus that of P times a. Above the degree all three are 0. -/
theorem getD_timesLinear (j : Nat) :
    (timesLinear F a P).getD j 0 = (0#10 :: P).getD j 0 ^^^ gfMul F (P.getD j 0) a := by
  obtain hj | hj | hj := Nat.lt_trichotomy j P.length
  · rw [List.getD_eq_getElem _ _ (by rw [length_timesLinear]; omega),
      List.getD_eq_getElem _ _ (by rw [List.length_cons]; omega), List.getD_eq_getElem _ _ hj]
    simp [timesLinear, List.getElem_append_left, hj]
  · subst hj
    rw [List.getD_eq_getElem _ _ (by rw [length_timesLinear]; omega),
      List.getD_eq_getElem _ _ (by rw [List.length_cons]; omega), List.getD_eq_default _ _ le_rfl]
    simp [timesLinear]
  · have hlen : (timesLinear F a P).length ≤ j := (length_timesLinear F a P).le.trans hj
    rw [List.getD_eq_default _ _ hlen, List.getD_eq_default _ _ hj.le,
      List.getD_eq_default (0#10 :: P) _ (by simpa using hj)]
    simp

end

/-- P·(x ⊕ a) has the value of P times that of x ⊕ a. -/
theorem valueAtPower_timesLinear (p : PrimPoly) (a : Symbol) (P : List Symbol) (i : Nat) :
    valueAtPower (buildField p) (timesLinear (buildField p) a P) i =
      gfMul (buildField p) (alphaPow (buildField p) i ^^^ a) (valueAtPower (buildField p) P i) := by
  have hscaled : xorSum (P.length + 1) (fun j =>
      gfMul (buildField p) (gfMul (buildField p) (P.getD j 0) a) (alphaPow (buildField p) (i * j))) =
      gfMul (buildField p) a (valueAtPower (buildField p) P i) := by
    have htop : P.getD P.length 0 = 0#10 := List.getD_eq_default _ _ le_rfl
    rw [xorSum_succ, htop, gfMul_zero_left, gfMul_zero_left, BitVec.xor_zero, valueAtPower, gfMul_xorSum]
    exact xorSum_congr fun j _ => by rw [gfMul_comm _ _ a, gfMul_assoc]
  have hshifted := valueAtPower_cons p 0#10 P i
  rw [BitVec.zero_xor, valueAtPower, List.length_cons] at hshifted
  rw [valueAtPower, length_timesLinear, gfMul_xor_left, ← hshifted, ← hscaled, ← xorSum_xor]
  exact xorSum_congr fun j _ => by rw [getD_timesLinear, gfMul_xor_left]

/-! ## The product of the linear factors (R110) -/

/-- (x ⊕ α^1)(x ⊕ α^2) ... (x ⊕ α^k). -/
def linearProduct (F : FieldTables) : Nat → List Symbol
  | 0 => [1]
  | k + 1 => timesLinear F (alphaPow F (k + 1)) (linearProduct F k)

/-- R111: k rounds of the builder's loop, i = 2, ..., k + 1. -/
theorem foldl_timesLinear (F : FieldTables) (k : Nat) :
    (List.range' 2 k).foldl (fun acc i => timesLinear F (alphaPow F i) acc) (linearProduct F 1) =
      linearProduct F (k + 1) := by
  induction k with
  | zero => rfl
  | succ k ih =>
    rw [List.range'_1_concat, List.foldl_append, ih, List.foldl_cons, List.foldl_nil, Nat.add_comm 2 k]
    rfl

/-- R110: the builder, which starts at x ⊕ α^1, makes the product of the eight factors. -/
theorem generatorCoeffs_eq_linearProduct (p : PrimPoly) :
    generatorCoeffs (buildField p) = linearProduct (buildField p) 8 := by
  have hstart : linearProduct (buildField p) 1 = [alphaPow (buildField p) 1, 1] := by
    simp [linearProduct, timesLinear]
  rw [generatorCoeffs, ← hstart, foldl_timesLinear]

theorem length_linearProduct (F : FieldTables) (k : Nat) : (linearProduct F k).length = k + 1 := by
  induction k with
  | zero => rfl
  | succ k ih => rw [linearProduct, length_timesLinear, ih]

/-- The product is monic of degree k. -/
theorem linearProduct_leading (F : FieldTables) (k : Nat) : (linearProduct F k).getD k 0 = 1 := by
  induction k with
  | zero => rfl
  | succ k ih =>
    rw [linearProduct, getD_timesLinear, List.getD_cons_succ, ih, List.getD_eq_default _ _ (length_linearProduct F k).le]
    simp

/-- Its constant term is the product of the roots. -/
theorem linearProduct_constant (p : PrimPoly) (k : Nat) :
    (linearProduct (buildField p) k).getD 0 0 = alphaPow (buildField p) (∑ i ∈ Finset.range (k + 1), i) := by
  induction k with
  | zero => exact (alphaPow_zero p).symm
  | succ k ih =>
    rw [linearProduct, getD_timesLinear, List.getD_cons_zero, ih, gfMul_alphaPow, BitVec.zero_xor, ← Finset.sum_range_succ]

/-- A product in the field is 0 exactly when a factor is: α^i is a root exactly when it is one of α^1, ..., α^k. -/
theorem valueAtPower_linearProduct_eq_zero_iff (p : PrimPoly) (k i : Nat) :
    valueAtPower (buildField p) (linearProduct (buildField p) k) i = 0 ↔
      ∃ r, 1 ≤ r ∧ r ≤ k ∧ alphaPow (buildField p) i = alphaPow (buildField p) r := by
  induction k with
  | zero =>
    have hone : valueAtPower (buildField p) [1] i = 1 := by
      rw [valueAtPower_cons]; simp [valueAtPower]
    rw [linearProduct, hone]
    exact ⟨fun h => absurd h (by decide), fun ⟨r, h1, h0, _⟩ => by omega⟩
  | succ k ih =>
    rw [linearProduct, valueAtPower_timesLinear, gfMul_eq_zero_iff, ih]
    have hfactor : alphaPow (buildField p) i ^^^ alphaPow (buildField p) (k + 1) = 0 ↔
        alphaPow (buildField p) i = alphaPow (buildField p) (k + 1) := BitVec.xor_eq_zero_iff
    rw [hfactor]
    constructor
    · rintro (h | ⟨r, h1, hk, h⟩)
      · exact ⟨k + 1, by omega, le_rfl, h⟩
      · exact ⟨r, h1, by omega, h⟩
    · rintro ⟨r, h1, hk, h⟩
      obtain rfl | hlt := hk.eq_or_lt
      · exact .inl h
      · exact .inr ⟨r, h1, Nat.le_of_lt_succ hlt, h⟩

/-! ## The generator polynomial of every `PRIM_POLY` (R110, R112) -/

theorem length_generatorCoeffs (p : PrimPoly) : (generatorCoeffs (buildField p)).length = 9 := by
  rw [generatorCoeffs_eq_linearProduct, length_linearProduct]

theorem generatorCoeffs_leading (p : PrimPoly) : (generatorCoeffs (buildField p)).getD 8 0 = 1 := by
  rw [generatorCoeffs_eq_linearProduct, linearProduct_leading]

/-- R110: 1 + 2 + ... + 8 = 36. -/
theorem generatorCoeffs_constant (p : PrimPoly) :
    (generatorCoeffs (buildField p)).getD 0 0 = alphaPow (buildField p) 36 := by
  rw [generatorCoeffs_eq_linearProduct, linearProduct_constant]
  rfl

theorem valueAtPower_generatorCoeffs (p : PrimPoly) (i : Nat) :
    valueAtPower (buildField p) (generatorCoeffs (buildField p)) i =
      xorSum 9 (fun j => gfMul (buildField p) ((generatorCoeffs (buildField p)).getD j 0)
        (alphaPow (buildField p) (i * j))) := by
  rw [valueAtPower, length_generatorCoeffs]

/-- R110: the roots among the powers of α are α^1 to α^8 and no other. -/
theorem generatorCoeffs_root_iff (p : PrimPoly) {i : Nat} (hi : i < 1023) :
    valueAtPower (buildField p) (generatorCoeffs (buildField p)) i = 0 ↔ 1 ≤ i ∧ i ≤ 8 := by
  rw [generatorCoeffs_eq_linearProduct, valueAtPower_linearProduct_eq_zero_iff]
  constructor
  · rintro ⟨r, h1, h8, h⟩
    obtain rfl : i = r := alphaPow_injective p hi (by omega) h
    exact ⟨h1, h8⟩
  · exact fun ⟨h1, h8⟩ => ⟨i, h1, h8, rfl⟩

/-- R112: what `GEN` holds. -/
theorem buildGen_getD (F : FieldTables) {j : Nat} (h : j < 9) (d : LogForm) :
    (buildGen F).getD j d = gfLog F ((generatorCoeffs F).getD j 0) := by
  rw [buildGen, getD_tabulate _ _ _ h]

/-- Settles O11: the builder's polynomial is the product of the eight linear factors, whose length, leading and constant
coefficient and roots follow by an induction over the factors. -/
theorem generatorHasTheEightRoots : Obligations.GeneratorHasTheEightRoots := by
  unfold Obligations.GeneratorHasTheEightRoots
  intro p
  refine ⟨length_generatorCoeffs p, generatorCoeffs_leading p, generatorCoeffs_constant p, fun j hj => buildGen_getD _ hj _,
    ?_, ?_, fun i h1 h8 => ?_⟩
  · rw [buildGen_getD _ (by decide), generatorCoeffs_leading, ← alphaPow_zero p, gfLog_alphaPow_lt p 0 (by decide)]
    rfl
  · rw [buildGen_getD _ (by decide), generatorCoeffs_constant, gfLog_alphaPow_lt p 36 (by decide)]
    rfl
  · rw [← valueAtPower_generatorCoeffs, generatorCoeffs_root_iff p (by omega)]
    exact ⟨h1, h8⟩

/-! ## The table of the default `PRIM_POLY` (R113) -/

/-- R112: the whole of `GEN` is the coefficients in log form. -/
theorem buildGen_cells (p : PrimPoly) :
    (buildGen (buildField p)).cells = (generatorCoeffs (buildField p)).map (gfLog (buildField p)) := by
  apply List.ext_getElem
  · rw [Buffer.size, List.length_map, length_generatorCoeffs]
  · intro j hj hj'
    have h9 : j < 9 := hj.trans_eq (buildGen (buildField p)).size
    rw [← getD_eq_getElem _ _ .logz h9, buildGen_getD _ h9, List.getElem_map, List.getD_eq_getElem]

/-- R113: the exponents of the coefficients g_0, ..., g_8. -/
def generatorExponents : List (Fin 1023) := [36, 567, 403, 407, 607, 398, 385, 540, 0]

/-- The two rows of the table of R113 agree: g_j is α to the exponent of g_j. -/
theorem generatorCoeffs_default_eq_powers :
    generatorCoeffs (buildField primPoly) =
      generatorExponents.map (fun e => alphaPow (buildField primPoly) e.val) := by
  simp only [Fast.generatorCoeffs_eq, Fast.alphaPow_eq]
  decide

/-- Settles O12: the coefficients are evaluated in the fast form of the default field and are the powers of α whose exponents
the table gives; the roots are those of every `PRIM_POLY`. -/
theorem defaultGeneratorTable : Obligations.DefaultGeneratorTable := by
  unfold Obligations.DefaultGeneratorTable
  refine ⟨Fast.generatorCoeffs_eq, ?_, fun i hi => ?_⟩
  · have hlog : gfLog (buildField primPoly) ∘ (fun e : Fin 1023 => alphaPow (buildField primPoly) e.val) = .exp :=
      funext fun e => gfLog_alphaPow_lt primPoly e e.isLt
    rw [buildGen_cells, generatorCoeffs_default_eq_powers, List.map_map, hlog]
    rfl
  · rw [← valueAtPower_generatorCoeffs]
    exact generatorCoeffs_root_iff primPoly (by omega)

end Sys2Proof.Proofs
end

section
/-! PROOFS for spec/42_encoder.md: what ENCODE does (R120, R121), that the shift register is Horner's rule modulo the generator
polynomial, so that data and parity make a codeword (R122), and linearity (R123). -/

namespace Sys2Proof.Proofs

open Sys2Proof.Machine Sys2Proof.Laws Sys2Proof.Safety

/-! ## The elements of a buffer as a list -/

/-- A buffer holds the list that reads the same. -/
theorem cells_eq_of_coeff {w n : Nat} {b : Buffer (BitVec w) n} {l : List (BitVec w)} (hlen : l.length = n)
    (h : ∀ i, i < n → b.coeff i = l.getD i 0) : b.cells = l := by
  have hb : b = ⟨l, hlen⟩ := buffer_ext_coeff h
  rw [hb]

theorem getD_symbols {n : Nat} (D : Buffer Container n) (i : Nat) :
    (D.cells.map containerToSymbol).getD i 0 = containerToSymbol (D.coeff i) := by
  have hzero : containerToSymbol 0 = 0 := rfl
  rw [← hzero, List.getD_map]
  rfl

/-- The symbols of a buffer are the list that reads the same. -/
theorem symbols_eq_of_coeff {n : Nat} {D : Buffer Container n} {l : List Symbol} (hlen : l.length = n)
    (h : ∀ i, i < n → containerToSymbol (D.coeff i) = l.getD i 0) : D.cells.map containerToSymbol = l := by
  have hsize : (D.cells.map containerToSymbol).length = n := by rw [List.length_map, D.size]
  refine cells_eq_of_coeff (b := ⟨_, hsize⟩) hlen fun i hi => ?_
  rw [← h i hi]
  exact getD_symbols D i

/-! ## ENCODE (R121) -/

theorem rsEncode_eq_ok_iff (F : FieldTables) (gen : Buffer LogForm 9) (D : Buffer Container 1015) (P : Buffer Symbol 8) :
    rsEncode F gen D = .ok P ↔ allValid D = true ∧ lfsrRun F gen (D.cells.map containerToSymbol) = P := by
  rw [rsEncode]
  split <;> simp [*]

theorem allValid_dataPart_iff (cw : Buffer Container 1023) :
    allValid (dataPart cw) = true ↔ ∀ i, i < 1015 → (cw.coeff i).toNat < 1024 := by
  rw [allValid_iff]
  exact forall₂_congr fun i hi => by rw [coeff_dataPart cw i hi]

theorem encodeUnit_of_valid {s : State} (hv : allValid (dataPart s.cw) = true) :
    encodeUnit s =
      complete 0 { s with par := lfsrRun s.tables s.gen ((dataPart s.cw).cells.map containerToSymbol) } := by
  obtain ⟨hv', -⟩ | ⟨-, h⟩ := encodeUnit_cases s
  · rw [hv] at hv'
    cases hv'
  · exact h

theorem exec_encode_of_invalid {s : State} (h : ∃ i, i < 1015 ∧ 1024 ≤ (s.cw.coeff i).toNat) :
    exec .encode s = .next { doInit primPoly s with status := .invalidSymbol, result := 0 } := by
  obtain ⟨i, hi, hinv⟩ := h
  obtain ⟨-, hinvalid, -, -⟩ := reservedAndIllegalEncodings s
  obtain ⟨-, hencode⟩ := hinvalid i (by omega) hinv
  exact hencode hi

theorem exec_encode_of_valid {s : State} (h : ∀ i, i < 1015 → (s.cw.coeff i).toNat < 1024) :
    exec .encode s =
      .next { doInit primPoly s with
        par := lfsrRun (doInit primPoly s).tables (doInit primPoly s).gen ((dataPart s.cw).cells.map containerToSymbol)
        status := .ok, result := 0 } := by
  have hv : allValid (dataPart (doInit primPoly s).cw) = true := by rwa [doInit_cw, allValid_dataPart_iff]
  rw [exec_eq_commandUnit, ← doInit_cw primPoly s]
  exact congrArg _ (encodeUnit_of_valid hv)

theorem par_of_encode {s t : State} (hv : ∀ i, i < 1015 → (s.cw.coeff i).toNat < 1024) (h : exec .encode s = .next t) :
    t.par =
      lfsrRun (doInit primPoly s).tables (doInit primPoly s).gen ((dataPart s.cw).cells.map containerToSymbol) := by
  rw [exec_encode_of_valid hv] at h
  cases h
  rfl

/-! ## The shift register (R120) -/

/-- One turn shifts the cells up by one and adds the feedback times the generator. -/
theorem lfsrStep_coeff (F : FieldTables) (gen : Buffer LogForm 9) (d : Symbol) (bb : Buffer Symbol 8) {j : Nat} (h : j < 8) :
    (lfsrStep F gen d bb).coeff j =
      (0#10 :: bb.cells).getD j 0 ^^^ gfMul F (generatorCoeff F gen j) (d ^^^ bb.coeff 7) := by
  rw [lfsrStep, coeff_tabulate, if_pos h]
  cases j <;> rfl

/-- R121: with zero data the feedback is 0 at every turn, in any field context. -/
theorem lfsrRun_zeros (F : FieldTables) (gen : Buffer LogForm 9) (k : Nat) :
    lfsrRun F gen (List.replicate k 0) = filled 8 0 := by
  induction k with
  | zero => rfl
  | succ k ih =>
    have hstep : lfsrStep F gen 0 (filled 8 0) = filled 8 0 := buffer_ext_coeff fun j hj => by simp [lfsrStep, hj]
    exact (congrArg (lfsrStep F gen 0) ih).trans hstep

/-- R121: the last turn of a single 1 takes the generator into cleared cells. -/
theorem lfsrRun_one (p : PrimPoly) (k : Nat) {j : Nat} (h : j < 8) :
    (lfsrRun (buildField p) (buildGen (buildField p)) (1 :: List.replicate k 0)).coeff j =
      (generatorCoeffs (buildField p)).getD j 0 := by
  have hrun : lfsrRun (buildField p) (buildGen (buildField p)) (1 :: List.replicate k 0) =
      lfsrStep (buildField p) (buildGen (buildField p)) 1 (filled 8 0) := congrArg _ (lfsrRun_zeros _ _ k)
  rw [hrun, lfsrStep, coeff_tabulate, if_pos h, generatorCoeff_buildGen p j (by omega)]
  simp

theorem symbols_of_zeros {cw : Buffer Container 1023} (h : ∀ i, i < 1015 → cw.coeff i = 0) :
    (dataPart cw).cells.map containerToSymbol = List.replicate 1015 0 := by
  refine symbols_eq_of_coeff List.length_replicate fun i hi => ?_
  rw [coeff_dataPart _ i hi, h i hi, List.getD_replicate _ hi]
  rfl

theorem symbols_of_one {cw : Buffer Container 1023} (hone : cw.coeff 0 = 1)
    (hzero : ∀ i, 1 ≤ i → i < 1015 → cw.coeff i = 0) :
    (dataPart cw).cells.map containerToSymbol = 1 :: List.replicate 1014 0 := by
  refine symbols_eq_of_coeff (by rw [List.length_cons, List.length_replicate]) fun i hi => ?_
  rw [coeff_dataPart _ i hi]
  cases i with
  | zero => rw [hone]; rfl
  | succ i => rw [hzero _ (by omega) hi, List.getD_cons_succ, List.getD_replicate _ (by omega)]; rfl

/-- Settles O21: the two branches of the unit after `do_init`; the corner cases are a run over zeros and over a single 1, whose
values for the default are those of its generator polynomial. -/
theorem encodeCommandRule : Obligations.EncodeCommandRule := by
  unfold Obligations.EncodeCommandRule
  refine ⟨fun _ => exec_encode_of_invalid, fun _ => exec_encode_of_valid, fun s t hzero h j _ => ?_,
    fun p s t ⟨htables, hgen⟩ hone hzero h => ?_⟩
  · rw [par_of_encode (fun i hi => by rw [hzero i hi]; decide) h, symbols_of_zeros hzero, lfsrRun_zeros]
    exact coeff_filled_zero j
  · have hvalid : ∀ i, i < 1015 → (s.cw.coeff i).toNat < 1024 := by
      rintro (_ | i) hi
      · rw [hone]; decide
      · rw [hzero _ (by omega) hi]; decide
    have hpar : ∀ j, j < 8 → t.par.coeff j = (generatorCoeffs (buildField p)).getD j 0 := fun j hj => by
      rw [par_of_encode hvalid h, htables, hgen, symbols_of_one hone hzero, lfsrRun_one p _ hj]
    refine ⟨hpar, ?_⟩
    rintro rfl
    refine cells_eq_of_coeff rfl fun j hj => ?_
    rw [hpar j hj, Fast.generatorCoeffs_eq]
    decide +revert

/-! ## Data and parity make a codeword (R122)

The value of the register at a root α^i of the generator polynomial: a turn multiplies it by α^i and adds d·α^(8·i), so after
the symbols D it is α^(8·i)·D(α^i). At the positions from 1015 on it then adds α^(1023·i)·D(α^i) = D(α^i) to the value of the
data, and cancels it. -/

theorem xorSum_add (m n : Nat) (f : Nat → Symbol) : xorSum (m + n) f = xorSum m f ^^^ xorSum n (fun j => f (m + j)) := by
  induction n with
  | zero => rw [Nat.add_zero, xorSum_zero]; exact (BitVec.xor_zero).symm
  | succ n ih => rw [← Nat.add_assoc, xorSum_succ, ih, xorSum_succ, BitVec.xor_assoc]

theorem valueAtPower_cells {n : Nat} (F : FieldTables) (b : Buffer Symbol n) (i : Nat) :
    valueAtPower F b.cells i = xorSum n (fun j => gfMul F (b.coeff j) (alphaPow F (i * j))) := by
  rw [valueAtPower, b.size]
  rfl

theorem valueAtPower_symbols {n : Nat} (F : FieldTables) (D : Buffer Container n) (i : Nat) :
    valueAtPower F (D.cells.map containerToSymbol) i =
      xorSum n (fun pos => gfMul F (containerToSymbol (D.coeff pos)) (alphaPow F (i * pos))) := by
  rw [valueAtPower, List.length_map, D.size]
  exact xorSum_congr fun pos _ => by rw [getD_symbols]

/-- A multiple of the generator polynomial is 0 at its roots. -/
theorem xorSum_generator_multiple (p : PrimPoly) (c : Symbol) {i : Nat} (h1 : 1 ≤ i) (h8 : i ≤ 8) :
    xorSum 9 (fun j => gfMul (buildField p) (gfMul (buildField p) ((generatorCoeffs (buildField p)).getD j 0) c)
      (alphaPow (buildField p) (i * j))) = 0 := by
  have hroot := (generatorCoeffs_root_iff p (i := i) (by omega)).mpr ⟨h1, h8⟩
  have hmultiple : gfMul (buildField p) c (valueAtPower (buildField p) (generatorCoeffs (buildField p)) i) = 0 := by
    rw [hroot]
    exact gfMul_zero_right _ c
  refine Eq.trans ?_ hmultiple
  rw [valueAtPower_generatorCoeffs, gfMul_xorSum]
  exact xorSum_congr fun j _ => by rw [gfMul_comm _ _ c, gfMul_assoc]

/-- One turn in terms of values: the new cells and d·x^8 are x times the old cells plus a multiple of the generator. -/
theorem valueAtPower_lfsrStep (p : PrimPoly) (d : Symbol) (bb : Buffer Symbol 8) {i : Nat} (h1 : 1 ≤ i) (h8 : i ≤ 8) :
    valueAtPower (buildField p) (lfsrStep (buildField p) (buildGen (buildField p)) d bb).cells i ^^^
        gfMul (buildField p) d (alphaPow (buildField p) (i * 8)) =
      gfMul (buildField p) (alphaPow (buildField p) i) (valueAtPower (buildField p) bb.cells i) := by
  have hcell : ∀ j, j < 8 → (lfsrStep (buildField p) (buildGen (buildField p)) d bb).coeff j =
      (0#10 :: bb.cells).getD j 0 ^^^
        gfMul (buildField p) ((generatorCoeffs (buildField p)).getD j 0) (d ^^^ bb.coeff 7) := fun j hj => by
    rw [lfsrStep_coeff _ _ _ _ hj, generatorCoeff_buildGen p j (by omega)]
  have htop : d = (0#10 :: bb.cells).getD 8 0 ^^^
      gfMul (buildField p) ((generatorCoeffs (buildField p)).getD 8 0) (d ^^^ bb.coeff 7) := by
    have hfb : gfMul (buildField p) 1 (d ^^^ bb.coeff 7) = d ^^^ bb.coeff 7 := gfMul_one_left p _
    have hbelow : (0#10 :: bb.cells).getD 8 0 = bb.coeff 7 := rfl
    rw [generatorCoeffs_leading, hfb, hbelow, BitVec.xor_comm d, ← BitVec.xor_assoc, BitVec.xor_self, BitVec.zero_xor]
  have hshift : valueAtPower (buildField p) (0#10 :: bb.cells) i =
      xorSum 9 (fun j => gfMul (buildField p) ((0#10 :: bb.cells).getD j 0) (alphaPow (buildField p) (i * j))) := by
    rw [valueAtPower, List.length_cons, bb.size]
  calc valueAtPower (buildField p) (lfsrStep (buildField p) (buildGen (buildField p)) d bb).cells i ^^^
        gfMul (buildField p) d (alphaPow (buildField p) (i * 8))
      = xorSum 9 (fun j => gfMul (buildField p) ((0#10 :: bb.cells).getD j 0 ^^^
          gfMul (buildField p) ((generatorCoeffs (buildField p)).getD j 0) (d ^^^ bb.coeff 7))
          (alphaPow (buildField p) (i * j))) := by
        rw [xorSum_succ, ← htop, valueAtPower_cells]
        exact congrArg (· ^^^ _) (xorSum_congr fun j hj => by rw [hcell j hj])
    _ = valueAtPower (buildField p) (0#10 :: bb.cells) i := by
        simp only [gfMul_xor_left]
        rw [xorSum_xor, xorSum_generator_multiple p _ h1 h8, hshift]
        exact BitVec.xor_zero
    _ = gfMul (buildField p) (alphaPow (buildField p) i) (valueAtPower (buildField p) bb.cells i) := by
        rw [valueAtPower_cons, BitVec.zero_xor]

/-- R122: at the roots of the generator the register is D(x)·x^8. -/
theorem valueAtPower_lfsrRun (p : PrimPoly) (D : List Symbol) {i : Nat} (h1 : 1 ≤ i) (h8 : i ≤ 8) :
    valueAtPower (buildField p) (lfsrRun (buildField p) (buildGen (buildField p)) D).cells i =
      gfMul (buildField p) (alphaPow (buildField p) (i * 8)) (valueAtPower (buildField p) D i) := by
  induction D with
  | nil =>
    have hzero : valueAtPower (buildField p) (lfsrRun (buildField p) (buildGen (buildField p)) []).cells i = 0 := by
      rw [valueAtPower_cells]
      simp [lfsrRun]
    exact hzero.trans (gfMul_zero_right _ _).symm
  | cons d D ih =>
    have hstep := valueAtPower_lfsrStep p d (lfsrRun (buildField p) (buildGen (buildField p)) D) h1 h8
    rw [ih, ← gfMul_assoc, gfMul_comm _ (alphaPow _ i), gfMul_assoc, gfMul_comm _ d] at hstep
    rw [valueAtPower_cons, gfMul_xor_right, ← hstep, BitVec.xor_comm, BitVec.xor_assoc, BitVec.xor_self, BitVec.xor_zero]
    rfl

theorem coeff_withParity_data (cw : Buffer Container 1023) (P : Buffer Symbol 8) {pos : Nat} (h : pos < 1015) :
    (withParity cw P).coeff pos = (dataPart cw).coeff pos := by
  rw [withParity, coeff_tabulate, if_pos (by omega), if_pos h, coeff_dataPart cw pos h]

theorem coeff_withParity_parity (cw : Buffer Container 1023) (P : Buffer Symbol 8) {j : Nat} (h : j < 8) :
    (withParity cw P).coeff (1015 + j) = symbolToContainer (P.coeff j) := by
  rw [withParity, coeff_tabulate, if_pos (by omega), if_neg (by omega), Nat.add_sub_cancel_left]

/-- R62: the parity stands 1015 positions up. -/
theorem receivedAt_withParity (p : PrimPoly) (cw : Buffer Container 1023) (P : Buffer Symbol 8) (i : Nat) :
    receivedAt (buildField p) (withParity cw P) i =
      valueAtPower (buildField p) ((dataPart cw).cells.map containerToSymbol) i ^^^
        gfMul (buildField p) (alphaPow (buildField p) (i * 1015)) (valueAtPower (buildField p) P.cells i) := by
  rw [receivedAt, xorSum_add 1015 8, valueAtPower_symbols, valueAtPower_cells, gfMul_xorSum]
  refine congrArg₂ (· ^^^ ·) ?_ ?_
  · exact xorSum_congr fun pos h => by rw [coeff_withParity_data cw P h]
  · refine xorSum_congr fun j h => ?_
    rw [coeff_withParity_parity cw P h, containerToSymbol_symbolToContainer, Nat.mul_add, ← gfMul_alphaPow, ← gfMul_assoc,
      ← gfMul_assoc, gfMul_comm _ (P.coeff j)]

theorem withParity_lfsrRun_isCodeword (p : PrimPoly) (cw : Buffer Container 1023) :
    IsCodeword (buildField p) (withParity cw
      (lfsrRun (buildField p) (buildGen (buildField p)) ((dataPart cw).cells.map containerToSymbol))) := by
  intro i h1 h8
  have hperiod : alphaPow (buildField p) (i * 1015 + i * 8) = 1 := by
    rw [← Nat.mul_add, ← alphaPow_mod, Nat.mul_mod_left, alphaPow_zero]
  rw [receivedAt_withParity, valueAtPower_lfsrRun p _ h1 h8, ← gfMul_assoc, gfMul_alphaPow, hperiod]
  exact (congrArg (_ ^^^ ·) (gfMul_one_left p _)).trans BitVec.xor_self

/-- Settles O22: ENCODE puts the register in `PAR`, and a register after the data cancels the data at the eight roots. -/
theorem encodedWordIsACodeword : Obligations.EncodedWordIsACodeword := by
  unfold Obligations.EncodedWordIsACodeword
  intro p s ⟨htables, hgen⟩ hvalid
  refine ⟨_, exec_encode_of_valid hvalid, rfl, doInit_cw primPoly s, ?_⟩
  rw [htables, hgen]
  exact withParity_lfsrRun_isCodeword p s.cw

/-! ## Linearity (R123) -/

/-- The exclusive-or of two buffers, element by element. -/
def xorBuffer {w n : Nat} (a b : Buffer (BitVec w) n) : Buffer (BitVec w) n := tabulate n (fun i => a.coeff i ^^^ b.coeff i)

theorem coeff_xorBuffer {w n : Nat} (a b : Buffer (BitVec w) n) {i : Nat} (h : i < n) :
    (xorBuffer a b).coeff i = a.coeff i ^^^ b.coeff i := by
  rw [xorBuffer, coeff_tabulate, if_pos h]

theorem lfsrStep_xor (p : PrimPoly) (gen : Buffer LogForm 9) (d d' : Symbol) (a b : Buffer Symbol 8) :
    lfsrStep (buildField p) gen (d ^^^ d') (xorBuffer a b) =
      xorBuffer (lfsrStep (buildField p) gen d a) (lfsrStep (buildField p) gen d' b) := by
  refine buffer_ext_coeff fun j hj => ?_
  have hfb : d ^^^ d' ^^^ (a.coeff 7 ^^^ b.coeff 7) = (d ^^^ a.coeff 7) ^^^ (d' ^^^ b.coeff 7) := by ac_rfl
  rw [coeff_xorBuffer _ _ hj]
  simp only [lfsrStep, coeff_tabulate, if_pos hj]
  rw [coeff_xorBuffer _ _ (by decide : 7 < 8), hfb, gfMul_xor_right]
  split
  · simp
  · rw [coeff_xorBuffer _ _ (by omega)]
    ac_rfl

theorem lfsrRun_xor (p : PrimPoly) (gen : Buffer LogForm 9) {D D' : List Symbol} (h : D.length = D'.length) :
    lfsrRun (buildField p) gen (List.zipWith (· ^^^ ·) D D') =
      xorBuffer (lfsrRun (buildField p) gen D) (lfsrRun (buildField p) gen D') := by
  induction D generalizing D' with
  | nil =>
    refine buffer_ext_coeff fun j hj => ?_
    obtain rfl := List.length_eq_zero_iff.mp h.symm
    rw [coeff_xorBuffer _ _ hj]
    simp [lfsrRun]
  | cons d D ih =>
    cases D' with
    | nil => cases h
    | cons d' D' => exact (congrArg _ (ih (Nat.succ.inj h))).trans (lfsrStep_xor p gen d d' _ _)

theorem symbols_xorBuffer {n : Nat} (D D' : Buffer Container n) :
    (xorBuffer D D').cells.map containerToSymbol =
      List.zipWith (· ^^^ ·) (D.cells.map containerToSymbol) (D'.cells.map containerToSymbol) := by
  refine symbols_eq_of_coeff (by simp [D.size, D'.size]) fun i hi => ?_
  rw [coeff_xorBuffer _ _ hi, containerToSymbol_xor, ← getD_symbols, ← getD_symbols]
  simp [List.getD_eq_getElem?_getD, D.size, D'.size, hi]

theorem allValid_xorBuffer {n : Nat} {D D' : Buffer Container n} (h : allValid D = true) (h' : allValid D' = true) :
    allValid (xorBuffer D D') = true := by
  rw [allValid_iff] at *
  intro i hi
  rw [coeff_xorBuffer _ _ hi, BitVec.toNat_xor]
  exact Nat.xor_lt_two_pow (n := 10) (h i hi) (h' i hi)

/-- Settles O23: a turn of the register is linear in the symbol and the cells. -/
theorem encoderIsLinear : Obligations.EncoderIsLinear := by
  unfold Obligations.EncoderIsLinear
  intro p D D' E P P' hE hP hP'
  obtain rfl : E = xorBuffer D D' := buffer_ext_coeff fun i hi => by rw [hE i hi, coeff_xorBuffer _ _ hi]
  obtain ⟨hv, rfl⟩ := (rsEncode_eq_ok_iff _ _ _ _).mp hP
  obtain ⟨hv', rfl⟩ := (rsEncode_eq_ok_iff _ _ _ _).mp hP'
  refine ⟨_, (rsEncode_eq_ok_iff _ _ _ _).mpr ⟨allValid_xorBuffer hv hv', rfl⟩, fun j hj => ?_⟩
  rw [symbols_xorBuffer, lfsrRun_xor p _ (by simp [D.size, D'.size]), coeff_xorBuffer _ _ hj]

end Sys2Proof.Proofs
end

section
/-! PROOFS for spec/43_syndrome.md: what SYND does (R130, R131), that its sums are the received polynomial at the eight roots
(R62), and linearity (R132). -/

namespace Sys2Proof.Proofs

open Sys2Proof.Machine Sys2Proof.Laws Sys2Proof.Safety

/-! ## The syndromes are values of the received polynomial (R62, R130) -/

/-- A zero symbol may be skipped, because its term is 0. -/
theorem syndromeSum_cons (p : PrimPoly) (i k : Nat) (c : Symbol) (C : List Symbol) :
    syndromeSum (buildField p) i k (c :: C) =
      gfMul (buildField p) c (alphaPow (buildField p) (i * k)) ^^^ syndromeSum (buildField p) i (k + 1) C := by
  rw [syndromeSum]
  split
  · have hterm : gfMul (buildField p) c (alphaPow (buildField p) (i * k)) = 0 := (gfMul_eq_zero_iff p _ _).mpr (.inl ‹_›)
    rw [hterm]
    exact BitVec.zero_xor.symm
  · rw [timesAlphaPow_eq]

/-- The sum from position k on is x^k times the polynomial of the symbols, at α^i. -/
theorem syndromeSum_eq_valueAtPower (p : PrimPoly) (i k : Nat) (C : List Symbol) :
    syndromeSum (buildField p) i k C =
      gfMul (buildField p) (alphaPow (buildField p) (i * k)) (valueAtPower (buildField p) C i) := by
  induction C generalizing k with
  | nil => exact (gfMul_zero_right _ _).symm
  | cons c C ih =>
    rw [syndromeSum_cons, ih, valueAtPower_cons, gfMul_xor_right, ← gfMul_assoc, gfMul_alphaPow, ← Nat.mul_succ,
      gfMul_comm _ c]

/-- `syn` is indexed from 0 for `SYN[1]` (log entry 10). -/
theorem syndromeAt_succ (S : Buffer Symbol 8) (j : Nat) : syndromeAt S (j + 1) = S.coeff j := rfl

/-- R62, R130: `SYN[i]` is R(α^i). -/
theorem syndromeAt_syndromes (p : PrimPoly) (C : Buffer Container 1023) {i : Nat} (h1 : 1 ≤ i) (h8 : i ≤ 8) :
    syndromeAt (syndromes (buildField p) C) i = receivedAt (buildField p) C i := by
  obtain ⟨j, rfl⟩ := Nat.exists_eq_add_of_le' h1
  rw [syndromeAt_succ, syndromes, coeff_tabulate, if_pos (by omega), syndromeSum_eq_valueAtPower, Nat.mul_zero, alphaPow_zero,
    valueAtPower_symbols]
  exact gfMul_one_left p _

/-- R22: the all-zero flag in terms of `SYN[1..8]`. -/
theorem syndromesAllZero_iff_syndromeAt (S : Buffer Symbol 8) :
    syndromesAllZero S = true ↔ ∀ i, 1 ≤ i → i ≤ 8 → syndromeAt S i = 0 := by
  rw [syndromesAllZero_iff]
  constructor
  · intro h i h1 h8
    exact h (i - 1) (by omega)
  · intro h j hj
    exact h (j + 1) (Nat.succ_pos j) hj

/-- R62, R130: the flag `allzero` tells the codewords. -/
theorem syndromesAllZero_syndromes_iff (p : PrimPoly) (C : Buffer Container 1023) :
    syndromesAllZero (syndromes (buildField p) C) = true ↔ IsCodeword (buildField p) C := by
  rw [syndromesAllZero_iff_syndromeAt]
  exact forall₃_congr fun i h1 h8 => by rw [syndromeAt_syndromes p C h1 h8]

/-! ## SYND (R131) -/

theorem syndUnit_of_valid {s : State} (hv : allValid s.cw = true) :
    syndUnit s =
      complete 0
        { s with syn := syndromes s.tables s.cw, allzero := syndromesAllZero (syndromes s.tables s.cw) } := by
  obtain ⟨hv', -⟩ | ⟨-, h⟩ := syndUnit_cases s
  · rw [hv] at hv'
    cases hv'
  · exact h

theorem exec_synd_of_invalid {s : State} (h : ∃ pos, pos < 1023 ∧ 1024 ≤ (s.cw.coeff pos).toNat) :
    exec .synd s = .next { doInit primPoly s with status := .invalidSymbol, result := 0 } :=
  exec_of_invalid (by decide) ((allValid_eq_false_iff _).mpr h)

theorem exec_synd_of_valid {s : State} (h : ∀ pos, pos < 1023 → (s.cw.coeff pos).toNat < 1024) :
    exec .synd s =
      .next { doInit primPoly s with
        syn := syndromes (doInit primPoly s).tables s.cw
        allzero := syndromesAllZero (syndromes (doInit primPoly s).tables s.cw)
        status := .ok, result := 0 } := by
  have hv : allValid (doInit primPoly s).cw = true := by rwa [doInit_cw, allValid_iff]
  rw [exec_eq_commandUnit, ← doInit_cw primPoly s]
  exact congrArg _ (syndUnit_of_valid hv)

theorem syn_allzero_of_synd {s t : State} (hv : ∀ pos, pos < 1023 → (s.cw.coeff pos).toNat < 1024)
    (h : exec .synd s = .next t) :
    t.syn = syndromes (doInit primPoly s).tables s.cw ∧
      t.allzero = syndromesAllZero (syndromes (doInit primPoly s).tables s.cw) := by
  rw [exec_synd_of_valid hv] at h
  cases h
  exact ⟨rfl, rfl⟩

/-! ### The corner cases -/

theorem syndromeSum_zeros (F : FieldTables) (i k n : Nat) : syndromeSum F i k (List.replicate n 0) = 0 := by
  induction n generalizing k with
  | zero => rfl
  | succ n ih => rw [List.replicate_succ, syndromeSum, if_pos rfl, ih]

/-- R131: every symbol of the zero word is skipped, in any field context. -/
theorem syndromes_of_zeros (F : FieldTables) {C : Buffer Container 1023} (h : ∀ pos, pos < 1023 → C.coeff pos = 0) :
    syndromes F C = filled 8 0 := by
  have hsymbols : C.cells.map containerToSymbol = List.replicate 1023 0 := by
    refine symbols_eq_of_coeff List.length_replicate fun pos hpos => ?_
    rw [h pos hpos, List.getD_replicate _ hpos]
    rfl
  refine buffer_ext_coeff fun j hj => ?_
  rw [syndromes, coeff_tabulate, if_pos hj, hsymbols, syndromeSum_zeros]
  exact (coeff_filled_zero j).symm

/-- R131: of one symbol e at position `pos` the sum is e·α^(i·pos). -/
theorem receivedAt_one (F : FieldTables) {C : Buffer Container 1023} {e : Symbol} {pos : Nat} (hpos : pos < 1023)
    (hC : ∀ q, q < 1023 → C.coeff q = if q = pos then symbolToContainer e else 0) (i : Nat) :
    receivedAt F C i = gfMul F e (alphaPow F (i * pos)) := by
  rw [receivedAt, xorSum_single pos hpos, hC pos hpos, if_pos rfl, containerToSymbol_symbolToContainer]
  intro q hq hne
  rw [hC q hq, if_neg hne]
  exact gfMul_zero_left F _

/-- R131: one wrong symbol is no codeword, as e·α^pos ≠ 0. -/
theorem not_isCodeword_one (p : PrimPoly) {C : Buffer Container 1023} {e : Symbol} {pos : Nat} (he : e ≠ 0)
    (hpos : pos < 1023) (hC : ∀ q, q < 1023 → C.coeff q = if q = pos then symbolToContainer e else 0) :
    ¬ IsCodeword (buildField p) C := by
  intro hcode
  have hzero := hcode 1 le_rfl (by decide)
  rw [receivedAt_one _ hpos hC, gfMul_eq_zero_iff] at hzero
  exact hzero.elim he (alphaPow_ne_zero p _)

/-- Settles O24: the two branches of the unit after `do_init`, whose sums are the values R(α^i); the corner cases are sums with
no term and with one, and the example is evaluated in the fast form of the default field. -/
theorem syndEvaluatesTheReceivedPolynomial : Obligations.SyndEvaluatesTheReceivedPolynomial := by
  unfold Obligations.SyndEvaluatesTheReceivedPolynomial
  refine ⟨fun _ => exec_synd_of_invalid, fun p s ⟨htables, _⟩ hvalid => ?_, fun s t hzero h => ?_,
    fun p s t e pos ⟨htables, _⟩ hpos he hone h => ?_⟩
  · refine ⟨_, _, exec_synd_of_valid hvalid, ?_, ?_⟩ <;> rw [htables]
    · exact fun i h1 h8 => syndromeAt_syndromes p s.cw h1 h8
    · exact syndromesAllZero_syndromes_iff p s.cw
  · obtain ⟨hsyn, hallzero⟩ := syn_allzero_of_synd (fun pos hpos => by rw [hzero pos hpos]; decide) h
    rw [syndromes_of_zeros _ hzero] at hsyn hallzero
    rw [hsyn, hallzero, syndromesAllZero_iff]
    exact ⟨fun i _ => coeff_filled_zero i, fun i _ => coeff_filled_zero i⟩
  · have hvalid : ∀ q, q < 1023 → (s.cw.coeff q).toNat < 1024 := fun q hq => by
      rw [hone q hq]
      split
      · exact symbolToContainer_lt e
      · decide
    obtain ⟨hsyn, hallzero⟩ := syn_allzero_of_synd hvalid h
    rw [htables] at hsyn hallzero
    have hterm : ∀ i, 1 ≤ i → i ≤ 8 →
        syndromeAt t.syn i = gfMul (buildField p) e (alphaPow (buildField p) (i * pos)) := fun i h1 h8 => by
      rw [hsyn, syndromeAt_syndromes p _ h1 h8, receivedAt_one _ hpos hone]
    refine ⟨hterm, ?_, ?_⟩
    · rw [hallzero, ← Bool.not_eq_true, syndromesAllZero_syndromes_iff]
      exact not_isCodeword_one p he hpos hone
    · rintro rfl rfl rfl
      refine cells_eq_of_coeff rfl fun j hj => ?_
      rw [← syndromeAt_succ, hterm (j + 1) (Nat.succ_pos j) hj, Fast.gfMul_eq, Fast.alphaPow_eq]
      decide +revert

/-! ## Linearity (R132) -/

theorem receivedAt_xor (p : PrimPoly) {C C' E : Buffer Container 1023}
    (hE : ∀ pos, pos < 1023 → E.coeff pos = C.coeff pos ^^^ C'.coeff pos) (i : Nat) :
    receivedAt (buildField p) E i = receivedAt (buildField p) C i ^^^ receivedAt (buildField p) C' i := by
  rw [receivedAt, receivedAt, receivedAt, ← xorSum_xor]
  exact xorSum_congr fun pos hpos => by rw [hE pos hpos, containerToSymbol_xor, gfMul_xor_left]

/-- Settles O25: each syndrome is R(α^i), a sum that is linear in the word and 0 for a codeword. -/
theorem syndromesAreLinear : Obligations.SyndromesAreLinear := by
  unfold Obligations.SyndromesAreLinear
  intro p C C' E hE
  have hlinear : ∀ i, 1 ≤ i → i ≤ 8 →
      syndromeAt (syndromes (buildField p) E) i =
        syndromeAt (syndromes (buildField p) C) i ^^^ syndromeAt (syndromes (buildField p) C') i := fun i h1 h8 => by
    rw [syndromeAt_syndromes p E h1 h8, syndromeAt_syndromes p C h1 h8, syndromeAt_syndromes p C' h1 h8,
      receivedAt_xor p hE]
  refine ⟨hlinear, fun hcode => buffer_ext_coeff fun j hj => ?_⟩
  have hzero : syndromeAt (syndromes (buildField p) C) (j + 1) = 0 := by
    rw [syndromeAt_syndromes p C (Nat.succ_pos j) hj]
    exact hcode (j + 1) (Nat.succ_pos j) hj
  rw [← syndromeAt_succ, hlinear (j + 1) (Nat.succ_pos j) hj, hzero, syndromeAt_succ]
  exact BitVec.zero_xor

end Sys2Proof.Proofs
end

section
/-! PROOFS for spec/44_berlekamp_massey.md: the steps of the solver, its bounds and its linear recurrence (R140, R142), what BMSOLVE
does (R141), and DECODE on a codeword with at most four wrong symbols (R142 (e), R150, R161, R188). -/

namespace Sys2Proof.Proofs

open Sys2Proof.Machine Sys2Proof.Laws Sys2Proof.Safety

/-! ## The solver step by step (R140) -/

/-- The three branches of a step. -/
theorem solverStep_cases (F : FieldTables) (S : Buffer Symbol 8) (st : SolverState) (r : Nat) :
    (discrepancy F S st.lam r = 0 ∧ solverStep F S st r = { st with aux := shiftAux st.aux }) ∨
    (∃ h : discrepancy F S st.lam r ≠ 0, 2 * st.len ≤ r - 1 ∧
      solverStep F S st r =
        ⟨candidate F st.lam st.aux (discrepancy F S st.lam r), scaledByInverse F st.lam _ h, r - st.len⟩) ∨
    (discrepancy F S st.lam r ≠ 0 ∧ r - 1 < 2 * st.len ∧
      solverStep F S st r =
        ⟨candidate F st.lam st.aux (discrepancy F S st.lam r), shiftAux st.aux, st.len⟩) := by
  unfold solverStep
  by_cases hd : discrepancy F S st.lam r = 0
  · exact .inl ⟨hd, dif_pos hd⟩
  by_cases hl : 2 * st.len ≤ r - 1
  · exact .inr (.inl ⟨hd, hl, (dif_neg hd).trans (if_pos hl)⟩)
  · exact .inr (.inr ⟨hd, not_le.mp hl, (dif_neg hd).trans (if_neg hl)⟩)

theorem solverRun_zero (F : FieldTables) (S : Buffer Symbol 8) : solverRun F S 0 = solverStart := rfl

theorem solverRun_succ (F : FieldTables) (S : Buffer Symbol 8) (k : Nat) :
    solverRun F S (k + 1) = solverStep F S (solverRun F S k) (k + 1) := by
  rw [solverRun, List.range'_1_concat, List.foldl_append, Nat.add_comm 1 k]
  rfl

/-- What holds at the start and is kept by every step holds after every number of steps. -/
theorem solverRun_induction {F : FieldTables} {S : Buffer Symbol 8} {Inv : Nat → SolverState → Prop}
    (hstart : Inv 0 solverStart)
    (hstep : ∀ k st, k < 8 → Inv k st → Inv (k + 1) (solverStep F S st (k + 1))) {k : Nat} (hk : k ≤ 8) :
    Inv k (solverRun F S k) := by
  induction k with
  | zero => exact hstart
  | succ k ih =>
    rw [solverRun_succ]
    exact hstep k _ hk (ih (Nat.le_of_succ_le hk))

/-! ### The coefficients that a step writes -/

theorem coeff_shiftAux_zero (B : Buffer Symbol 9) : (shiftAux B).coeff 0 = 0 := by
  rw [shiftAux, coeff_tabulate, if_pos (by decide), if_pos rfl]

theorem coeff_shiftAux_succ (B : Buffer Symbol 9) {j : Nat} (h : j < 8) : (shiftAux B).coeff (j + 1) = B.coeff j := by
  rw [shiftAux, coeff_tabulate, if_pos (by omega), if_neg (Nat.succ_ne_zero j), Nat.add_sub_cancel]

theorem coeff_candidate_zero (F : FieldTables) (lam B : Buffer Symbol 9) (delta : Symbol) :
    (candidate F lam B delta).coeff 0 = lam.coeff 0 := by
  rw [candidate, coeff_tabulate, if_pos (by decide), if_pos rfl]

theorem coeff_candidate_succ (F : FieldTables) (lam B : Buffer Symbol 9) (delta : Symbol) {j : Nat} (h : j < 8) :
    (candidate F lam B delta).coeff (j + 1) = lam.coeff (j + 1) ^^^ gfMul F delta (B.coeff j) := by
  rw [candidate, coeff_tabulate, if_pos (by omega), if_neg (Nat.succ_ne_zero j), Nat.add_sub_cancel]

/-- T(x) = λ(x) ⊕ δ·x·B(x), with x·B(x) the result of `shiftB`. -/
theorem coeff_candidate (F : FieldTables) (lam B : Buffer Symbol 9) (delta : Symbol) (j : Nat) :
    (candidate F lam B delta).coeff j = lam.coeff j ^^^ gfMul F delta ((shiftAux B).coeff j) := by
  obtain hj | hj := Nat.lt_or_ge j 9
  · cases j with
    | zero => rw [coeff_candidate_zero, coeff_shiftAux_zero]; simp
    | succ j => rw [coeff_candidate_succ F _ _ _ (by omega), coeff_shiftAux_succ _ (by omega)]
  · rw [coeff_out_of_range _ _ hj, coeff_out_of_range _ _ hj, coeff_out_of_range _ _ hj]
    simp

theorem coeff_scaledByInverse (F : FieldTables) (lam : Buffer Symbol 9) (delta : Symbol) (h : delta ≠ 0) (j : Nat) :
    (scaledByInverse F lam delta h).coeff j = gfMul F (gfInv F delta h) (lam.coeff j) := by
  obtain hj | hj := Nat.lt_or_ge j 9
  · rw [scaledByInverse, coeff_tabulate, if_pos hj]
  · rw [coeff_out_of_range _ _ hj, coeff_out_of_range _ _ hj]
    simp

theorem coeff_solverStart_lam (j : Nat) : solverStart.lam.coeff j = if j = 0 then 1 else 0 := by
  rw [solverStart, coeff_tabulate]
  split
  · rfl
  · rw [if_neg (by omega)]

theorem coeff_solverStart_aux (j : Nat) : solverStart.aux.coeff j = if j = 0 then 1 else 0 := coeff_solverStart_lam j

/-! ## The bounds of R142 (a), (b), (d) -/

/-- R142 (a), (b), (d) after `k` steps: λ has the constant term 1 and degree at most L, L is at most k, and B has degree at
most k − L. -/
structure WithinBounds (k : Nat) (st : SolverState) : Prop where
  lam_zero : st.lam.coeff 0 = 1
  lam_above : ∀ j, st.len < j → st.lam.coeff j = 0
  len_le : st.len ≤ k
  aux_above : ∀ j, k < j + st.len → st.aux.coeff j = 0

theorem WithinBounds.start : WithinBounds 0 solverStart where
  lam_zero := coeff_solverStart_lam 0
  lam_above j hj := by rw [coeff_solverStart_lam, if_neg (by change 0 < j at hj; omega)]
  len_le := le_rfl
  aux_above j hj := by rw [coeff_solverStart_aux, if_neg (by change 0 < j + 0 at hj; omega)]

section
variable {F : FieldTables} {S : Buffer Symbol 8} {k : Nat} {st : SolverState} (h : WithinBounds k st)
include h

/-- The shift raises the degree of B by one. -/
theorem WithinBounds.shiftAux_above {j : Nat} (hj : k + 1 < j + st.len) : (shiftAux st.aux).coeff j = 0 := by
  obtain hj9 | hj9 := Nat.lt_or_ge j 9
  · cases j with
    | zero => exact coeff_shiftAux_zero _
    | succ j =>
      rw [coeff_shiftAux_succ _ (by omega)]
      exact h.aux_above j (by omega)
  · exact coeff_out_of_range _ _ hj9

theorem WithinBounds.candidate_above (delta : Symbol) {j : Nat} (hlam : st.len < j) (haux : k + 1 < j + st.len) :
    (candidate F st.lam st.aux delta).coeff j = 0 := by
  rw [coeff_candidate, h.lam_above j hlam, h.shiftAux_above haux]
  simp

theorem WithinBounds.candidate_zero (delta : Symbol) : (candidate F st.lam st.aux delta).coeff 0 = 1 := by
  rw [coeff_candidate_zero, h.lam_zero]

theorem WithinBounds.step : WithinBounds (k + 1) (solverStep F S st (k + 1)) := by
  have hlen := h.len_le
  obtain ⟨-, heq⟩ | ⟨hd, hl, heq⟩ | ⟨-, hl, heq⟩ := solverStep_cases F S st (k + 1) <;> rw [heq]
  · exact ⟨h.lam_zero, h.lam_above, Nat.le_succ_of_le hlen, fun j hj => h.shiftAux_above hj⟩
  · refine ⟨h.candidate_zero _, fun j hj => h.candidate_above _ ?_ ?_, Nat.sub_le _ _, fun j hj => ?_⟩
    · dsimp only at hj; omega
    · dsimp only at hj; omega
    · rw [coeff_scaledByInverse, h.lam_above j (by dsimp only at hj; omega)]
      exact gfMul_zero_right F _
  · refine ⟨h.candidate_zero _, fun j hj => h.candidate_above _ hj ?_, Nat.le_succ_of_le hlen,
      fun j hj => h.shiftAux_above hj⟩
    dsimp only at hj; omega

end

theorem solverRun_withinBounds (F : FieldTables) (S : Buffer Symbol 8) {k : Nat} (hk : k ≤ 8) :
    WithinBounds k (solverRun F S k) :=
  solverRun_induction WithinBounds.start (fun _ _ _ h => h.step) hk

/-- Settles O27: the bounds hold at the start, and every step keeps them. -/
theorem solverKeepsItsBounds : Obligations.SolverKeepsItsBounds := by
  unfold Obligations.SolverKeepsItsBounds
  intro F S r hr
  have h := solverRun_withinBounds F S hr
  exact ⟨h.lam_zero, degree_le _ _ h.lam_above, h.len_le, fun h8 => h.aux_above 8 (by omega)⟩

/-! ## The linear recurrence (R142 (c)) -/

/-- The terms above L are 0, so the discrepancy of a step after L is the sum up to L. -/
theorem discrepancy_eq_xorSum {F : FieldTables} {S : Buffer Symbol 8} {lam : Buffer Symbol 9} {L r : Nat}
    (habove : ∀ j, L < j → lam.coeff j = 0) (hr : L < r) :
    discrepancy F S lam r = xorSum (L + 1) (fun i => gfMul F (lam.coeff i) (syndromeAt S (r - i))) := by
  obtain ⟨m, rfl⟩ := Nat.exists_eq_add_of_le hr
  have hzero : xorSum m (fun j =>
      gfMul F (lam.coeff (L + 1 + j)) (syndromeAt S (L + 1 + m - (L + 1 + j)))) = xorSum m (fun _ => 0#10) :=
    xorSum_congr fun j _ => by rw [habove _ (by omega)]; exact gfMul_zero_left F _
  rw [discrepancy, xorSum_add, hzero, xorSum_const_zero, BitVec.xor_zero]

/-- `shiftB` moves the sums of B up by one step. -/
theorem discrepancy_shiftAux (F : FieldTables) (S : Buffer Symbol 8) (B : Buffer Symbol 9) {r : Nat} (hr : r < 8) :
    discrepancy F S (shiftAux B) (r + 1) = discrepancy F S B r := by
  rw [discrepancy, xorSum_succ_front, coeff_shiftAux_zero]
  refine (congrArg (· ^^^ _) (gfMul_zero_left F _)).trans (BitVec.zero_xor.trans (xorSum_congr fun j hj => ?_))
  rw [coeff_shiftAux_succ _ (by omega), Nat.add_sub_add_right]

theorem discrepancy_candidate (p : PrimPoly) (S : Buffer Symbol 8) (lam B : Buffer Symbol 9) (delta : Symbol) (r : Nat) :
    discrepancy (buildField p) S (candidate (buildField p) lam B delta) r =
      discrepancy (buildField p) S lam r ^^^
        gfMul (buildField p) delta (discrepancy (buildField p) S (shiftAux B) r) := by
  simp only [discrepancy, coeff_candidate, gfMul_xor_left, gfMul_assoc, xorSum_xor, gfMul_xorSum]

theorem discrepancy_scaledByInverse (p : PrimPoly) (S : Buffer Symbol 8) (lam : Buffer Symbol 9) (delta : Symbol)
    (h : delta ≠ 0) (r : Nat) :
    discrepancy (buildField p) S (scaledByInverse (buildField p) lam delta h) r =
      gfMul (buildField p) (gfInv (buildField p) delta h) (discrepancy (buildField p) S lam r) := by
  simp only [discrepancy, coeff_scaledByInverse, gfMul_assoc, gfMul_xorSum]

/-- R142 (c) after `k` steps: the sums of λ are 0 from L + 1 on. Those of B are 0 from k − L + 1 on and 1 at k, so that
δ·x·B(x) cancels the next discrepancy δ and changes no earlier sum. (Before the first change of length L is 0,
and nothing is said of B.) -/
structure IsRecurrence (p : PrimPoly) (S : Buffer Symbol 8) (k : Nat) (st : SolverState) : Prop where
  lam : ∀ r, st.len < r → r ≤ k → discrepancy (buildField p) S st.lam r = 0
  aux : ∀ r, k < r + st.len → r ≤ k → discrepancy (buildField p) S st.aux r = if r = k then 1 else 0

theorem IsRecurrence.start (p : PrimPoly) (S : Buffer Symbol 8) : IsRecurrence p S 0 solverStart where
  lam r hr hk := absurd hr (by omega)
  aux r hr hk := absurd hr (by change ¬ 0 < r + 0; omega)

section
variable {p : PrimPoly} {S : Buffer Symbol 8} {k : Nat} {st : SolverState} (h : IsRecurrence p S k st)
include h

theorem IsRecurrence.shiftAux_sum (hb : WithinBounds k st) (hk : k < 8) {r : Nat} (hr : k + 1 < r + st.len)
    (hrk : r ≤ k + 1) : discrepancy (buildField p) S (shiftAux st.aux) r = if r = k + 1 then 1 else 0 := by
  have hlen := hb.len_le
  obtain ⟨r, rfl⟩ := Nat.exists_eq_add_of_le' (show 1 ≤ r by omega)
  rw [discrepancy_shiftAux _ _ _ (by omega), h.aux r (by omega) (by omega)]
  simp only [Nat.add_right_cancel_iff]

/-- T satisfies the recurrence up to the step k + 1. -/
theorem IsRecurrence.candidate_sum (hb : WithinBounds k st) (hk : k < 8) {r : Nat} (hlam : st.len < r)
    (haux : k + 1 < r + st.len) (hrk : r ≤ k + 1) :
    discrepancy (buildField p) S
      (candidate (buildField p) st.lam st.aux (discrepancy (buildField p) S st.lam (k + 1))) r = 0 := by
  rw [discrepancy_candidate, h.shiftAux_sum hb hk haux hrk]
  obtain rfl | hlt := hrk.eq_or_lt
  · rw [if_pos rfl]
    exact (congrArg _ (gfMul_one_right p _)).trans BitVec.xor_self
  · rw [if_neg hlt.ne, h.lam r hlam (by omega)]
    exact (congrArg _ (gfMul_zero_right _ _)).trans BitVec.xor_self

theorem IsRecurrence.step (hb : WithinBounds k st) (hk : k < 8) :
    IsRecurrence p S (k + 1) (solverStep (buildField p) S st (k + 1)) := by
  have hlen := hb.len_le
  obtain ⟨hd, heq⟩ | ⟨hd, hl, heq⟩ | ⟨-, hl, heq⟩ := solverStep_cases (buildField p) S st (k + 1) <;> rw [heq]
  · refine ⟨fun r hr hrk => ?_, fun r hr hrk => h.shiftAux_sum hb hk hr hrk⟩
    obtain rfl | hlt := hrk.eq_or_lt
    · exact hd
    · exact h.lam r hr (by omega)
  · refine ⟨fun r hr hrk => h.candidate_sum hb hk ?_ ?_ hrk, fun r hr hrk => ?_⟩ <;> dsimp only at hr ⊢
    · omega
    · omega
    · rw [discrepancy_scaledByInverse]
      obtain rfl | hlt := hrk.eq_or_lt
      · rw [if_pos rfl, gfMul_comm, gfMul_gfInv]
      · rw [if_neg hlt.ne, h.lam r (by omega) (by omega)]
        exact gfMul_zero_right _ _
  · refine ⟨fun r hr hrk => h.candidate_sum hb hk hr ?_ hrk, fun r hr hrk => h.shiftAux_sum hb hk hr hrk⟩
    dsimp only at hr
    omega

end

theorem solverRun_isRecurrence (p : PrimPoly) (S : Buffer Symbol 8) {k : Nat} (hk : k ≤ 8) :
    IsRecurrence p S k (solverRun (buildField p) S k) := by
  have hboth : WithinBounds k (solverRun (buildField p) S k) ∧ IsRecurrence p S k (solverRun (buildField p) S k) :=
    solverRun_induction (Inv := fun k st => WithinBounds k st ∧ IsRecurrence p S k st) ⟨.start, .start p S⟩
      (fun _ _ hlt ⟨hb, h⟩ => ⟨hb.step, h.step hb hlt⟩) hk
  exact hboth.2

/-! ## BMSOLVE (R141) -/

theorem exec_bmsolve (s : State) :
    exec .bmsolve s =
      .next { doInit primPoly s with
        lam := (solverRun (doInit primPoly s).tables s.syn 8).lam
        deg := BitVec.ofNat 4 (degree (solverRun (doInit primPoly s).tables s.syn 8).lam)
        ell := BitVec.ofNat 4 (solverRun (doInit primPoly s).tables s.syn 8).len
        status := .ok, result := 0 } := by
  rw [exec_eq_commandUnit, ← doInit_syn primPoly s]
  rfl

/-- L is at most 8, so `ELL` holds it. -/
theorem ell_toNat (F : FieldTables) (S : Buffer Symbol 8) :
    (BitVec.ofNat 4 (solverRun F S 8).len).toNat = (solverRun F S 8).len := by
  have := (solverRun_withinBounds F S le_rfl).len_le
  rw [BitVec.toNat_ofNat]
  omega

/-- Settles O28: above L the sum is the discrepancy, which the steps keep at 0. -/
theorem solverYieldsARecurrence : Obligations.SolverYieldsARecurrence := by
  unfold Obligations.SolverYieldsARecurrence
  intro p s ⟨htables, _⟩
  refine ⟨_, exec_bmsolve s, fun r hr h8 => ?_⟩
  dsimp only at hr ⊢
  rw [htables] at hr ⊢
  rw [ell_toNat] at hr ⊢
  have hb := solverRun_withinBounds (buildField p) s.syn le_rfl
  rw [← discrepancy_eq_xorSum hb.lam_above hr]
  exact (solverRun_isRecurrence p s.syn le_rfl).lam r hr h8

/-! ### The corner cases -/

/-- R142 (f): with all syndromes 0 every discrepancy is 0, in any field context, and λ and L keep their first values. -/
theorem solverRun_of_zeros (F : FieldTables) {S : Buffer Symbol 8} (h : ∀ i, i < 8 → S.coeff i = 0) {k : Nat}
    (hk : k ≤ 8) :
    (solverRun F S k).lam = solverStart.lam ∧ (solverRun F S k).len = 0 := by
  have hS : ∀ i, S.coeff i = 0 := fun i => (Nat.lt_or_ge i 8).elim (h i) (coeff_out_of_range S i)
  have hzero : ∀ lam r, discrepancy F S lam r = 0 := fun lam r => by
    refine Eq.trans (xorSum_congr fun i _ => ?_) (xorSum_const_zero r)
    rw [syndromeAt, hS]
    exact gfMul_zero_right F _
  refine solverRun_induction (Inv := fun _ st => st.lam = solverStart.lam ∧ st.len = 0) ⟨rfl, rfl⟩
    (fun k st _ hst => ?_) hk
  obtain ⟨-, heq⟩ | ⟨hd, -⟩ | ⟨hd, -⟩ := solverStep_cases F S st (k + 1)
  · rw [heq]
    exact hst
  · exact absurd (hzero _ _) hd
  · exact absurd (hzero _ _) hd

theorem discrepancy_one (p : PrimPoly) (S : Buffer Symbol 8) {lam : Buffer Symbol 9} (hone : lam.coeff 0 = 1) :
    discrepancy (buildField p) S lam 1 = syndromeAt S 1 := by
  rw [discrepancy, xorSum_succ, xorSum_zero, hone]
  exact BitVec.zero_xor.trans (gfMul_one_left p _)

theorem discrepancy_of_linear (p : PrimPoly) (S : Buffer Symbol 8) {lam : Buffer Symbol 9} (hone : lam.coeff 0 = 1)
    (habove : ∀ j, 1 < j → lam.coeff j = 0) {r : Nat} (hr : 1 ≤ r) :
    discrepancy (buildField p) S lam (r + 1) =
      syndromeAt S (r + 1) ^^^ gfMul (buildField p) (lam.coeff 1) (syndromeAt S r) := by
  rw [discrepancy_eq_xorSum habove (Nat.lt_add_of_pos_left hr), xorSum_succ, xorSum_succ, xorSum_zero, hone, Nat.sub_zero,
    Nat.add_sub_cancel]
  exact congrArg (· ^^^ _) (BitVec.zero_xor.trans (gfMul_one_left p _))

section
variable {p : PrimPoly} {S : Buffer Symbol 8} {q : Symbol}
  (hnext : ∀ i, 1 ≤ i → i < 8 → syndromeAt S (i + 1) = gfMul (buildField p) q (syndromeAt S i))
include hnext

/-- The discrepancies of 1 ⊕ q·x are 0 from the step 2 on. -/
theorem discrepancy_of_geometric {lam : Buffer Symbol 9}
    (hlam : ∀ j, lam.coeff j = if j = 0 then 1 else if j = 1 then q else 0) {r : Nat} (h1 : 1 ≤ r) (h8 : r < 8) :
    discrepancy (buildField p) S lam (r + 1) = 0 := by
  have habove : ∀ j, 1 < j → lam.coeff j = 0 := fun j hj => by rw [hlam, if_neg (by omega), if_neg (by omega)]
  have hq : lam.coeff 1 = q := hlam 1
  rw [discrepancy_of_linear p S (hlam 0) habove h1, hq, hnext r h1 h8]
  exact BitVec.xor_self

variable (hfirst : syndromeAt S 1 ≠ 0)
include hfirst

/-- A λ of length 1 that satisfies the recurrence at the step 2 is 1 ⊕ q·x. -/
theorem coeff_lam_of_geometric {k : Nat} {st : SolverState} (hb : WithinBounds k st) (h : IsRecurrence p S k st)
    (hlen : st.len = 1) (hk : 2 ≤ k) (j : Nat) :
    st.lam.coeff j = if j = 0 then 1 else if j = 1 then q else 0 := by
  obtain rfl | rfl | hj : j = 0 ∨ j = 1 ∨ 1 < j := by omega
  · exact hb.lam_zero
  · have hsum := h.lam 2 (by omega) hk
    rw [discrepancy_of_linear p S hb.lam_zero (fun j hj => hb.lam_above j (by omega)) le_rfl, hnext 1 le_rfl (by decide),
      gfMul_comm, gfMul_comm _ (st.lam.coeff 1)] at hsum
    exact (gfMul_left_cancel p _ _ _ hfirst (BitVec.xor_eq_zero_iff.mp hsum)).symm
  · rw [hb.lam_above j (by omega), if_neg (by omega), if_neg (by omega)]

/-- The step 1 makes the length 1, and no later step changes it: the step 2 may not, and the discrepancies after it are 0. -/
theorem solverRun_len_of_geometric {k : Nat} (hk : k < 8) : (solverRun (buildField p) S (k + 1)).len = 1 := by
  induction k with
  | zero =>
    rw [solverRun_succ, solverRun_zero]
    obtain ⟨h0, -⟩ | ⟨_, -, heq⟩ | ⟨-, hl, -⟩ := solverStep_cases (buildField p) S solverStart 1
    · exact absurd ((discrepancy_one p S (coeff_solverStart_lam 0)).symm.trans h0) hfirst
    · rw [heq]; rfl
    · exact absurd hl (Nat.not_lt_zero _)
  | succ k ih =>
    have hlen := ih (by omega)
    rw [solverRun_succ]
    obtain ⟨-, heq⟩ | ⟨hd, hl, -⟩ | ⟨-, -, heq⟩ :=
      solverStep_cases (buildField p) S (solverRun (buildField p) S (k + 1)) (k + 1 + 1)
    · rw [heq]; exact hlen
    · refine absurd (discrepancy_of_geometric hnext (fun j => ?_) (by omega) hk) hd
      exact coeff_lam_of_geometric hnext hfirst (solverRun_withinBounds _ S (by omega))
        (solverRun_isRecurrence p S (by omega)) hlen (by omega) j
    · rw [heq]; exact hlen

theorem solverRun_of_geometric :
    (solverRun (buildField p) S 8).len = 1 ∧
      ∀ j, (solverRun (buildField p) S 8).lam.coeff j = if j = 0 then 1 else if j = 1 then q else 0 := by
  have hlen := solverRun_len_of_geometric hnext hfirst (k := 7) (by decide)
  exact ⟨hlen, coeff_lam_of_geometric hnext hfirst (solverRun_withinBounds _ S le_rfl) (solverRun_isRecurrence p S le_rfl)
    hlen (by decide)⟩

end

/-- The degree is the largest index of a coefficient that is not 0. -/
theorem degree_eq {n : Nat} {P : Buffer Symbol n} {d : Nat} (htop : P.coeff d ≠ 0) (habove : ∀ j, d < j → P.coeff j = 0) :
    degree P = d :=
  le_antisymm (degree_le P d habove) (not_lt.mp fun hlt => htop (coeff_of_degree_lt P d hlt))

theorem degree_of_unit {n : Nat} {P : Buffer Symbol n} (h : ∀ j, P.coeff j = if j = 0 then 1 else 0) : degree P = 0 :=
  degree_eq (by rw [h]; decide) fun j hj => by rw [h, if_neg (by omega)]

/-- What BMSOLVE leaves in its three registers. -/
theorem lam_deg_ell_of_bmsolve {s t : State} (h : exec .bmsolve s = .next t) :
    t.lam = (solverRun (doInit primPoly s).tables s.syn 8).lam ∧ t.deg = BitVec.ofNat 4 (degree t.lam) ∧
      t.ell = BitVec.ofNat 4 (solverRun (doInit primPoly s).tables s.syn 8).len := by
  rw [exec_bmsolve] at h
  cases h
  exact ⟨rfl, rfl, rfl⟩

theorem lam_deg_ell_of_geometric {p : PrimPoly} {s t : State} {q : Symbol} (hs : RunsOver p s)
    (hnext : ∀ i, 1 ≤ i → i < 8 → syndromeAt s.syn (i + 1) = gfMul (buildField p) q (syndromeAt s.syn i))
    (hfirst : syndromeAt s.syn 1 ≠ 0)
    (h : exec .bmsolve s = .next t) :
    (∀ j, t.lam.coeff j = if j = 0 then 1 else if j = 1 then q else 0) ∧
      t.deg = BitVec.ofNat 4 (degree t.lam) ∧ t.ell = 1 := by
  obtain ⟨htables, -⟩ := hs
  obtain ⟨hlam, hdeg, hell⟩ := lam_deg_ell_of_bmsolve h
  rw [htables] at hlam hell
  obtain ⟨hlen, hcoeff⟩ := solverRun_of_geometric hnext hfirst
  rw [hlen] at hell
  exact ⟨fun j => by rw [hlam, hcoeff], hdeg, hell⟩

/-- R141's example: the second syndrome is 0x211 times the first. -/
theorem alphaPow_of_example {x : Nat} {S : Buffer Symbol 8}
    (hS : S.cells = [0x056, 0x04C, 0x193, 0x01D, 0x3B3, 0x1F7, 0x392, 0x156])
    (hnext : syndromeAt S 2 = gfMul (buildField primPoly) (alphaPow (buildField primPoly) x) (syndromeAt S 1)) :
    alphaPow (buildField primPoly) x = 0x211 := by
  have hone : syndromeAt S 1 = 0x056 := by rw [syndromeAt, Buffer.coeff, Buffer.getD, hS]; rfl
  have htwo : syndromeAt S 2 = 0x04C := by rw [syndromeAt, Buffer.coeff, Buffer.getD, hS]; rfl
  have hexample : gfMul (buildField primPoly) 0x056 0x211 = 0x04C := by rw [Fast.gfMul_eq]; decide
  rw [hone, htwo, gfMul_comm, ← hexample] at hnext
  exact (gfMul_left_cancel primPoly _ _ _ (by decide) hnext).symm

/-- Settles O26: with no syndrome, or with syndromes in geometric progression, λ is known after two steps, and the later
discrepancies are 0. -/
theorem bmsolveCommandRule : Obligations.BmsolveCommandRule := by
  unfold Obligations.BmsolveCommandRule
  refine ⟨exec_bmsolve, fun s t hzero h => ?_, fun p s t hs hsyn h => ?_, fun p s t e x hs he hsyn h => ?_⟩
  · obtain ⟨hlam, hdeg, hell⟩ := lam_deg_ell_of_bmsolve h
    obtain ⟨hstart, hlen⟩ := solverRun_of_zeros (doInit primPoly s).tables hzero le_rfl
    rw [hstart] at hlam
    rw [hlen] at hell
    have hcoeff : ∀ j, t.lam.coeff j = if j = 0 then 1 else 0 := fun j => by rw [hlam, coeff_solverStart_lam]
    exact ⟨fun j _ => hcoeff j, by rw [hdeg, degree_of_unit hcoeff]; rfl, hell⟩
  · have hsyn' : ∀ i, i < 8 → syndromeAt s.syn (i + 1) = if i = 0 then 1 else 0 := hsyn
    obtain ⟨hcoeff, hdeg, hell⟩ := lam_deg_ell_of_geometric (q := 0) hs
      (fun i h1 h8 => by rw [hsyn' i h8, if_neg (by omega)]; exact (gfMul_zero_left _ _).symm)
      (by rw [hsyn' 0 (by decide)]; decide) h
    have hunit : ∀ j, t.lam.coeff j = if j = 0 then 1 else 0 := fun j => by rw [hcoeff, ite_self]
    exact ⟨fun j _ => hunit j, by rw [hdeg, degree_of_unit hunit]; rfl, hell⟩
  · have hfirst : syndromeAt s.syn 1 ≠ 0 := by
      rw [hsyn 1 le_rfl (by decide), Ne, gfMul_eq_zero_iff]
      exact not_or.mpr ⟨he, alphaPow_ne_zero p _⟩
    have hnext : ∀ i, 1 ≤ i → i < 8 →
        syndromeAt s.syn (i + 1) = gfMul (buildField p) (alphaPow (buildField p) x) (syndromeAt s.syn i) :=
      fun i h1 h8 => by
        rw [hsyn i h1 h8.le, hsyn (i + 1) (by omega) h8, gfMul_comm _ e (alphaPow _ (x * i)), ← gfMul_assoc, gfMul_alphaPow,
          Nat.mul_succ, Nat.add_comm x, gfMul_comm _ e]
    obtain ⟨hcoeff, hdeg, hell⟩ := lam_deg_ell_of_geometric (q := alphaPow (buildField p) x) hs hnext hfirst h
    have hd : degree t.lam = 1 := degree_eq (by rw [hcoeff]; exact alphaPow_ne_zero p x) fun j hj => by
      rw [hcoeff, if_neg (by omega), if_neg (by omega)]
    refine ⟨fun j _ => hcoeff j, by rw [hdeg, hd]; rfl, hell, ?_⟩
    rintro rfl hcells
    refine cells_eq_of_coeff rfl fun j hj => ?_
    rw [hcoeff, alphaPow_of_example hcells (hnext 1 le_rfl (by decide))]
    decide +revert

/-! ## The symbols as a field

R90: with exclusive-or and `gf_mul` the symbols are a field, so that Mathlib's facts about polynomials over a field hold of
them. -/

/-- `φ` reads the symbols of the block built with `p` as elements of the field `K`. -/
structure ReadsSymbols (p : PrimPoly) {K : Type} [Field K] (φ : Symbol → K) : Prop where
  map_xor : ∀ a b, φ (a ^^^ b) = φ a + φ b
  map_gfMul : ∀ a b, φ (gfMul (buildField p) a b) = φ a * φ b
  map_one : φ 1 = 1
  injective : Function.Injective φ

/-- The symbols as the carrier of the field of `p`. -/
def Element (_ : PrimPoly) : Type := Symbol

/-- The inverse, with the value 0 at 0 where `gf_inv` has none (R96). -/
def symbolInv (p : PrimPoly) (a : Symbol) : Symbol := if h : a = 0 then 0 else gfInv (buildField p) a h

/-- R90, R96: the field of `p`; every element is its own negative. -/
@[reducible] def symbolField (p : PrimPoly) : Field (Element p) where
  add a b := BitVec.xor a b
  add_assoc := BitVec.xor_assoc
  zero := (0 : Symbol)
  zero_add _ := BitVec.zero_xor
  add_zero _ := BitVec.xor_zero
  nsmul := @nsmulRec _ ⟨(0 : Symbol)⟩ ⟨BitVec.xor⟩
  neg a := a
  zsmul := @zsmulRec _ ⟨(0 : Symbol)⟩ ⟨BitVec.xor⟩ ⟨fun a => a⟩ (@nsmulRec _ ⟨(0 : Symbol)⟩ ⟨BitVec.xor⟩)
  neg_add_cancel _ := BitVec.xor_self
  add_comm := BitVec.xor_comm
  mul := gfMul (buildField p)
  left_distrib := gfMul_xor_right p
  right_distrib := gfMul_xor_left p
  zero_mul := gfMul_zero_left _
  mul_zero := gfMul_zero_right _
  mul_assoc := gfMul_assoc p
  one := (1 : Symbol)
  one_mul := gfMul_one_left p
  mul_one := gfMul_one_right p
  mul_comm := gfMul_comm _
  inv := symbolInv p
  exists_pair_ne := ⟨(0 : Symbol), (1 : Symbol), (by decide : (0 : Symbol) ≠ 1)⟩
  mul_inv_cancel a h := (congrArg (gfMul (buildField p) a) (dif_neg h)).trans (gfMul_gfInv p a h)
  inv_zero := dif_pos rfl
  nnqsmul := _
  qsmul := _

theorem exists_readsSymbols (p : PrimPoly) : ∃ (K : Type) (_ : Field K) (φ : Symbol → K), ReadsSymbols p φ :=
  letI := symbolField p
  ⟨Element p, symbolField p, id, fun _ _ => rfl, fun _ _ => rfl, rfl, Function.injective_id⟩

/-! ### Roots and positions (R44) -/

theorem rootToPosition_sub {pos : Nat} (h : pos < 1023) : rootToPosition (1023 - pos) = pos := by
  rw [rootToPosition]
  omega

theorem sub_rootToPosition {rho : Nat} (h1 : 1 ≤ rho) (h2 : rho ≤ 1023) : 1023 - rootToPosition rho = rho := by
  rw [rootToPosition]
  omega

/-! ### The field functions read in the field -/

section
variable {p : PrimPoly} {K : Type} [Field K] {φ : Symbol → K} (h : ReadsSymbols p φ)
include h

theorem ReadsSymbols.map_zero : φ 0 = 0 := by
  have hsum : φ 0 = φ 0 + φ 0 := h.map_xor 0 0
  exact left_eq_add.mp hsum

theorem ReadsSymbols.map_eq_zero_iff {a : Symbol} : φ a = 0 ↔ a = 0 := by
  rw [← h.map_zero, h.injective.eq_iff]

/-- Every element is its own negative (R104). -/
theorem ReadsSymbols.two_eq_zero : (2 : K) = 0 := by
  have := h.map_xor 1 1
  rw [BitVec.xor_self, h.map_one, one_add_one_eq_two] at this
  exact this.symm.trans h.map_zero

theorem ReadsSymbols.map_xorSum (k : Nat) (f : Nat → Symbol) : φ (xorSum k f) = ∑ i ∈ Finset.range k, φ (f i) := by
  induction k with
  | zero => exact h.map_zero
  | succ k ih => rw [xorSum_succ, h.map_xor, ih, Finset.sum_range_succ]

theorem ReadsSymbols.map_alphaPow_add (i j : Nat) :
    φ (alphaPow (buildField p) (i + j)) = φ (alphaPow (buildField p) i) * φ (alphaPow (buildField p) j) := by
  rw [← gfMul_alphaPow, h.map_gfMul]

theorem ReadsSymbols.map_alphaPow_mul (i j : Nat) :
    φ (alphaPow (buildField p) (i * j)) = φ (alphaPow (buildField p) j) ^ i := by
  induction i with
  | zero => rw [Nat.zero_mul, alphaPow_zero, pow_zero]; exact h.map_one
  | succ i ih => rw [Nat.succ_mul, h.map_alphaPow_add, ih, pow_succ]

theorem ReadsSymbols.map_alphaPow_ne_zero (i : Nat) : φ (alphaPow (buildField p) i) ≠ 0 :=
  mt h.map_eq_zero_iff.mp (alphaPow_ne_zero p i)

theorem ReadsSymbols.map_alphaPow_injective {i j : Nat} (hi : i < 1023) (hj : j < 1023)
    (heq : φ (alphaPow (buildField p) i) = φ (alphaPow (buildField p) j)) : i = j :=
  alphaPow_injective p hi hj (h.injective heq)

/-- R44: the point of the root search that names a position is the inverse of α^pos. -/
theorem ReadsSymbols.map_alphaPow_sub {pos : Nat} (hpos : pos < 1023) :
    φ (alphaPow (buildField p) (1023 - pos)) = (φ (alphaPow (buildField p) pos))⁻¹ := by
  have hone : alphaPow (buildField p) (1023 - pos + pos) = 1 := by
    rw [← alphaPow_zero p, alphaPow_eq_iff]
    omega
  refine eq_inv_of_mul_eq_one_left ?_
  rw [← h.map_alphaPow_add, hone, h.map_one]

end

/-! ### Sums over a field -/

section
variable {K : Type} [Field K]

/-- When the power sums over distinct points x_l are 0 at as many exponents in a row as there are points, every weight is 0
(Vandermonde). -/
theorem weights_eq_zero {P : Finset Nat} {x a : Nat → K} (hx : Set.InjOn x P) (hx0 : ∀ l ∈ P, x l ≠ 0) (m : Nat)
    (hsum : ∀ i, i < P.card → ∑ l ∈ P, a l * x l ^ (m + i) = 0) : ∀ l ∈ P, a l = 0 := by
  have hpoints : Function.Injective fun n : Fin P.card => x (P.equivFin.symm n) := fun n n' hn =>
    P.equivFin.symm.injective (Subtype.ext (hx (P.equivFin.symm n).2 (P.equivFin.symm n').2 hn))
  have hzero : (fun n : Fin P.card => a (P.equivFin.symm n) * x (P.equivFin.symm n) ^ m) = 0 := by
    refine Matrix.eq_zero_of_forall_pow_sum_mul_pow_eq_zero hpoints fun i => ?_
    rw [← hsum i i.isLt, ← P.sum_coe_sort, ← P.equivFin.symm.sum_comp]
    exact Finset.sum_congr rfl fun n _ => by rw [pow_add, mul_assoc]
  intro l hl
  have := congrFun hzero (P.equivFin ⟨l, hl⟩)
  simpa [hx0 l hl] using this

/-- Summation by parts: a power series whose coefficients are the partial sums of `c`. -/
theorem one_sub_mul_sum_partialSums (c : Nat → K) (y : K) (n : Nat) :
    (1 - y) * ∑ i ∈ Finset.range n, (∑ j ∈ Finset.range (i + 1), c j) * y ^ i =
      ∑ i ∈ Finset.range n, c i * y ^ i - y ^ n * ∑ j ∈ Finset.range n, c j := by
  induction n with
  | zero => simp
  | succ n ih =>
    rw [Finset.sum_range_succ, mul_add, ih, Finset.sum_range_succ _ n, Finset.sum_range_succ _ n]
    ring

theorem sum_partialSums (c : Nat → K) (n : Nat) :
    ∑ i ∈ Finset.range n, ∑ j ∈ Finset.range (i + 1), c j =
      n * ∑ j ∈ Finset.range n, c j - ∑ j ∈ Finset.range n, j * c j := by
  induction n with
  | zero => simp
  | succ n ih =>
    rw [Finset.sum_range_succ, ih, Finset.sum_range_succ _ n, Finset.sum_range_succ _ n]
    push_cast
    ring

/-- With 2 = 0 the terms j·c_j·x^j of even j are 0. -/
theorem sum_natCast_mul (htwo : (2 : K) = 0) (c : Nat → K) (x : K) (n : Nat) :
    ∑ j ∈ Finset.range (2 * n), (j : K) * (c j * x ^ j) = x * ∑ k ∈ Finset.range n, c (2 * k + 1) * x ^ (2 * k) := by
  induction n with
  | zero => simp
  | succ n ih =>
    rw [Nat.mul_succ, Finset.sum_range_succ, Finset.sum_range_succ, ih, Finset.sum_range_succ]
    push_cast
    linear_combination (n * c (2 * n) * x ^ (2 * n) + n * c (2 * n + 1) * x ^ (2 * n + 1)) * htwo

end

/-! ## The syndromes of an error word (R142 (e)) -/

/-- The positions at which an error word is not 0. -/
def errorPositions (E : Buffer Container 1023) : Finset Nat :=
  (Finset.range 1023).filter fun pos => containerToSymbol (E.coeff pos) ≠ 0

theorem lt_of_mem_errorPositions {E : Buffer Container 1023} {pos : Nat} (h : pos ∈ errorPositions E) : pos < 1023 :=
  Finset.mem_range.mp (Finset.mem_filter.mp h).1

/-- λ(x) without the terms from `r` on, at a point x of the field `K`. -/
def partialValue {K : Type} [Field K] (φ : Symbol → K) (lam : Buffer Symbol 9) (r : Nat) (x : K) : K :=
  ∑ i ∈ Finset.range r, φ (lam.coeff i) * x ^ i

section
variable {p : PrimPoly} {K : Type} [Field K] {φ : Symbol → K} (h : ReadsSymbols p φ)
include h

theorem ReadsSymbols.map_locatorAt (lam : Buffer Symbol 9) (i : Nat) :
    φ (locatorAt (buildField p) lam i) = partialValue φ lam 9 (φ (alphaPow (buildField p) i)) := by
  rw [locatorAt, h.map_xorSum, partialValue]
  exact Finset.sum_congr rfl fun j _ => by rw [h.map_gfMul, Nat.mul_comm, h.map_alphaPow_mul]

/-- The terms above the degree are 0. -/
theorem ReadsSymbols.partialValue_eq {lam : Buffer Symbol 9} {r : Nat} (h9 : r ≤ 9)
    (habove : ∀ j, r ≤ j → lam.coeff j = 0) (x : K) : partialValue φ lam r x = partialValue φ lam 9 x := by
  refine Finset.sum_subset (Finset.range_mono h9) fun j _ hj => ?_
  rw [habove j (not_lt.mp (mt Finset.mem_range.mpr hj)), h.map_zero, zero_mul]

theorem ReadsSymbols.injOn_errorPositions (E : Buffer Container 1023) :
    Set.InjOn (fun pos => φ (alphaPow (buildField p) pos)) (errorPositions E) := fun _ hi _ hj heq =>
  h.map_alphaPow_injective (lt_of_mem_errorPositions hi) (lt_of_mem_errorPositions hj) heq

/-- R62: S_r is the sum of e·X^r over the error positions, with X = α^pos. -/
theorem ReadsSymbols.map_syndromeAt (E : Buffer Container 1023) {r : Nat} (h1 : 1 ≤ r) (h8 : r ≤ 8) :
    φ (syndromeAt (syndromes (buildField p) E) r) =
      ∑ pos ∈ errorPositions E, φ (containerToSymbol (E.coeff pos)) * φ (alphaPow (buildField p) pos) ^ r := by
  rw [syndromeAt_syndromes p E h1 h8, receivedAt, h.map_xorSum, errorPositions, Finset.sum_filter]
  refine Finset.sum_congr rfl fun pos _ => ?_
  rw [h.map_gfMul, h.map_alphaPow_mul]
  split
  · rfl
  · next hzero => rw [not_ne_iff.mp hzero, h.map_zero, zero_mul]

/-- The sum of the step r is the sum of e·X^r times the value of λ, without the terms from r on, at the inverse of X. -/
theorem ReadsSymbols.map_discrepancy (E : Buffer Container 1023) (lam : Buffer Symbol 9) {r : Nat} (h8 : r ≤ 8) :
    φ (discrepancy (buildField p) (syndromes (buildField p) E) lam r) =
      ∑ pos ∈ errorPositions E, φ (containerToSymbol (E.coeff pos)) *
        partialValue φ lam r (φ (alphaPow (buildField p) pos))⁻¹ * φ (alphaPow (buildField p) pos) ^ r := by
  have hterm : ∀ i ∈ Finset.range r,
      φ (gfMul (buildField p) (lam.coeff i) (syndromeAt (syndromes (buildField p) E) (r - i))) =
        ∑ pos ∈ errorPositions E, φ (containerToSymbol (E.coeff pos)) *
          (φ (lam.coeff i) * (φ (alphaPow (buildField p) pos))⁻¹ ^ i) * φ (alphaPow (buildField p) pos) ^ r := by
    intro i hi
    have hir : i < r := Finset.mem_range.mp hi
    rw [h.map_gfMul, h.map_syndromeAt E (by omega) (by omega), Finset.mul_sum]
    refine Finset.sum_congr rfl fun pos _ => ?_
    rw [pow_sub₀ _ (h.map_alphaPow_ne_zero pos) hir.le, inv_pow]
    ring
  rw [discrepancy, h.map_xorSum, Finset.sum_congr rfl hterm, Finset.sum_comm]
  exact Finset.sum_congr rfl fun pos _ => by rw [partialValue, Finset.mul_sum, Finset.sum_mul]

end

section
variable (p : PrimPoly) {E : Buffer Container 1023} {lam : Buffer Symbol 9}

/-- A λ that is 0 at the inverses of the error locations satisfies the recurrence from its degree on. -/
theorem discrepancy_of_roots (hroots : ∀ pos ∈ errorPositions E, locatorAt (buildField p) lam (1023 - pos) = 0) {r : Nat}
    (habove : ∀ j, r ≤ j → lam.coeff j = 0) (h8 : r ≤ 8) :
    discrepancy (buildField p) (syndromes (buildField p) E) lam r = 0 := by
  obtain ⟨K, _, φ, h⟩ := exists_readsSymbols p
  rw [← h.map_eq_zero_iff, h.map_discrepancy E lam h8]
  refine Finset.sum_eq_zero fun pos hpos => ?_
  rw [h.partialValue_eq (by omega) habove, ← h.map_alphaPow_sub (lt_of_mem_errorPositions hpos), ← h.map_locatorAt,
    hroots pos hpos, h.map_zero, mul_zero, zero_mul]

/-- A recurrence of length L that holds at as many steps after L as there are errors is 0 at the inverses of the error
locations. -/
theorem roots_of_discrepancy {L : Nat} (habove : ∀ j, L < j → lam.coeff j = 0)
    (h8 : L + (errorPositions E).card ≤ 8)
    (hsum : ∀ r, L < r → r ≤ L + (errorPositions E).card →
      discrepancy (buildField p) (syndromes (buildField p) E) lam r = 0) :
    ∀ pos ∈ errorPositions E, locatorAt (buildField p) lam (1023 - pos) = 0 := by
  obtain ⟨K, _, φ, h⟩ := exists_readsSymbols p
  have hweights := weights_eq_zero (a := fun pos => φ (containerToSymbol (E.coeff pos)) *
      partialValue φ lam 9 (φ (alphaPow (buildField p) pos))⁻¹)
    (h.injOn_errorPositions E) (fun pos _ => h.map_alphaPow_ne_zero pos) (L + 1) fun i hi => by
      have hzero := hsum (L + 1 + i) (by omega) (by omega)
      rw [← h.map_eq_zero_iff, h.map_discrepancy E lam (by omega)] at hzero
      refine Eq.trans (Finset.sum_congr rfl fun pos _ => ?_) hzero
      rw [h.partialValue_eq (r := L + 1 + i) (by omega) fun j hj => habove j (by omega)]
  intro pos hpos
  have hmagnitude : φ (containerToSymbol (E.coeff pos)) ≠ 0 := mt h.map_eq_zero_iff.mp (Finset.mem_filter.mp hpos).2
  rw [← h.map_eq_zero_iff, h.map_locatorAt, h.map_alphaPow_sub (lt_of_mem_errorPositions hpos)]
  exact (mul_eq_zero.mp (hweights pos hpos)).resolve_left hmagnitude

end

/-- After k steps, as many of them after L as there are errors, λ is 0 at the inverses of the error locations. -/
theorem solverRun_roots (p : PrimPoly) (E : Buffer Container 1023) {k : Nat} (hk : k ≤ 8)
    (hlen : (solverRun (buildField p) (syndromes (buildField p) E) k).len + (errorPositions E).card ≤ k) :
    ∀ pos ∈ errorPositions E,
      locatorAt (buildField p) (solverRun (buildField p) (syndromes (buildField p) E) k).lam (1023 - pos) = 0 :=
  roots_of_discrepancy p (solverRun_withinBounds _ _ hk).lam_above (hlen.trans hk) fun r hr hrk =>
    (solverRun_isRecurrence p _ hk).lam r hr (hrk.trans hlen)

/-- The length never passes the number ν of errors: it grows to k + 1 − L at a step k + 1 with a discrepancy, and if that were
more than ν, λ would be 0 at the inverses of the error locations already, with no discrepancy. -/
theorem solverRun_len_le (p : PrimPoly) (E : Buffer Container 1023) {k : Nat} (hk : k ≤ 8) :
    (solverRun (buildField p) (syndromes (buildField p) E) k).len ≤ (errorPositions E).card := by
  induction k with
  | zero => exact Nat.zero_le _
  | succ k ih =>
    have hle := ih (by omega)
    have hb := solverRun_withinBounds (buildField p) (syndromes (buildField p) E) (k := k) (by omega)
    have hlen := hb.len_le
    rw [solverRun_succ]
    obtain ⟨-, heq⟩ | ⟨hd, _, heq⟩ | ⟨-, -, heq⟩ := solverStep_cases (buildField p) (syndromes (buildField p) E)
      (solverRun (buildField p) (syndromes (buildField p) E) k) (k + 1) <;> rw [heq]
    · exact hle
    · by_contra hgt
      dsimp only at hgt
      exact hd (discrepancy_of_roots p (solverRun_roots p E (by omega) (by omega))
        (fun j hj => hb.lam_above j (by omega)) hk)
    · exact hle

/-- R142 (e): of a word with at most four errors the solver finds a locator of at most their number in degree that is 0 at the
inverses of the error locations. -/
theorem bmSolve_of_errors (p : PrimPoly) {E : Buffer Container 1023} (hE : (errorPositions E).card ≤ 4) :
    (bmSolve (buildField p) (syndromes (buildField p) E)).lam.coeff 0 = 1 ∧
    degree (bmSolve (buildField p) (syndromes (buildField p) E)).lam ≤ (errorPositions E).card ∧
    ∀ pos ∈ errorPositions E,
      locatorAt (buildField p) (bmSolve (buildField p) (syndromes (buildField p) E)).lam (1023 - pos) = 0 := by
  have hb := solverRun_withinBounds (buildField p) (syndromes (buildField p) E) le_rfl
  have hlen := solverRun_len_le p E le_rfl
  exact ⟨hb.lam_zero, (degree_le _ _ hb.lam_above).trans hlen, solverRun_roots p E le_rfl (by omega)⟩

/-! ## The roots of the locator (R150) -/

/-- λ as a polynomial over the field `K`. -/
noncomputable def locatorPoly {K : Type} [Field K] (φ : Symbol → K) (lam : Buffer Symbol 9) : Polynomial K :=
  ∑ j ∈ Finset.range 9, Polynomial.C (φ (lam.coeff j)) * Polynomial.X ^ j

theorem mem_chienRoots (F : FieldTables) (lam : Buffer Symbol 9) (i : Nat) :
    i ∈ chienRoots F lam ↔ (1 ≤ i ∧ i ≤ 1023) ∧ locatorAt F lam i = 0 := by
  rw [chienRoots, List.mem_filter, List.mem_range'_1, beq_iff_eq]
  exact and_congr_left' (and_congr_right' (by omega))

theorem nodup_chienRoots (F : FieldTables) (lam : Buffer Symbol 9) : (chienRoots F lam).Nodup :=
  List.Nodup.filter _ List.nodup_range'

/-- The points of the field at which the search finds λ to be 0. -/
noncomputable def rootPoints {K : Type} [Field K] (p : PrimPoly) (φ : Symbol → K) (lam : Buffer Symbol 9) : Finset K := by
  classical exact (chienRoots (buildField p) lam).toFinset.image fun i => φ (alphaPow (buildField p) i)

section
variable {p : PrimPoly} {K : Type} [Field K] {φ : Symbol → K} (h : ReadsSymbols p φ) {lam : Buffer Symbol 9}
include h

theorem ReadsSymbols.coeff_locatorPoly (j : Nat) : (locatorPoly φ lam).coeff j = φ (lam.coeff j) := by
  simp only [locatorPoly, Polynomial.finsetSum_coeff, Polynomial.coeff_C_mul_X_pow]
  rw [Finset.sum_ite_eq]
  split
  · rfl
  · next hj => rw [coeff_out_of_range _ _ (not_lt.mp (mt Finset.mem_range.mpr hj)), ← h.map_zero]

theorem ReadsSymbols.locatorPoly_ne_zero {j : Nat} (hj : lam.coeff j ≠ 0) : locatorPoly φ lam ≠ 0 := fun hzero =>
  hj (by rw [← h.map_eq_zero_iff, ← h.coeff_locatorPoly, hzero, Polynomial.coeff_zero])

theorem ReadsSymbols.natDegree_locatorPoly_le : (locatorPoly φ lam).natDegree ≤ degree lam := by
  rw [Polynomial.natDegree_le_iff_coeff_eq_zero]
  intro j hj
  rw [h.coeff_locatorPoly, coeff_of_degree_lt lam j hj, h.map_zero]

theorem ReadsSymbols.eval_locatorPoly (i : Nat) :
    (locatorPoly φ lam).eval (φ (alphaPow (buildField p) i)) = φ (locatorAt (buildField p) lam i) := by
  rw [h.map_locatorAt, locatorPoly, Polynomial.eval_finsetSum, partialValue]
  exact Finset.sum_congr rfl fun j _ => by simp

/-- R161: the odd coefficients make the derivative, as the terms j·λ_j·x^j with even j are 0. -/
theorem ReadsSymbols.map_derivativeAt (rho : Nat) :
    ∑ j ∈ Finset.range 8, (j : K) * (φ (lam.coeff j) * φ (alphaPow (buildField p) rho) ^ j) =
      φ (alphaPow (buildField p) rho) * φ (derivativeAt (buildField p) lam rho) := by
  rw [derivativeAt, h.map_xorSum, sum_natCast_mul h.two_eq_zero _ _ 4]
  refine congrArg _ (Finset.sum_congr rfl fun k _ => ?_)
  rw [h.map_gfMul, h.map_alphaPow_mul]

theorem ReadsSymbols.eval_derivative_locatorPoly (rho : Nat) :
    (locatorPoly φ lam).derivative.eval (φ (alphaPow (buildField p) rho)) = φ (derivativeAt (buildField p) lam rho) := by
  have hterm : ∀ (x a : K) (j : Nat),
      x * (Polynomial.C a * Polynomial.X ^ j : Polynomial K).derivative.eval x = j * (a * x ^ j) := by
    rintro x a (_ | j)
    · simp
    · rw [Polynomial.derivative_C_mul_X_pow, Polynomial.eval_C_mul, Polynomial.eval_pow, Polynomial.eval_X,
        Nat.add_sub_cancel]
      ring
  have height : ((8 : Nat) : K) = 0 := by linear_combination 4 * h.two_eq_zero
  refine mul_left_cancel₀ (h.map_alphaPow_ne_zero rho) ?_
  rw [← h.map_derivativeAt, locatorPoly, Polynomial.derivative_sum, Polynomial.eval_finsetSum, Finset.mul_sum,
    Finset.sum_congr rfl fun j _ => hterm _ _ j, Finset.sum_range_succ, height, zero_mul, add_zero]

theorem ReadsSymbols.card_rootPoints : (rootPoints p φ lam).card = (chienRoots (buildField p) lam).length := by
  classical
  rw [rootPoints, Finset.card_image_of_injOn, List.toFinset_card_of_nodup (nodup_chienRoots _ _)]
  intro i hi j hj heq
  obtain ⟨hi, -⟩ := (mem_chienRoots _ _ i).mp (List.mem_toFinset.mp hi)
  obtain ⟨hj, -⟩ := (mem_chienRoots _ _ j).mp (List.mem_toFinset.mp hj)
  have := (alphaPow_eq_iff p i j).mp (h.injective heq)
  omega

theorem ReadsSymbols.rootPoints_subset {j : Nat} (hj : lam.coeff j ≠ 0) :
    (rootPoints p φ lam).val ⊆ (locatorPoly φ lam).roots := by
  classical
  intro x hx
  obtain ⟨i, hi, rfl⟩ := Finset.mem_image.mp (Finset.mem_val.mp hx)
  obtain ⟨-, hzero⟩ := (mem_chienRoots _ _ i).mp (List.mem_toFinset.mp hi)
  rw [Polynomial.mem_roots (h.locatorPoly_ne_zero hj), Polynomial.IsRoot, h.eval_locatorPoly, hzero, h.map_zero]

end

/-- R150: "a polynomial of degree d has at most d roots". -/
theorem length_chienRoots_le_degree (p : PrimPoly) {lam : Buffer Symbol 9} {j : Nat} (hj : lam.coeff j ≠ 0) :
    (chienRoots (buildField p) lam).length ≤ degree lam := by
  obtain ⟨K, _, φ, h⟩ := exists_readsSymbols p
  rw [← h.card_rootPoints]
  exact (Polynomial.card_le_degree_of_subset_roots (h.rootPoints_subset hj)).trans h.natDegree_locatorPoly_le

/-- R165: the roots of a λ with as many roots as its degree are simple. -/
theorem derivativeAt_ne_zero (p : PrimPoly) {lam : Buffer Symbol 9} {j : Nat} (hj : lam.coeff j ≠ 0)
    (hcount : (chienRoots (buildField p) lam).length = degree lam) {rho : Nat}
    (hrho : rho ∈ chienRoots (buildField p) lam) : derivativeAt (buildField p) lam rho ≠ 0 := by
  classical
  obtain ⟨K, _, φ, h⟩ := exists_readsSymbols p
  have hne := h.locatorPoly_ne_zero hj
  have hroots : (rootPoints p φ lam).val = (locatorPoly φ lam).roots := by
    refine Multiset.eq_of_le_of_card_le (Finset.val_le_iff_val_subset.mpr (h.rootPoints_subset hj)) ?_
    rw [Finset.card_val, h.card_rootPoints, hcount]
    exact (Polynomial.card_roots' _).trans h.natDegree_locatorPoly_le
  have hsimple : (locatorPoly φ lam).rootMultiplicity (φ (alphaPow (buildField p) rho)) ≤ 1 := by
    rw [← Polynomial.count_roots, ← hroots]
    exact Multiset.nodup_iff_count_le_one.mp (rootPoints p φ lam).nodup _
  intro hzero
  refine absurd ((Polynomial.one_lt_rootMultiplicity_iff_isRoot hne).mpr ⟨?_, ?_⟩) (not_lt.mpr hsimple)
  · rw [Polynomial.IsRoot, h.eval_locatorPoly, ((mem_chienRoots _ _ _).mp hrho).2, h.map_zero]
  · rw [Polynomial.IsRoot, h.eval_derivative_locatorPoly, hzero, h.map_zero]

/-- The search tries each position once. -/
theorem nodup_map_rootToPosition (F : FieldTables) (lam : Buffer Symbol 9) :
    ((chienRoots F lam).map rootToPosition).Nodup := by
  refine (nodup_chienRoots F lam).map_on fun i hi j hj heq => ?_
  obtain ⟨hi, -⟩ := (mem_chienRoots F lam i).mp hi
  obtain ⟨hj, -⟩ := (mem_chienRoots F lam j).mp hj
  rw [← sub_rootToPosition hi.1 hi.2, heq, sub_rootToPosition hj.1 hj.2]

/-- A locator whose degree is at most the number of errors and that is 0 at the inverses of their locations has these roots and
no other. -/
theorem chienRoots_of_errors (p : PrimPoly) {E : Buffer Container 1023} {lam : Buffer Symbol 9} (hone : lam.coeff 0 = 1)
    (hdegree : degree lam ≤ (errorPositions E).card)
    (hroots : ∀ pos ∈ errorPositions E, locatorAt (buildField p) lam (1023 - pos) = 0) :
    (chienRoots (buildField p) lam).length = (errorPositions E).card ∧ degree lam = (errorPositions E).card ∧
    ∀ pos, pos ∈ (chienRoots (buildField p) lam).map rootToPosition ↔ pos ∈ errorPositions E := by
  have hsubset : errorPositions E ⊆ ((chienRoots (buildField p) lam).map rootToPosition).toFinset := fun pos hpos => by
    have hlt := lt_of_mem_errorPositions hpos
    have hmem : 1023 - pos ∈ chienRoots (buildField p) lam := (mem_chienRoots _ _ _).mpr ⟨by omega, hroots pos hpos⟩
    exact List.mem_toFinset.mpr (List.mem_map.mpr ⟨_, hmem, rootToPosition_sub hlt⟩)
  have hnonzero : lam.coeff 0 ≠ 0 := by rw [hone]; decide
  have hcount := length_chienRoots_le_degree p hnonzero
  have hcard := Finset.card_le_card hsubset
  have hlength := List.toFinset_card_le ((chienRoots (buildField p) lam).map rootToPosition)
  rw [List.length_map] at hlength
  refine ⟨by omega, by omega, fun pos => ?_⟩
  rw [Finset.eq_of_subset_of_card_le hsubset (by omega), List.mem_toFinset]

/-! ## The magnitudes (R160, R161) -/

/-- R160: stopping at the degree is only a saving, so ω_i is the sum that the solver forms at the step i + 1. -/
theorem coeff_omegaPoly (F : FieldTables) (S : Buffer Symbol 8) (lam : Buffer Symbol 9) {i : Nat} (hi : i < 8) :
    (omegaPoly F S lam).coeff i = discrepancy F S lam (i + 1) := by
  have hterm : ∀ j, gfMul F (syndromeAt S (i + 1 - j)) (lam.coeff j) = gfMul F (lam.coeff j) (syndromeAt S (i + 1 - j)) :=
    fun j => gfMul_comm F _ _
  rw [omegaPoly, coeff_tabulate, if_pos hi]
  simp only [hterm]
  obtain hd | hd := Nat.lt_or_ge i (degree lam)
  · rw [Nat.min_eq_right hd.le, discrepancy]
  · rw [Nat.min_eq_left hd, discrepancy_eq_xorSum (coeff_of_degree_lt lam) (Nat.lt_succ_of_le hd)]

/-- At a root x of λ the share of an error at another root X⁻¹ is 0. -/
theorem sum_partialValue_eq_zero {K : Type} [Field K] {φ : Symbol → K} {lam : Buffer Symbol 9} {x X : K} (hX : X ≠ 0)
    (hne : x ≠ X⁻¹) (hx : partialValue φ lam 8 x = 0) (hroot : partialValue φ lam 8 X⁻¹ = 0) :
    ∑ i ∈ Finset.range 8, partialValue φ lam (i + 1) X⁻¹ * (X * x) ^ i = 0 := by
  have hy : 1 - X * x ≠ 0 := fun hzero => hne (eq_inv_of_mul_eq_one_right (sub_eq_zero.mp hzero).symm)
  have hterm : ∀ i, φ (lam.coeff i) * X⁻¹ ^ i * (X * x) ^ i = φ (lam.coeff i) * x ^ i := fun i => by
    rw [mul_assoc, ← mul_pow, inv_mul_cancel_left₀ hX]
  have hparts : (1 - X * x) * ∑ i ∈ Finset.range 8, partialValue φ lam (i + 1) X⁻¹ * (X * x) ^ i =
      ∑ i ∈ Finset.range 8, φ (lam.coeff i) * X⁻¹ ^ i * (X * x) ^ i - (X * x) ^ 8 * partialValue φ lam 8 X⁻¹ :=
    one_sub_mul_sum_partialSums _ _ 8
  rw [Finset.sum_congr rfl fun i _ => hterm i, ← partialValue, hx, hroot, mul_zero, sub_zero] at hparts
  exact (mul_eq_zero.mp hparts).resolve_left hy

section
variable {p : PrimPoly} {K : Type} [Field K] {φ : Symbol → K} (h : ReadsSymbols p φ)
include h

/-- ω at α^ρ, error by error: the error e at X contributes the partial sums of λ(X⁻¹), weighted by the powers of X·α^ρ. -/
theorem ReadsSymbols.map_evaluatorAt (E : Buffer Container 1023) (lam : Buffer Symbol 9) (rho : Nat) :
    φ (evaluatorAt (buildField p) (omegaPoly (buildField p) (syndromes (buildField p) E) lam) rho) =
      ∑ pos ∈ errorPositions E, φ (containerToSymbol (E.coeff pos)) * φ (alphaPow (buildField p) pos) *
        ∑ i ∈ Finset.range 8, partialValue φ lam (i + 1) (φ (alphaPow (buildField p) pos))⁻¹ *
          (φ (alphaPow (buildField p) pos) * φ (alphaPow (buildField p) rho)) ^ i := by
  have hterm : ∀ i ∈ Finset.range 8,
      φ (gfMul (buildField p) ((omegaPoly (buildField p) (syndromes (buildField p) E) lam).coeff i)
        (alphaPow (buildField p) (i * rho))) =
        ∑ pos ∈ errorPositions E, φ (containerToSymbol (E.coeff pos)) * φ (alphaPow (buildField p) pos) *
          (partialValue φ lam (i + 1) (φ (alphaPow (buildField p) pos))⁻¹ *
            (φ (alphaPow (buildField p) pos) * φ (alphaPow (buildField p) rho)) ^ i) := by
    intro i hi
    have hi8 : i < 8 := Finset.mem_range.mp hi
    rw [h.map_gfMul, h.map_alphaPow_mul, coeff_omegaPoly _ _ _ hi8, h.map_discrepancy E lam hi8, Finset.sum_mul]
    exact Finset.sum_congr rfl fun pos _ => by rw [pow_succ, mul_pow]; ring
  rw [evaluatorAt, h.map_xorSum, Finset.sum_congr rfl hterm, Finset.sum_comm]
  exact Finset.sum_congr rfl fun pos _ => (Finset.mul_sum _ _ _).symm

/-- At its own root x the share of an error is x·λ'(x). -/
theorem ReadsSymbols.sum_partialValue_self {lam : Buffer Symbol 9} {rho : Nat}
    (hroot : partialValue φ lam 8 (φ (alphaPow (buildField p) rho)) = 0) :
    ∑ i ∈ Finset.range 8, partialValue φ lam (i + 1) (φ (alphaPow (buildField p) rho)) =
      φ (alphaPow (buildField p) rho) * φ (derivativeAt (buildField p) lam rho) := by
  have hparts : ∑ i ∈ Finset.range 8, partialValue φ lam (i + 1) (φ (alphaPow (buildField p) rho)) =
      (8 : Nat) * partialValue φ lam 8 (φ (alphaPow (buildField p) rho)) -
        ∑ j ∈ Finset.range 8, (j : K) * (φ (lam.coeff j) * φ (alphaPow (buildField p) rho) ^ j) :=
    sum_partialSums _ 8
  rw [hroot, h.map_derivativeAt] at hparts
  linear_combination hparts - φ (alphaPow (buildField p) rho) * φ (derivativeAt (buildField p) lam rho) * h.two_eq_zero

end

/-- Forney's theorem, for a λ that is 0 at the inverses of the error locations: at the inverse of one of them ω is the
derivative of λ times the error. The other errors contribute nothing there. -/
theorem evaluatorAt_of_errors (p : PrimPoly) {E : Buffer Container 1023} {lam : Buffer Symbol 9}
    (habove : ∀ j, 8 ≤ j → lam.coeff j = 0)
    (hroots : ∀ pos ∈ errorPositions E, locatorAt (buildField p) lam (1023 - pos) = 0) {pos : Nat}
    (hpos : pos ∈ errorPositions E) :
    evaluatorAt (buildField p) (omegaPoly (buildField p) (syndromes (buildField p) E) lam) (1023 - pos) =
      gfMul (buildField p) (derivativeAt (buildField p) lam (1023 - pos)) (containerToSymbol (E.coeff pos)) := by
  obtain ⟨K, _, φ, h⟩ := exists_readsSymbols p
  have hzero : ∀ m ∈ errorPositions E, partialValue φ lam 8 (φ (alphaPow (buildField p) m))⁻¹ = 0 := fun m hm => by
    rw [h.partialValue_eq (r := 8) (by decide) habove, ← h.map_alphaPow_sub (lt_of_mem_errorPositions hm),
      ← h.map_locatorAt, hroots m hm, h.map_zero]
  have hX := h.map_alphaPow_ne_zero pos
  have hx := h.map_alphaPow_sub (lt_of_mem_errorPositions hpos)
  refine h.injective ?_
  rw [h.map_evaluatorAt, Finset.sum_eq_single_of_mem pos hpos fun m hm hne => ?_, h.map_gfMul]
  · rw [hx, mul_inv_cancel₀ hX]
    simp only [one_pow, mul_one]
    rw [← hx, h.sum_partialValue_self (by rw [hx]; exact hzero pos hpos), hx]
    field_simp
  · rw [sum_partialValue_eq_zero (h.map_alphaPow_ne_zero m) ?_ ?_ (hzero m hm), mul_zero]
    · rw [hx, Ne, inv_inj]
      exact fun heq => hne (h.injOn_errorPositions E hm hpos heq.symm)
    · rw [hx]
      exact hzero pos hpos

/-! ## The correction (R161) -/

/-- R161: the magnitude at the root exponent ρ. -/
def magnitudeAt (F : FieldTables) (omega : Buffer Symbol 8) (lam : Buffer Symbol 9) (rho : Nat) : Symbol :=
  if h : derivativeAt F lam rho = 0 then 0 else gfDiv F (evaluatorAt F omega rho) (derivativeAt F lam rho) h

theorem magnitudeAt_eq {p : PrimPoly} {omega : Buffer Symbol 8} {lam : Buffer Symbol 9} {rho : Nat} {e : Symbol}
    (hne : derivativeAt (buildField p) lam rho ≠ 0)
    (he : evaluatorAt (buildField p) omega rho = gfMul (buildField p) (derivativeAt (buildField p) lam rho) e) :
    magnitudeAt (buildField p) omega lam rho = e := by
  rw [magnitudeAt, dif_neg hne]
  exact gfMul_left_cancel p _ _ _ hne ((gfMul_gfDiv p _ _ hne).trans he)

/-- The sum of the magnitudes of those roots that name the position `pos`. -/
def magnitudesAt (F : FieldTables) (omega : Buffer Symbol 8) (lam : Buffer Symbol 9) (roots : List Nat) (pos : Nat) :
    Symbol :=
  (roots.map fun rho => if rootToPosition rho = pos then magnitudeAt F omega lam rho else 0).foldr (· ^^^ ·) 0

/-- One turn of the loop adds one magnitude; a magnitude of 0 may be skipped. -/
theorem applyMagnitudes_cons {F : FieldTables} {omega : Buffer Symbol 8} {lam : Buffer Symbol 9} {rho : Nat} {rest : List Nat}
    {C C' : Buffer Container 1023} (h : applyMagnitudes F omega lam (rho :: rest) C = .ok C') :
    ∃ C1, applyMagnitudes F omega lam rest C1 = .ok C' ∧
      ∀ pos, containerToSymbol (C1.coeff pos) =
        containerToSymbol (C.coeff pos) ^^^ if rootToPosition rho = pos then magnitudeAt F omega lam rho else 0 := by
  rw [applyMagnitudes] at h
  split at h
  · cases h
  next hne =>
    have hmag : magnitudeAt F omega lam rho = gfDiv F (evaluatorAt F omega rho) (derivativeAt F lam rho) hne := dif_neg hne
    split at h
    · next hzero =>
      have hnone : magnitudeAt F omega lam rho = 0 := by
        rw [hmag, gfDiv, hzero]
        exact gfMul_zero_left F _
      exact ⟨C, h, fun pos => by rw [hnone, ite_self]; exact BitVec.xor_zero.symm⟩
    · refine ⟨_, h, fun pos => ?_⟩
      rw [coeff_set _ _ _ _ (rootToPosition_lt rho), ← hmag]
      obtain rfl | hpos := eq_or_ne (rootToPosition rho) pos
      · rw [if_pos rfl, if_pos rfl, containerToSymbol_symbolToContainer]
      · rw [if_neg hpos.symm, if_neg hpos]
        exact BitVec.xor_zero.symm

theorem containerToSymbol_applyMagnitudes {F : FieldTables} {omega : Buffer Symbol 8} {lam : Buffer Symbol 9}
    {roots : List Nat} {C C' : Buffer Container 1023} (h : applyMagnitudes F omega lam roots C = .ok C') (pos : Nat) :
    containerToSymbol (C'.coeff pos) = containerToSymbol (C.coeff pos) ^^^ magnitudesAt F omega lam roots pos := by
  induction roots generalizing C with
  | nil =>
    cases h
    exact BitVec.xor_zero.symm
  | cons rho rest ih =>
    obtain ⟨C1, hrest, hC1⟩ := applyMagnitudes_cons h
    rw [ih hrest, hC1, BitVec.xor_assoc]
    rfl

/-- A sum over distinct positions that picks the term of one. -/
theorem foldr_xor_pick {l : List Nat} (hl : l.Nodup) (e : Nat → Symbol) (pos : Nat) :
    (l.map fun q => if q = pos then e q else 0).foldr (· ^^^ ·) 0 = if pos ∈ l then e pos else 0 := by
  induction l with
  | nil => rfl
  | cons q l ih =>
    obtain ⟨hq, hl⟩ := List.nodup_cons.mp hl
    rw [List.map_cons, List.foldr_cons, ih hl]
    obtain rfl | hne := eq_or_ne q pos
    · rw [if_pos rfl, if_neg hq, if_pos List.mem_cons_self]
      exact BitVec.xor_zero
    · rw [if_neg hne]
      simp only [List.mem_cons, hne.symm, false_or]
      exact BitVec.zero_xor

/-- With each position named once, and a magnitude that depends on the position. -/
theorem magnitudesAt_of_nodup {F : FieldTables} {omega : Buffer Symbol 8} {lam : Buffer Symbol 9} {roots : List Nat}
    {e : Nat → Symbol} (hnodup : (roots.map rootToPosition).Nodup)
    (he : ∀ rho ∈ roots, magnitudeAt F omega lam rho = e (rootToPosition rho)) (pos : Nat) :
    magnitudesAt F omega lam roots pos = if pos ∈ roots.map rootToPosition then e pos else 0 := by
  rw [← foldr_xor_pick hnodup, List.map_map, magnitudesAt]
  refine congrArg (List.foldr _ _) (List.map_congr_left fun rho hrho => ?_)
  rw [he rho hrho]
  rfl

/-! ## DECODE (R164) -/

theorem length_chienRoots_le_of_ok {F : FieldTables} {lam : Buffer Symbol 9}
    (hcount : (chienRoots F lam).length = degree lam) : (chienRoots F lam).length ≤ 8 := by
  obtain ⟨-, hdegree | ⟨hdegree, -⟩⟩ := degree_spec lam <;> omega

/-- With at most eight roots `ROOT` and `NROOT` list them all. -/
theorem listedRoots_chienSearch {F : FieldTables} {lam : Buffer Symbol 9} (h8 : (chienRoots F lam).length ≤ 8) :
    listedRoots (chienSearch F lam).root (chienSearch F lam).count = chienRoots F lam := by
  refine List.ext_getElem (length_listedRoots _ _ h8) fun c hc hlen => ?_
  have hle := ((mem_chienRoots F lam _).mp (List.getElem_mem hlen)).1.2
  have hread : (chienSearch F lam).root.getD c 0 = BitVec.ofNat 10 ((chienRoots F lam).getD c 0) :=
    getD_tabulate _ _ _ (by omega)
  rw [getD_eq_getElem _ _ _ (by omega), List.getD_eq_getElem _ _ hlen] at hread
  simp only [listedRoots, List.getElem_map, List.getElem_take, hread, BitVec.toNat_ofNat]
  omega

theorem decodeUnit_of_codeword {s : State} (hv : allValid s.cw = true)
    (hz : syndromesAllZero (syndromes s.tables s.cw) = true) : decodeUnit s = syndUnit s := by
  obtain ⟨hv', -⟩ | ⟨-, -, h⟩ | ⟨-, hz', -⟩ | ⟨-, hz', -⟩ := decodeUnit_cases s
  · rw [hv] at hv'; cases hv'
  · exact h
  · rw [hz] at hz'; cases hz'
  · rw [hz] at hz'; cases hz'

/-- The registers on which FORNEY starts inside DECODE. -/
theorem registers_of_search {s u : State} (hv : allValid s.cw = true) (hu : u = chienUnit (bmsolveUnit (syndUnit s))) :
    u.tables = s.tables ∧ u.cw = s.cw ∧ u.syn = syndromes s.tables s.cw ∧ u.lam = locatorOf s.tables s.cw ∧
    u.root = (chienSearch s.tables (locatorOf s.tables s.cw)).root ∧
    u.nroot.toNat = (chienRoots s.tables (locatorOf s.tables s.cw)).length ∧
    u.status = if (chienRoots s.tables (locatorOf s.tables s.cw)).length = degree (locatorOf s.tables s.cw) then .ok
      else .uncorrectable := by
  rw [hu, chienUnit_eq, syndUnit_of_valid hv]
  exact ⟨rfl, rfl, rfl, rfl, rfl, chienSearch_count_toNat _ _, rfl⟩

/-- DECODE of a word that is no codeword, when the locator has as many roots as its degree, all of them simple. -/
theorem decodeUnit_of_roots {s : State} (hv : allValid s.cw = true)
    (hz : syndromesAllZero (syndromes s.tables s.cw) = false)
    (hcount : (chienRoots s.tables (locatorOf s.tables s.cw)).length = degree (locatorOf s.tables s.cw))
    (hsimple : ∀ rho ∈ chienRoots s.tables (locatorOf s.tables s.cw),
      derivativeAt s.tables (locatorOf s.tables s.cw) rho ≠ 0) :
    (decodeUnit s).status = .ok ∧
    (decodeUnit s).result = BitVec.ofNat 4 (chienRoots s.tables (locatorOf s.tables s.cw)).length ∧
    applyMagnitudes s.tables (omegaPoly s.tables (syndromes s.tables s.cw) (locatorOf s.tables s.cw))
      (locatorOf s.tables s.cw) (chienRoots s.tables (locatorOf s.tables s.cw)) s.cw = .ok (decodeUnit s).cw := by
  have h8 := length_chienRoots_le_of_ok hcount
  obtain ⟨htables, hcw, hsyn, hlam, hroot, hnroot, hstatus⟩ := registers_of_search hv rfl
  have hlisted : listedRoots (chienUnit (bmsolveUnit (syndUnit s))).root
      (chienUnit (bmsolveUnit (syndUnit s))).nroot.toNat = chienRoots s.tables (locatorOf s.tables s.cw) := by
    rw [hroot, hnroot]
    exact listedRoots_chienSearch h8
  have hdecode : decodeUnit s = forneyUnit (chienUnit (bmsolveUnit (syndUnit s))) := by
    rw [if_pos hcount] at hstatus
    obtain ⟨hv', -⟩ | ⟨-, hz', -⟩ | ⟨-, -, hstatus', -⟩ | ⟨-, -, -, h⟩ := decodeUnit_cases s
    · rw [hv] at hv'; cases hv'
    · rw [hz] at hz'; cases hz'
    · rw [hstatus] at hstatus'; cases hstatus'
    · exact h
  rw [hdecode]
  obtain ⟨hv', -⟩ | ⟨-, hn, -⟩ | ⟨-, -, ⟨rho, hrho, hzero⟩, -⟩ | ⟨-, -, -, C, hC, heq⟩ :=
    forneyUnit_cases (chienUnit (bmsolveUnit (syndUnit s)))
  · rw [hcw, hv] at hv'; cases hv'
  · omega
  · rw [hlisted] at hrho
    rw [htables, hlam] at hzero
    exact absurd hzero (hsimple rho hrho)
  · rw [hlisted, htables, hsyn, hlam, hcw] at hC
    rw [heq, ← hnroot]
    exact ⟨rfl, rfl, hC⟩

/-! ### Up to four errors (R142 (e), R188 (c)) -/

theorem containerToSymbol_injective {a b : Container} (ha : a.toNat < 1024) (hb : b.toNat < 1024)
    (h : containerToSymbol a = containerToSymbol b) : a = b := by
  rw [← symbolToContainer_containerToSymbol a ha, h, symbolToContainer_containerToSymbol b hb]

theorem differences_eq_card {w n : Nat} (a b : Buffer (BitVec w) n) :
    differences a b = ((Finset.range n).filter fun i => a.coeff i ≠ b.coeff i).card := by
  rw [differences, ← List.toFinset_card_of_nodup (List.Nodup.filter _ List.nodup_range)]
  congr 1
  ext pos
  simp

theorem eq_of_differences {w n : Nat} {a b : Buffer (BitVec w) n} (h : differences a b = 0) : a = b := by
  rw [differences_eq_card, Finset.card_eq_zero, Finset.filter_eq_empty_iff] at h
  exact buffer_ext_coeff fun i hi => not_ne_iff.mp (h (Finset.mem_range.mpr hi))

section
variable {cw C : Buffer Container 1023} (hcw : ∀ pos, pos < 1023 → (cw.coeff pos).toNat < 1024)
  (hC : ∀ pos, pos < 1023 → (C.coeff pos).toNat < 1024)
include hcw hC

theorem errorPositions_xorBuffer :
    errorPositions (xorBuffer cw C) = (Finset.range 1023).filter fun pos => cw.coeff pos ≠ C.coeff pos := by
  refine Finset.filter_congr fun pos hpos => not_congr ?_
  have hlt := Finset.mem_range.mp hpos
  rw [coeff_xorBuffer _ _ hlt, containerToSymbol_xor]
  refine BitVec.xor_eq_zero_iff.trans ⟨containerToSymbol_injective (hcw pos hlt) (hC pos hlt), congrArg _⟩

theorem card_errorPositions_xorBuffer : (errorPositions (xorBuffer cw C)).card = differences cw C := by
  rw [errorPositions_xorBuffer hcw hC, differences_eq_card]

end

/-- A word with at most eight errors and no syndrome has none: eight syndromes in a row determine the weights of eight error
locations. -/
theorem errorPositions_eq_empty (p : PrimPoly) {E : Buffer Container 1023} (hE : (errorPositions E).card ≤ 8)
    (hz : syndromesAllZero (syndromes (buildField p) E) = true) : errorPositions E = ∅ := by
  obtain ⟨K, _, φ, h⟩ := exists_readsSymbols p
  have hweights := weights_eq_zero (a := fun pos => φ (containerToSymbol (E.coeff pos))) (h.injOn_errorPositions E)
    (fun pos _ => h.map_alphaPow_ne_zero pos) 1 fun i hi => by
      rw [← h.map_syndromeAt E (by omega) (by omega), (syndromesAllZero_iff_syndromeAt _).mp hz _ (by omega) (by omega),
        h.map_zero]
  refine Finset.eq_empty_of_forall_notMem fun pos hpos => (Finset.mem_filter.mp hpos).2 ?_
  exact h.map_eq_zero_iff.mp (hweights pos hpos)

theorem exec_decode (s : State) : exec .decode s = .next (decodeUnit (doInit primPoly s)) := exec_eq_commandUnit .decode s

section
variable {p : PrimPoly} {E : Buffer Container 1023} {lam : Buffer Symbol 9} (hE : (errorPositions E).card ≤ 4)
  (hlam : lam = (bmSolve (buildField p) (syndromes (buildField p) E)).lam)
include hE hlam

/-- R142 (e): the locator of at most four errors has one simple root for each error. -/
theorem locator_of_errors :
    (chienRoots (buildField p) lam).length = (errorPositions E).card ∧
    (chienRoots (buildField p) lam).length = degree lam ∧
    (∀ pos, pos ∈ (chienRoots (buildField p) lam).map rootToPosition ↔ pos ∈ errorPositions E) ∧
    ∀ rho ∈ chienRoots (buildField p) lam, derivativeAt (buildField p) lam rho ≠ 0 := by
  obtain ⟨hone, hdegree, hroots⟩ := bmSolve_of_errors p hE
  rw [← hlam] at hone hdegree hroots
  obtain ⟨hlength, hdeg, hpositions⟩ := chienRoots_of_errors p hone hdegree hroots
  have hnonzero : lam.coeff 0 ≠ 0 := by rw [hone]; decide
  have hcount := hlength.trans hdeg.symm
  exact ⟨hlength, hcount, hpositions, fun rho hrho => derivativeAt_ne_zero p hnonzero hcount hrho⟩

/-- Forney's theorem: the magnitude at each root is the error at its position. -/
theorem magnitudeAt_of_errors {rho : Nat} (hrho : rho ∈ chienRoots (buildField p) lam) :
    magnitudeAt (buildField p) (omegaPoly (buildField p) (syndromes (buildField p) E) lam) lam rho =
      containerToSymbol (E.coeff (rootToPosition rho)) := by
  obtain ⟨-, hdegree, hroots⟩ := bmSolve_of_errors p hE
  rw [← hlam] at hdegree hroots
  obtain ⟨-, -, hpositions, hsimple⟩ := locator_of_errors hE hlam
  have hpos : rootToPosition rho ∈ errorPositions E := (hpositions _).mp (List.mem_map_of_mem hrho)
  have heval := evaluatorAt_of_errors p (fun j hj => coeff_of_degree_lt lam j (by omega)) hroots hpos
  obtain ⟨⟨h1, h2⟩, -⟩ := (mem_chienRoots _ _ _).mp hrho
  rw [sub_rootToPosition h1 h2] at heval
  exact magnitudeAt_eq (hsimple rho hrho) heval

/-- The corrector takes the whole error word away. -/
theorem applyMagnitudes_of_errors {cw C' : Buffer Container 1023}
    (h : applyMagnitudes (buildField p) (omegaPoly (buildField p) (syndromes (buildField p) E) lam) lam
      (chienRoots (buildField p) lam) cw = .ok C') {pos : Nat} (hlt : pos < 1023) :
    containerToSymbol (C'.coeff pos) = containerToSymbol (cw.coeff pos) ^^^ containerToSymbol (E.coeff pos) := by
  obtain ⟨-, -, hpositions, -⟩ := locator_of_errors hE hlam
  rw [containerToSymbol_applyMagnitudes h, magnitudesAt_of_nodup (e := fun pos => containerToSymbol (E.coeff pos))
    (nodup_map_rootToPosition _ _) (fun _ hrho => magnitudeAt_of_errors hE hlam hrho)]
  split
  · rfl
  · next hpos =>
    have hzero : containerToSymbol (E.coeff pos) = 0 := by
      by_contra hne
      exact hpos ((hpositions pos).mpr (Finset.mem_filter.mpr ⟨Finset.mem_range.mpr hlt, hne⟩))
    rw [hzero]

end

/-- R132, R142 (e): the syndromes are those of the error word, so the unit finds the error word and takes it away. -/
theorem decodeUnit_repairs {p : PrimPoly} {s : State} {C : Buffer Container 1023} (htables : s.tables = buildField p)
    (hcw : ∀ pos, pos < 1023 → (s.cw.coeff pos).toNat < 1024) (hC : ∀ pos, pos < 1023 → (C.coeff pos).toNat < 1024)
    (hcode : IsCodeword (buildField p) C) (hfour : differences s.cw C ≤ 4) :
    (decodeUnit s).status = .ok ∧ (decodeUnit s).cw = C ∧
      (decodeUnit s).result = BitVec.ofNat 4 (differences s.cw C) := by
  have hv : allValid s.cw = true := (allValid_iff _).mpr hcw
  have hcard := card_errorPositions_xorBuffer hcw hC
  have hE : (errorPositions (xorBuffer s.cw C)).card ≤ 4 := hcard.trans_le hfour
  have hsyn : syndromes (buildField p) s.cw = syndromes (buildField p) (xorBuffer s.cw C) := by
    obtain ⟨-, hsame⟩ := syndromesAreLinear p C s.cw (xorBuffer s.cw C) fun pos hpos => by
      rw [coeff_xorBuffer _ _ hpos, BitVec.xor_comm]
    exact (hsame hcode).symm
  cases hz : syndromesAllZero (syndromes s.tables s.cw) with
  | true =>
    rw [htables, hsyn] at hz
    have hnone : differences s.cw C = 0 := by
      rw [← hcard, errorPositions_eq_empty p (by omega) hz, Finset.card_empty]
    rw [hnone, ← eq_of_differences hnone, decodeUnit_of_codeword hv (by rw [htables, hsyn, hz]), syndUnit_of_valid hv]
    exact ⟨rfl, rfl, rfl⟩
  | false =>
    have hlam : locatorOf s.tables s.cw = (bmSolve (buildField p) (syndromes (buildField p) (xorBuffer s.cw C))).lam := by
      rw [locatorOf, htables, hsyn]
    obtain ⟨hlength, hcount, -, hsimple⟩ := locator_of_errors hE hlam
    rw [← htables] at hlength hcount hsimple
    obtain ⟨hstatus, hresult, hcorrected⟩ := decodeUnit_of_roots hv hz hcount hsimple
    refine ⟨hstatus, ?_, by rw [hresult, hlength, hcard]⟩
    have hvalid := (allValid_iff _).mp ((applyMagnitudes_ok _ _ _ _ _ _ hcorrected).2 hv)
    rw [htables, hsyn] at hcorrected
    refine buffer_ext_coeff fun pos hpos => containerToSymbol_injective (hvalid pos hpos) (hC pos hpos) ?_
    rw [applyMagnitudes_of_errors hE (by rw [← hlam, htables]) hcorrected hpos, coeff_xorBuffer _ _ hpos,
      containerToSymbol_xor, ← BitVec.xor_assoc, BitVec.xor_self]
    exact BitVec.zero_xor

/-- Settles O41: the unit after `do_init` runs over the field of `p`. -/
theorem decodeRepairsUpToFourErrors : Obligations.DecodeRepairsUpToFourErrors := by
  unfold Obligations.DecodeRepairsUpToFourErrors
  intro p s C ⟨htables, _⟩ hcw hC hcode hfour
  rw [← doInit_cw primPoly s] at hcw hfour ⊢
  exact ⟨_, exec_decode s, decodeUnit_repairs htables hcw hC hcode hfour⟩

end Sys2Proof.Proofs
end

section
/-! PROOFS for spec/45_chien_search.md: what CHIEN counts and lists (R150, R151), the incremental form of the search (R152), and the
number of roots of a non-zero and of the zero locator (R150). -/

namespace Sys2Proof.Proofs

open Sys2Proof.Machine Sys2Proof.Laws Sys2Proof.Safety

/-! ## CHIEN (R151) -/

theorem exec_chien (s : State) :
    exec .chien s =
      .next { doInit primPoly s with
        root := (chienSearch (doInit primPoly s).tables s.lam).root
        loc := (chienSearch (doInit primPoly s).tables s.lam).loc
        nroot := BitVec.ofNat 10 (chienSearch (doInit primPoly s).tables s.lam).count
        status :=
          if (chienSearch (doInit primPoly s).tables s.lam).count = degree s.lam then .ok else .uncorrectable
        result := 0 } := by
  rw [exec_eq_commandUnit, ← doInit_lam primPoly s]
  exact congrArg Host.Outcome.next (chienUnit_eq _)

/-- `NROOT` holds the number of roots, as there are at most 1023. -/
theorem nroot_status_of_chien {s t : State} (h : exec .chien s = .next t) :
    t.nroot.toNat = (chienRoots (doInit primPoly s).tables s.lam).length ∧
      t.status =
        if (chienRoots (doInit primPoly s).tables s.lam).length = degree s.lam then .ok else .uncorrectable := by
  rw [exec_chien] at h
  injection h with h
  rw [← h]
  exact ⟨chienSearch_count_toNat _ _, rfl⟩

/-! ## The list of roots (R150) -/

section
variable (F : FieldTables) (lam : Buffer Symbol 9)

theorem chienRoots_rising {c d : Nat} (hcd : c < d) (hd : d < (chienRoots F lam).length) :
    (chienRoots F lam)[c] < (chienRoots F lam)[d] :=
  List.pairwise_iff_getElem.mp (List.Pairwise.filter _ List.pairwise_lt_range') c d _ hd hcd

theorem chienSearch_count : (chienSearch F lam).count = (chienRoots F lam).length := rfl

theorem length_chienRoots_eq_card :
    (chienRoots F lam).length = ((Finset.Icc 1 1023).filter fun i => locatorAt F lam i = 0).card := by
  rw [← List.toFinset_card_of_nodup (nodup_chienRoots F lam)]
  refine congrArg Finset.card (Finset.ext fun i => ?_)
  rw [List.mem_toFinset, mem_chienRoots, Finset.mem_filter, Finset.mem_Icc]

variable {F lam} {c : Nat}

theorem chienSearch_root_toNat (h8 : c < 8) (hc : c < (chienRoots F lam).length) :
    ((chienSearch F lam).root.coeff c).toNat = (chienRoots F lam)[c] := by
  have hle := ((mem_chienRoots F lam _).mp (List.getElem_mem hc)).1.2
  rw [chienSearch, coeff_tabulate, if_pos h8, List.getD_eq_getElem _ _ hc, BitVec.toNat_ofNat]
  omega

theorem chienSearch_loc_toNat (h8 : c < 8) (hc : c < (chienRoots F lam).length) :
    ((chienSearch F lam).loc.coeff c).toNat = rootToPosition (chienRoots F lam)[c] := by
  have hlt := rootToPosition_lt (chienRoots F lam)[c]
  rw [chienSearch, coeff_tabulate, if_pos h8, List.getD_eq_getElem _ _ (by rwa [List.length_map]), List.getElem_map,
    BitVec.toNat_ofNat]
  omega

theorem chienSearch_fill (hc : (chienRoots F lam).length ≤ c) :
    (chienSearch F lam).root.coeff c = 0 ∧ (chienSearch F lam).loc.coeff c = 0 := by
  simp only [chienSearch, coeff_tabulate]
  rw [List.getD_eq_default _ _ hc, List.getD_eq_default _ _ (by rwa [List.length_map])]
  exact ⟨ite_self _, ite_self _⟩

/-- A root has its place in the rising list; from the ninth place on it is above the eighth root. -/
theorem root_is_listed_or_above {i : Nat} (hi : i ∈ chienRoots F lam) :
    (∃ c, c < 8 ∧ c < (chienRoots F lam).length ∧ ((chienSearch F lam).root.coeff c).toNat = i) ∨
      (8 < (chienRoots F lam).length ∧ ((chienSearch F lam).root.coeff 7).toNat < i) := by
  obtain ⟨c, hc, rfl⟩ := List.getElem_of_mem hi
  by_cases h8 : c < 8
  · exact .inl ⟨c, h8, hc, chienSearch_root_toNat h8 hc⟩
  · rw [chienSearch_root_toNat (by omega) (by omega)]
    exact .inr ⟨by omega, chienRoots_rising F lam (by omega) hc⟩

end

/-- Settles O29: `ROOT` and `LOC` are read off the list of roots, which is rising. -/
theorem chienListsTheRoots : Obligations.ChienListsTheRoots := by
  unfold Obligations.ChienListsTheRoots
  intro s
  refine ⟨_, exec_chien s, ?_⟩
  dsimp only
  rw [chienSearch_count_toNat, chienSearch_count]
  refine ⟨length_chienRoots_eq_card _ _, fun c h8 hc => ?_, fun c d hcd h8 hd => ?_,
    fun i h1 h1023 hzero => root_is_listed_or_above ((mem_chienRoots _ _ i).mpr ⟨⟨h1, h1023⟩, hzero⟩),
    fun c _ hc => chienSearch_fill hc, rfl⟩
  · obtain ⟨⟨h1, h1023⟩, hzero⟩ := (mem_chienRoots _ _ _).mp (List.getElem_mem hc)
    rw [chienSearch_root_toNat h8 hc]
    exact ⟨h1, h1023, hzero, chienSearch_loc_toNat h8 hc⟩
  · rw [chienSearch_root_toNat (by omega) (hcd.trans hd), chienSearch_root_toNat h8 hd]
    exact chienRoots_rising _ _ hcd hd

/-! ## The incremental search (R152) -/

/-- Each step adds j to the exponent of α. -/
theorem incrementalTerm_eq (p : PrimPoly) (lam : Buffer Symbol 9) (j i : Nat) :
    incrementalTerm (buildField p) lam j i = gfMul (buildField p) (lam.coeff j) (alphaPow (buildField p) (i * j)) := by
  induction i with
  | zero =>
    rw [Nat.zero_mul, alphaPow_zero, incrementalTerm]
    exact (gfMul_one_right p _).symm
  | succ i ih => rw [incrementalTerm, ih, gfMul_assoc, gfMul_alphaPow, Nat.succ_mul]

/-- Settles O30: the registers hold the terms of the sum λ(α^i). -/
theorem incrementalSearchAgrees : Obligations.IncrementalSearchAgrees := by
  unfold Obligations.IncrementalSearchAgrees
  intro p lam i
  exact ⟨fun j => incrementalTerm_eq p lam j i, xorSum_congr fun j _ => incrementalTerm_eq p lam j i⟩

/-! ## The number of roots (R150) -/

section
variable {lam : Buffer Symbol 9} (h : ∀ j, j < 9 → lam.coeff j = 0)
include h

theorem locatorAt_of_zero (F : FieldTables) (i : Nat) : locatorAt F lam i = 0 := by
  have hterm : ∀ j, j < 9 → gfMul F (lam.coeff j) (alphaPow F (i * j)) = 0 := fun j hj => by
    rw [h j hj]
    exact gfMul_zero_left F _
  exact (xorSum_congr hterm).trans (xorSum_const_zero 9)

theorem length_chienRoots_of_zero (F : FieldTables) : (chienRoots F lam).length = 1023 := by
  rw [chienRoots, List.filter_eq_self.mpr fun i _ => beq_iff_eq.mpr (locatorAt_of_zero h F i), List.length_range']

theorem degree_of_zero : degree lam = 0 := by
  refine Nat.le_zero.mp (degree_le lam 0 fun j _ => ?_)
  by_cases hj : j < 9
  · exact h j hj
  · exact coeff_out_of_range lam j (not_lt.mp hj)

end

/-- Settles O31: over the field of `p` the bound is that of a polynomial; for λ = 0 every point is a root, of degree 0. -/
theorem rootsAreAtMostTheDegree : Obligations.RootsAreAtMostTheDegree := by
  unfold Obligations.RootsAreAtMostTheDegree
  intro p s t ⟨htables, _⟩ ht
  obtain ⟨hnroot, hstatus⟩ := nroot_status_of_chien ht
  rw [hnroot, hstatus, htables]
  refine ⟨fun ⟨j, _, hj⟩ => length_chienRoots_le_degree p hj, fun hzero => ?_⟩
  rw [length_chienRoots_of_zero hzero, degree_of_zero hzero]
  exact ⟨rfl, rfl⟩

end Sys2Proof.Proofs
end

section
/-! PROOFS for spec/46_forney.md: the evaluator (R160), how FORNEY ends with and without a zero derivative (R161, R162), DECODE
as a chain of four commands and as `rs_decode` (R163 to R165), and the words that it takes as they are (R163, R166). -/

namespace Sys2Proof.Proofs

open Sys2Proof.Machine Sys2Proof.Laws Sys2Proof.Safety

/-! ## The evaluator (R160) -/

/-- Settles O32: ω_i is the sum that the solver forms at the step i + 1, with the factors of each term exchanged. -/
theorem omegaIsTheTruncatedProduct : Obligations.OmegaIsTheTruncatedProduct := by
  unfold Obligations.OmegaIsTheTruncatedProduct
  intro F S lam i hi
  rw [coeff_omegaPoly F S lam hi, discrepancy]
  refine xorSum_congr fun j _ => ?_
  rw [gfMul_comm, syndromeAt, Nat.sub_right_comm, Nat.add_sub_cancel]

/-! ## The listed roots (R161) -/

/-- R161: `listedRoots` reads `ROOT[c]` for c < `NROOT`. -/
theorem listedRoots_eq_map_range (root : Buffer (BitVec 10) 8) {k : Nat} (hk : k ≤ 8) :
    listedRoots root k = (List.range k).map fun c => (root.coeff c).toNat := by
  refine List.ext_getElem (by rw [length_listedRoots _ _ hk, List.length_map, List.length_range]) fun c hc _ => ?_
  rw [length_listedRoots _ _ hk] at hc
  rw [List.getElem_map, List.getElem_range, Buffer.coeff, getD_eq_getElem _ _ _ (hc.trans_le hk)]
  simp only [listedRoots, List.getElem_map, List.getElem_take]

theorem forall_mem_listedRoots {root : Buffer (BitVec 10) 8} {k : Nat} (hk : k ≤ 8) {P : Nat → Prop} :
    (∀ rho ∈ listedRoots root k, P rho) ↔ ∀ c, c < k → P (root.coeff c).toNat := by
  rw [listedRoots_eq_map_range root hk, List.forall_mem_map]
  exact forall_congr' fun c => by rw [List.mem_range]

theorem exists_mem_listedRoots {root : Buffer (BitVec 10) 8} {k : Nat} (hk : k ≤ 8) {P : Nat → Prop} :
    (∃ rho ∈ listedRoots root k, P rho) ↔ ∃ c, c < k ∧ P (root.coeff c).toNat := by
  simp only [listedRoots_eq_map_range root hk, List.mem_map, List.mem_range, exists_exists_and_eq_and]

/-- The sum of a list's terms in the order of the list. -/
theorem foldr_map_range (k : Nat) (f : Nat → Symbol) : ((List.range k).map f).foldr (· ^^^ ·) 0 = xorSum k f := by
  induction k generalizing f with
  | zero => rfl
  | succ k ih =>
    rw [List.range_succ_eq_map, List.map_cons, List.map_map, List.foldr_cons, ih, xorSum_succ_front]
    rfl

/-- R161: the magnitude at the root exponent `ROOT[c]`. -/
def listedMagnitude (s : State) (c : Nat) : Symbol :=
  magnitudeAt s.tables (omegaPoly s.tables s.syn s.lam) s.lam (s.root.coeff c).toNat

/-- Two entries of `ROOT` that name one position apply two magnitudes to it. -/
theorem magnitudesAt_listedRoots {s : State} (h8 : s.nroot.toNat ≤ 8) (pos : Nat) :
    magnitudesAt s.tables (omegaPoly s.tables s.syn s.lam) s.lam (listedRoots s.root s.nroot.toNat) pos =
      xorSum s.nroot.toNat fun c => if rootToPosition (s.root.coeff c).toNat = pos then listedMagnitude s c else 0 := by
  rw [magnitudesAt, listedRoots_eq_map_range s.root h8, List.map_map, ← foldr_map_range]
  rfl

theorem gfMul_listedMagnitude {p : PrimPoly} {s : State} (htables : s.tables = buildField p) {c : Nat}
    (hne : derivativeAt s.tables s.lam (s.root.coeff c).toNat ≠ 0) :
    gfMul s.tables (derivativeAt s.tables s.lam (s.root.coeff c).toNat) (listedMagnitude s c) =
      evaluatorAt s.tables (omegaPoly s.tables s.syn s.lam) (s.root.coeff c).toNat := by
  rw [listedMagnitude, magnitudeAt, dif_neg hne]
  simp only [htables]
  exact gfMul_gfDiv p _ _ _

/-! ## FORNEY (R161, R162) -/

theorem symbolToContainer_xor (a b : Symbol) : symbolToContainer (a ^^^ b) = symbolToContainer a ^^^ symbolToContainer b :=
  BitVec.setWidth_xor

/-- R161, R67: the corrected element is a valid container, so it is the old one with the magnitudes of its position added. -/
theorem coeff_applyMagnitudes {F : FieldTables} {omega : Buffer Symbol 8} {lam : Buffer Symbol 9} {roots : List Nat}
    {C C' : Buffer Container 1023} (hv : allValid C = true) (h : applyMagnitudes F omega lam roots C = .ok C') {pos : Nat}
    (hpos : pos < 1023) :
    C'.coeff pos = C.coeff pos ^^^ symbolToContainer (magnitudesAt F omega lam roots pos) := by
  have hv' := (applyMagnitudes_ok F omega lam roots C C' h).2 hv
  rw [← symbolToContainer_containerToSymbol _ ((allValid_iff C').mp hv' pos hpos), containerToSymbol_applyMagnitudes h,
    symbolToContainer_xor, symbolToContainer_containerToSymbol _ ((allValid_iff C).mp hv pos hpos)]

theorem exec_forney (s : State) : exec .forney s = .next (forneyUnit (doInit primPoly s)) := exec_eq_commandUnit .forney s

section
variable {s : State} (hv : allValid s.cw = true) (h8 : s.nroot.toNat ≤ 8)
include hv h8

theorem forneyUnit_of_derivatives
    (hne : ∀ c, c < s.nroot.toNat → derivativeAt s.tables s.lam (s.root.coeff c).toNat ≠ 0) :
    ∃ C,
      applyMagnitudes s.tables (omegaPoly s.tables s.syn s.lam) s.lam (listedRoots s.root s.nroot.toNat) s.cw = .ok C ∧
      forneyUnit s = complete s.nroot.toNat { s with omega := omegaPoly s.tables s.syn s.lam, cw := C } := by
  obtain ⟨hv', -⟩ | ⟨-, hn, -⟩ | ⟨-, -, hzero, -⟩ | ⟨-, -, -, h⟩ := forneyUnit_cases s
  · rw [hv] at hv'; cases hv'
  · omega
  · obtain ⟨c, hc, hzero⟩ := (exists_mem_listedRoots h8).mp hzero
    exact absurd hzero (hne c hc)
  · exact h

theorem forneyUnit_of_zero_derivative
    (hzero : ∃ c, c < s.nroot.toNat ∧ derivativeAt s.tables s.lam (s.root.coeff c).toNat = 0) :
    forneyUnit s =
      raise .uncorrectable
        (scrubCorrected (listedRoots s.root s.nroot.toNat) { s with omega := omegaPoly s.tables s.syn s.lam }) := by
  obtain ⟨hv', -⟩ | ⟨-, hn, -⟩ | ⟨-, -, -, h⟩ | ⟨-, -, hne, -⟩ := forneyUnit_cases s
  · rw [hv] at hv'; cases hv'
  · omega
  · exact h
  · obtain ⟨c, hc, hzero⟩ := hzero
    exact absurd hzero ((forall_mem_listedRoots h8).mp hne c hc)

end

/-- Settles O33: the loop adds to each element the magnitudes of the listed roots that name it. -/
theorem forneyAppliesTheMagnitudes : Obligations.ForneyAppliesTheMagnitudes := by
  unfold Obligations.ForneyAppliesTheMagnitudes
  intro p s ⟨htables, _⟩ hvalid h8 hne
  simp only [← doInit_cw primPoly s, ← doInit_nroot primPoly s, ← doInit_root primPoly s, ← doInit_lam primPoly s,
    ← doInit_syn primPoly s, ← htables] at hvalid h8 hne ⊢
  have hv := (allValid_iff _).mpr hvalid
  obtain ⟨C, hC, hunit⟩ := forneyUnit_of_derivatives hv h8 hne
  obtain ⟨hother, hstay⟩ := applyMagnitudes_ok _ _ _ _ _ _ hC
  refine ⟨C, by rw [exec_forney, hunit]; rfl, fun pos _ hpos => hother pos ((forall_mem_listedRoots h8).mpr hpos),
    (allValid_iff C).mp (hstay hv), listedMagnitude (doInit primPoly s), fun c hc => gfMul_listedMagnitude htables (hne c hc),
    fun pos hpos => ?_⟩
  rw [coeff_applyMagnitudes hv hC hpos, magnitudesAt_listedRoots h8]

/-- Settles O34: FORNEY draws a valid symbol for the position of each listed root, and writes no other element. -/
theorem forneyStopsAtAZeroDerivative : Obligations.ForneyStopsAtAZeroDerivative := by
  unfold Obligations.ForneyStopsAtAZeroDerivative
  intro s hvalid h8 hzero
  simp only [← doInit_cw primPoly s, ← doInit_nroot primPoly s, ← doInit_root primPoly s, ← doInit_lam primPoly s,
    ← doInit_syn primPoly s] at hvalid h8 hzero ⊢
  have hv := (allValid_iff _).mpr hvalid
  refine ⟨_, _, by rw [exec_forney, forneyUnit_of_zero_derivative hv h8 hzero]; rfl, fun pos _ hpos => ?_, ?_⟩
  · exact scrubPositions_other _ _ _ _ pos ((forall_mem_listedRoots h8).mpr hpos)
  · exact (allValid_iff _).mp (scrubPositions_valid _ _ _ _ hv)

/-! ## DECODE as the chain of four commands (R164) -/

/-- R91, R17: a command of a block that is initialised is its unit, and leaves the block initialised. -/
theorem eq_commandUnit_of_initDone {i : Instr} {s t : State} (hdone : s.initDone = true) (h : exec i s = .next t) :
    t = commandUnit i s ∧ t.initDone = true := by
  have ht : t = commandUnit i s := by
    have hunit := eq_commandUnit_of_exec h
    obtain hstart | hstart := unitStart_cases primPoly i s <;> rw [hstart] at hunit
    · exact hunit
    · rwa [doInit_of_done primPoly s hdone] at hunit
  exact ⟨ht, by rw [ht, (commandUnit_sameContext i s).initDone, hdone]⟩

/-- Settles O36: after the `do_init` of SYND those of the later commands write nothing. -/
theorem decodeIsTheCommandChain : Obligations.DecodeIsTheCommandChain := by
  unfold Obligations.DecodeIsTheCommandChain
  intro s s1 s2 s3 hsynd hbmsolve hchien
  obtain rfl : s1 = syndUnit (doInit primPoly s) := eq_commandUnit_of_exec hsynd
  have hdone1 : (syndUnit (doInit primPoly s)).initDone = true :=
    (syndUnit_sameContext _).initDone.trans (doInit_initDone primPoly s)
  obtain ⟨hs2, hdone2⟩ := eq_commandUnit_of_initDone hdone1 hbmsolve
  obtain ⟨hs3, hdone3⟩ := eq_commandUnit_of_initDone hdone2 hchien
  obtain rfl : s2 = bmsolveUnit (syndUnit (doInit primPoly s)) := hs2
  obtain rfl : s3 = chienUnit (bmsolveUnit (syndUnit (doInit primPoly s))) := hs3
  rw [exec_decode, exec_forney, doInit_of_done _ _ hdone3]
  refine ⟨fun h => ?_, fun h hz => ?_, fun h hz hc => ?_, fun h hz hc => ?_⟩
  · simp [decodeUnit, h]
  · simp [decodeUnit, h, hz]
  · simp [decodeUnit, h, hz, hc]
  · simp [decodeUnit, h, hz, hc]

/-! ## DECODE over the field (R163, R165) -/

/-- R142 (a), R165: the locator is not 0, so when it has as many roots as its degree they are simple. -/
theorem derivativeAt_locatorOf_ne_zero (p : PrimPoly) {cw : Buffer Container 1023}
    (hcount : (chienRoots (buildField p) (locatorOf (buildField p) cw)).length = degree (locatorOf (buildField p) cw)) :
    ∀ rho ∈ chienRoots (buildField p) (locatorOf (buildField p) cw),
      derivativeAt (buildField p) (locatorOf (buildField p) cw) rho ≠ 0 := by
  have hone : (locatorOf (buildField p) cw).coeff 0 = 1 := (solverRun_withinBounds _ _ le_rfl).lam_zero
  exact fun rho hrho => derivativeAt_ne_zero p (j := 0) (by rw [hone]; decide) hcount hrho

/-- R165: over the field of a primitive `PRIM_POLY` the root count of the locator alone decides how the decode of a word that is
no codeword ends. -/
theorem decodeUnit_cases_over_field {p : PrimPoly} {s : State} (htables : s.tables = buildField p) :
    (allValid s.cw = false ∧ decodeUnit s = raise .invalidSymbol s) ∨
    (allValid s.cw = true ∧ syndromesAllZero (syndromes s.tables s.cw) = true ∧ decodeUnit s = syndUnit s) ∨
    (allValid s.cw = true ∧ syndromesAllZero (syndromes s.tables s.cw) = false ∧
      (chienRoots s.tables (locatorOf s.tables s.cw)).length ≠ degree (locatorOf s.tables s.cw) ∧
      decodeUnit s = chienUnit (bmsolveUnit (syndUnit s))) ∨
    (allValid s.cw = true ∧ syndromesAllZero (syndromes s.tables s.cw) = false ∧
      (chienRoots s.tables (locatorOf s.tables s.cw)).length = degree (locatorOf s.tables s.cw) ∧
      (decodeUnit s).status = .ok ∧
      (decodeUnit s).result = BitVec.ofNat 4 (chienRoots s.tables (locatorOf s.tables s.cw)).length ∧
      applyMagnitudes s.tables (omegaPoly s.tables (syndromes s.tables s.cw) (locatorOf s.tables s.cw))
        (locatorOf s.tables s.cw) (chienRoots s.tables (locatorOf s.tables s.cw)) s.cw = .ok (decodeUnit s).cw) := by
  obtain h | h | ⟨hv, hz, hst, h⟩ | ⟨hv, hz, hst, -⟩ := decodeUnit_cases s
  · exact .inl h
  · exact .inr (.inl h)
  all_goals obtain ⟨-, -, -, -, -, -, hstatus⟩ := registers_of_search hv rfl
  · have hcount : (chienRoots s.tables (locatorOf s.tables s.cw)).length ≠ degree (locatorOf s.tables s.cw) := fun heq => by
      rw [hst, if_pos heq] at hstatus
      cases hstatus
    exact .inr (.inr (.inl ⟨hv, hz, hcount, h⟩))
  · have hcount : (chienRoots s.tables (locatorOf s.tables s.cw)).length = degree (locatorOf s.tables s.cw) := by
      by_contra hne
      rw [hst, if_neg hne] at hstatus
      cases hstatus
    refine .inr (.inr (.inr ⟨hv, hz, hcount, decodeUnit_of_roots hv hz hcount ?_⟩))
    rw [htables] at hcount ⊢
    exact derivativeAt_locatorOf_ne_zero p hcount

theorem rsDecode_of_invalid (F : FieldTables) {C : Buffer Container 1023} (hv : allValid C = false) :
    rsDecode F C = .error .invalidSymbol := by
  simp [rsDecode, rsSyndromes, hv]

section
variable {F : FieldTables} {C : Buffer Container 1023} (hv : allValid C = true)
include hv

theorem rsDecode_of_codeword (hz : syndromesAllZero (syndromes F C) = true) : rsDecode F C = .ok (C, 0) := by
  simp [rsDecode, rsSyndromes, hv, hz]

variable (hz : syndromesAllZero (syndromes F C) = false)
include hz

theorem rsDecode_of_count_ne (hcount : (chienRoots F (locatorOf F C)).length ≠ degree (locatorOf F C)) :
    rsDecode F C = .error .uncorrectable := by
  have hok : (chienSearch F (bmSolve F (syndromes F C)).lam).ok = false := beq_eq_false_iff_ne.mpr hcount
  simp [rsDecode, rsSyndromes, hv, hz, hok]

/-- R163: "count = d ≤ 8 here", so the corrector takes all the roots. -/
theorem rsDecode_of_count_eq {C' : Buffer Container 1023}
    (hcount : (chienRoots F (locatorOf F C)).length = degree (locatorOf F C))
    (hC' : applyMagnitudes F (omegaPoly F (syndromes F C) (locatorOf F C)) (locatorOf F C) (chienRoots F (locatorOf F C)) C =
      .ok C') :
    rsDecode F C = .ok (C', (chienRoots F (locatorOf F C)).length) := by
  have hok : (chienSearch F (bmSolve F (syndromes F C)).lam).ok = true := beq_iff_eq.mpr hcount
  have hlisted := listedRoots_chienSearch (length_chienRoots_le_of_ok hcount)
  rw [locatorOf] at hlisted hC' ⊢
  simp [rsDecode, rsSyndromes, hv, hz, hok, hlisted, forney, hC']

end

/-- Settles O37: each way in which DECODE can go is the branch of `rs_decode` with the same condition. -/
theorem decodeAgreesWithTheDecodePath : Obligations.DecodeAgreesWithTheDecodePath := by
  unfold Obligations.DecodeAgreesWithTheDecodePath
  intro p s ⟨htables, _⟩
  refine ⟨_, exec_decode s, ?_⟩
  rw [← doInit_cw primPoly s, ← htables]
  obtain ⟨hv, h⟩ | ⟨hv, hz, h⟩ | ⟨hv, hz, hcount, h⟩ | ⟨hv, hz, hcount, hstatus, hresult, hcw⟩ :=
    decodeUnit_cases_over_field htables
  · rw [rsDecode_of_invalid _ hv, h]
    exact ⟨rfl, rfl, rfl⟩
  · rw [rsDecode_of_codeword hv hz, h, syndUnit_of_valid hv]
    exact ⟨rfl, rfl, rfl⟩
  · obtain ⟨-, hcw, -, -, -, -, hstatus⟩ := registers_of_search hv rfl
    rw [if_neg hcount] at hstatus
    rw [rsDecode_of_count_ne hv hz hcount, h]
    exact ⟨hstatus, hcw, by rw [chienUnit_eq]⟩
  · rw [rsDecode_of_count_eq hv hz hcount hcw]
    exact ⟨hstatus, rfl, hresult⟩

/-- Settles O38: only the way that ends after CHIEN leaves Uncorrectable, and SYND, BMSOLVE and CHIEN write neither `CW` nor
`OMEGA`. -/
theorem decodeFailsOnlyAtTheRootCount : Obligations.DecodeFailsOnlyAtTheRootCount := by
  unfold Obligations.DecodeFailsOnlyAtTheRootCount
  intro p s t ⟨htables, _⟩ hexec hfail
  obtain rfl : t = decodeUnit (doInit primPoly s) := eq_commandUnit_of_exec hexec
  rw [← doInit_cw primPoly s, ← doInit_omega primPoly s]
  obtain ⟨-, h⟩ | ⟨hv, -, h⟩ | ⟨hv, -, hcount, h⟩ | ⟨-, -, -, hstatus, -⟩ := decodeUnit_cases_over_field htables
  · rw [h] at hfail; cases hfail
  · rw [h, syndUnit_of_valid hv] at hfail; cases hfail
  · obtain ⟨-, hcw, -, hlam, -, hnroot, -⟩ := registers_of_search hv rfl
    rw [h, hnroot, hlam]
    exact ⟨hcount, hcw, by rw [chienUnit_eq, syndUnit_of_valid hv]; rfl⟩
  · rw [hstatus] at hfail; cases hfail

/-! ## Words that DECODE takes as they are (R163, R166) -/

/-- Settles O39: the syndromes of a codeword are 0, and DECODE ends after SYND. -/
theorem decodeOfACodeword : Obligations.DecodeOfACodeword := by
  unfold Obligations.DecodeOfACodeword
  intro p s ⟨htables, _⟩ hvalid hcode
  rw [← doInit_cw primPoly s, ← allValid_iff] at hvalid
  rw [← doInit_cw primPoly s, ← syndromesAllZero_syndromes_iff, ← htables] at hcode
  have hsyn : syndromes (doInit primPoly s).tables (doInit primPoly s).cw = tabulate 8 fun _ => 0 :=
    buffer_ext_coeff fun i hi => by rw [(syndromesAllZero_iff _).mp hcode i hi, coeff_tabulate, ite_self]
  rw [exec_decode, decodeUnit_of_codeword hvalid hcode, syndUnit_of_valid hvalid, hcode, hsyn]
  rfl

/-- A locator that is 1 has no root. -/
theorem chienRoots_of_unit (p : PrimPoly) {lam : Buffer Symbol 9} (h : ∀ j, lam.coeff j = if j = 0 then 1 else 0) :
    chienRoots (buildField p) lam = [] := by
  have hone : lam.coeff 0 ≠ 0 := by rw [h]; decide
  have hle := length_chienRoots_le_degree p hone
  rw [degree_of_unit h] at hle
  exact List.length_eq_zero_iff.mp (Nat.le_zero.mp hle)

/-- DECODE of a word that is no codeword leaves in `NROOT` the root count of the locator. -/
theorem nroot_of_decodeUnit {s : State} (hv : allValid s.cw = true)
    (hz : syndromesAllZero (syndromes s.tables s.cw) = false) :
    (decodeUnit s).nroot.toNat = (chienRoots s.tables (locatorOf s.tables s.cw)).length := by
  obtain ⟨-, -, -, -, -, hnroot, -⟩ := registers_of_search hv rfl
  obtain ⟨hv', -⟩ | ⟨-, hz', -⟩ | ⟨-, -, -, h⟩ | ⟨-, -, -, h⟩ := decodeUnit_cases s
  · rw [hv] at hv'; cases hv'
  · rw [hz] at hz'; cases hz'
  · rw [h, hnroot]
  · rw [h, ← hnroot]
    exact congrArg (fun t => t.nroot.toNat) (forneyUnit_frame rfl)

/-- R166: with the locator 1 the root count is the degree 0, and no root is left to correct at. -/
theorem exec_decode_of_unit_locator {p : PrimPoly} {s : State} (hs : RunsOver p s)
    (hvalid : ∀ pos, pos < 1023 → (s.cw.coeff pos).toNat < 1024) (hcode : ¬ IsCodeword (buildField p) s.cw)
    (hunit : ∀ j, (locatorOf (buildField p) s.cw).coeff j = if j = 0 then 1 else 0) :
    ∃ t, exec .decode s = .next t ∧ t.status = .ok ∧ t.result = 0 ∧ t.nroot = 0 ∧ t.cw = s.cw := by
  obtain ⟨htables, -⟩ := hs
  rw [← doInit_cw primPoly s] at hvalid hcode hunit ⊢
  have hv : allValid (doInit primPoly s).cw = true := (allValid_iff _).mpr hvalid
  have hz : syndromesAllZero (syndromes (doInit primPoly s).tables (doInit primPoly s).cw) = false := by
    rwa [htables, ← Bool.not_eq_true, syndromesAllZero_syndromes_iff]
  have hroots : chienRoots (doInit primPoly s).tables (locatorOf (doInit primPoly s).tables (doInit primPoly s).cw) = [] := by
    rw [htables]
    exact chienRoots_of_unit p hunit
  have hdegree : degree (locatorOf (doInit primPoly s).tables (doInit primPoly s).cw) = 0 := by
    rw [htables]
    exact degree_of_unit hunit
  obtain ⟨hstatus, hresult, hcw⟩ := decodeUnit_of_roots hv hz (by rw [hroots, hdegree]; rfl)
    (by rw [hroots]; exact List.forall_mem_nil _)
  have hnroot := nroot_of_decodeUnit hv hz
  rw [hroots] at hresult hcw hnroot
  exact ⟨_, exec_decode s, hstatus, hresult, BitVec.eq_of_toNat_eq hnroot, (Except.ok.inj hcw).symm⟩

section
variable {p : PrimPoly} {cw : Buffer Container 1023}
  (h : ∀ i, 1 ≤ i → i ≤ 8 → receivedAt (buildField p) cw i = if i = 1 then 1 else 0)
include h

theorem not_isCodeword_of_unit_syndrome : ¬ IsCodeword (buildField p) cw := by
  intro hcode
  have hone := h 1 le_rfl (by decide)
  rw [hcode 1 le_rfl (by decide)] at hone
  exact absurd hone (by decide)

/-- R141: the syndromes (1, 0, ..., 0) are a geometric progression with the ratio 0, of which the locator is 1. -/
theorem coeff_locatorOf_of_unit_syndrome (j : Nat) :
    (locatorOf (buildField p) cw).coeff j = if j = 0 then 1 else 0 := by
  have hsyn : ∀ i, 1 ≤ i → i ≤ 8 → syndromeAt (syndromes (buildField p) cw) i = if i = 1 then 1 else 0 :=
    fun i h1 h8 => (syndromeAt_syndromes p cw h1 h8).trans (h i h1 h8)
  obtain ⟨-, hlam⟩ := solverRun_of_geometric (p := p) (q := 0)
    (fun i h1 h8 => by rw [hsyn (i + 1) (by omega) h8, if_neg (by omega)]; exact (gfMul_zero_left _ _).symm)
    (by rw [hsyn 1 le_rfl (by decide)]; decide)
  exact (hlam j).trans (by rw [ite_self])

/-- R166: "No pattern of 4 or fewer errors has such syndromes": the locator of such a pattern has one root for each error. -/
theorem four_lt_errors_of_unit_syndrome : 4 < (errorPositions cw).card := by
  by_contra hle
  obtain ⟨hlength, -⟩ := locator_of_errors (lam := locatorOf (buildField p) cw) (not_lt.mp hle) rfl
  rw [chienRoots_of_unit p (coeff_locatorOf_of_unit_syndrome h), List.length_nil, eq_comm, Finset.card_eq_zero,
    errorPositions, Finset.filter_eq_empty_iff] at hlength
  refine not_isCodeword_of_unit_syndrome h fun i _ _ => ?_
  refine (xorSum_congr fun pos hpos => ?_).trans (xorSum_const_zero 1023)
  rw [not_ne_iff.mp (hlength (Finset.mem_range.mpr hpos))]
  exact gfMul_zero_left _ _

/-- R132: the difference to a codeword has the same syndromes. -/
theorem four_lt_differences_of_unit_syndrome {C : Buffer Container 1023} (hcode : IsCodeword (buildField p) C) :
    4 < differences cw C := by
  have hsame : ∀ i, 1 ≤ i → i ≤ 8 → receivedAt (buildField p) (xorBuffer cw C) i = if i = 1 then 1 else 0 :=
    fun i h1 h8 => by
      rw [receivedAt_xor p (fun pos hpos => coeff_xorBuffer cw C hpos), hcode i h1 h8, h i h1 h8]
      exact BitVec.xor_zero
  refine (four_lt_errors_of_unit_syndrome hsame).trans_le ?_
  rw [differences_eq_card]
  refine Finset.card_le_card fun pos hpos => ?_
  obtain ⟨hlt, hne⟩ := Finset.mem_filter.mp hpos
  refine Finset.mem_filter.mpr ⟨hlt, fun heq => hne ?_⟩
  rw [coeff_xorBuffer _ _ (Finset.mem_range.mp hlt), heq, BitVec.xor_self]
  rfl

end

/-- Settles O40: the syndromes (1, 0, ..., 0) have the locator 1, which names no error, where that of one to four errors names
each. -/
theorem decodeAcceptsTheUnitLocator : Obligations.DecodeAcceptsTheUnitLocator := by
  unfold Obligations.DecodeAcceptsTheUnitLocator
  refine ⟨fun p s hs hvalid hcode hunit => ?_, fun p s hs hvalid hsyn => ?_⟩
  · refine exec_decode_of_unit_locator hs hvalid hcode fun j => ?_
    obtain hj | hj := Nat.lt_or_ge j 9
    · exact hunit j hj
    · rw [coeff_out_of_range _ _ hj, if_neg (by omega)]
  · have hcode := not_isCodeword_of_unit_syndrome hsyn
    exact ⟨hcode, fun _ hC => four_lt_differences_of_unit_syndrome hsyn hC,
      exec_decode_of_unit_locator hs hvalid hcode (coeff_locatorOf_of_unit_syndrome hsyn)⟩

end Sys2Proof.Proofs
end

section
/-! PROOFS for spec/47_packing_adapter.md: PACK and UNPACK and that they are inverse to each other (R180 to R183), COMPUTE and the
zero-padded block (R184, R185), CORRECT (R186, R187), and what the two host procedures give together (R188). -/

namespace Sys2Proof.Proofs

open Sys2Proof.Machine Sys2Proof.Laws Sys2Proof.Safety

/-! ## PACK and UNPACK (R182, R183) -/

/-- Settles O42: the meaning of PACK is the state written out, and `pack` evaluated on each example. -/
theorem packCommandRule : Obligations.PackCommandRule := by
  unfold Obligations.PackCommandRule
  refine ⟨fun _ => rfl, ?_⟩
  decide

/-- Settles O43: the meaning of UNPACK is the state written out, and `unpack` evaluated on the example. -/
theorem unpackCommandRule : Obligations.UnpackCommandRule := by
  unfold Obligations.UnpackCommandRule
  refine ⟨fun _ => rfl, ?_⟩
  decide

/-! ## `pack` and `unpack` are inverse to each other (R180, R181) -/

/-- Two lists of words of one width and one length that spell the same number are the same. -/
theorem eq_of_ofDigits_toNat {w : Nat} (hw : w ≠ 0) {l l' : List (BitVec w)} (hlen : l.length = l'.length)
    (h : Nat.ofDigits (2 ^ w) (l.map BitVec.toNat) = Nat.ofDigits (2 ^ w) (l'.map BitVec.toNat)) : l = l' := by
  have hdigit : ∀ l : List (BitVec w), ∀ d ∈ l.map BitVec.toNat, d < 2 ^ w := fun l => by
    rw [List.forall_mem_map]
    exact fun b _ => b.isLt
  refine List.map_injective_iff.mpr (fun a b => BitVec.eq_of_toNat_eq) ?_
  exact Nat.ofDigits_inj_of_len_eq (Nat.one_lt_two_pow hw) (by simpa using hlen) (hdigit l) (hdigit l') h

/-- R66: both say that the bytes and the symbols of the group spell the same number. -/
theorem packGroup_eq_iff (s0 s1 s2 s3 : Symbol) (b0 b1 b2 b3 b4 : Byte) :
    packGroup s0 s1 s2 s3 = [b0, b1, b2, b3, b4] ↔ unpackGroup b0 b1 b2 b3 b4 = [s0, s1, s2, s3] := by
  constructor <;> intro h
  · refine eq_of_ofDigits_toNat (by decide) rfl ?_
    rw [ofDigits_unpackGroup, ← h, ofDigits_packGroup]
  · refine eq_of_ofDigits_toNat (by decide) rfl ?_
    rw [ofDigits_packGroup, ← h, ofDigits_unpackGroup]

theorem cells_symbols (P : Buffer Symbol 8) :
    P.cells = [P.coeff 0, P.coeff 1, P.coeff 2, P.coeff 3] ++ [P.coeff 4, P.coeff 5, P.coeff 6, P.coeff 7] :=
  cells_eq_of_coeff rfl fun i hi => by interval_cases i <;> rfl

theorem cells_bytes (E : Buffer Byte 10) :
    E.cells = [E.coeff 0, E.coeff 1, E.coeff 2, E.coeff 3, E.coeff 4] ++
      [E.coeff 5, E.coeff 6, E.coeff 7, E.coeff 8, E.coeff 9] :=
  cells_eq_of_coeff rfl fun i hi => by interval_cases i <;> rfl

theorem unpack_pack (P : Buffer Symbol 8) : unpack (pack P) = P := by
  have hgroup := fun g (hg : g < 2) => (packGroup_eq_iff _ _ _ _ _ _ _ _ _).mp (pack_group P hg).symm
  refine buffer_eq_of_cells (Eq.trans ?_ (cells_symbols P).symm)
  exact congrArg₂ (· ++ ·) (hgroup 0 (by decide)) (hgroup 1 (by decide))

theorem pack_unpack (E : Buffer Byte 10) : pack (unpack E) = E := by
  have hgroup := fun g (hg : g < 2) => (packGroup_eq_iff _ _ _ _ _ _ _ _ _).mpr (unpack_group E hg).symm
  refine buffer_eq_of_cells (Eq.trans ?_ (cells_bytes E).symm)
  exact congrArg₂ (· ++ ·) (hgroup 0 (by decide)) (hgroup 1 (by decide))

/-- Settles O44: group by group, by the number that the bytes and the symbols spell. -/
theorem packingIsABijection : Obligations.PackingIsABijection := by
  unfold Obligations.PackingIsABijection
  exact ⟨unpack_pack, pack_unpack⟩

theorem unpack_eq_iff (E : Buffer Byte 10) (P : Buffer Symbol 8) : unpack E = P ↔ E = pack P := by
  constructor
  · rintro rfl
    exact (pack_unpack E).symm
  · rintro rfl
    exact unpack_pack P

/-! ## The zero-padded block (R63, R184) -/

theorem length_dataAndPad (D : Buffer Byte 512) :
    (D.cells.map (fun b => symbolToContainer (byteToSymbol b)) ++ List.replicate 503 (0 : Container)).length = 1015 := by
  rw [List.length_append, List.length_map, List.length_replicate, D.size]

/-- R184: an implicit zero symbol reads as the byte outside `DATA`, which is 0. -/
theorem coeff_buildCw_data (D : Buffer Byte 512) (P : Buffer Symbol 8) {pos : Nat} (h : pos < 1015) :
    (buildCw D P).coeff pos = symbolToContainer (byteToSymbol (D.coeff pos)) := by
  have hlen := length_dataAndPad D
  simp only [Buffer.coeff, Buffer.getD, buildCw]
  rw [List.getD_append _ _ _ _ (by omega)]
  obtain hdata | hpad := Nat.lt_or_ge pos 512
  · rw [List.getD_append _ _ _ _ (by rwa [List.length_map, D.size])]
    exact List.getD_map D.cells 0 fun b => symbolToContainer (byteToSymbol b)
  · rw [List.getD_append_right _ _ _ _ (by rwa [List.length_map, D.size]), List.getD_eq_getElem?_getD,
      List.getElem?_getD_replicate_default_eq, List.getD_eq_default _ _ (by rwa [D.size])]
    rfl

theorem coeff_buildCw_parity (D : Buffer Byte 512) (P : Buffer Symbol 8) {j : Nat} (h : j < 8) :
    (buildCw D P).coeff (1015 + j) = symbolToContainer (P.coeff j) := by
  have hlen := length_dataAndPad D
  simp only [Buffer.coeff, Buffer.getD, buildCw]
  rw [List.getD_append_right _ _ _ _ (by omega), hlen, Nat.add_sub_cancel_left]
  exact List.getD_map P.cells 0 symbolToContainer

theorem buildCw_eq_withParity (D : Buffer Byte 512) (P Q : Buffer Symbol 8) :
    buildCw D P = withParity (buildCw D Q) P := by
  refine buffer_ext_coeff fun pos hpos => ?_
  obtain hdata | hparity := Nat.lt_or_ge pos 1015
  · rw [coeff_withParity_data _ _ hdata, coeff_dataPart _ _ hdata, coeff_buildCw_data _ _ hdata, coeff_buildCw_data _ _ hdata]
  · obtain ⟨j, rfl⟩ := Nat.exists_eq_add_of_le hparity
    rw [coeff_withParity_parity _ _ (by omega), coeff_buildCw_parity _ _ (by omega)]

/-- R184: the symbols of the data part: the bytes, zero-extended, and 503 zeros. -/
theorem symbols_dataPart_buildCw (D : Buffer Byte 512) (P : Buffer Symbol 8) :
    (dataPart (buildCw D P)).cells.map containerToSymbol = D.cells.map byteToSymbol ++ List.replicate 503 0 := by
  have hzero : containerToSymbol 0 = 0 := rfl
  have hsymbol : (containerToSymbol ∘ fun b => symbolToContainer (byteToSymbol b)) = byteToSymbol :=
    funext fun b => containerToSymbol_symbolToContainer _
  simp only [dataPart, Buffer.take, buildCw]
  rw [List.take_left' (length_dataAndPad D), List.map_append, List.map_map, hsymbol, List.map_replicate, hzero]

/-! ## COMPUTE (R185) -/

/-- R120: zeros fed first leave the register at zero. -/
theorem lfsrRun_append_zeros (F : FieldTables) (gen : Buffer LogForm 9) (D : List Symbol) (k : Nat) :
    lfsrRun F gen (D ++ List.replicate k 0) = lfsrRun F gen D := by
  have hzeros : (List.replicate k 0).foldr (lfsrStep F gen) (filled 8 0) = filled 8 0 := lfsrRun_zeros F gen k
  rw [lfsrRun, List.foldr_append, hzeros, lfsrRun]

/-- R185: the parity of the block, by the shift register that starts at `DATA[511]`. -/
def blockParity (F : FieldTables) (gen : Buffer LogForm 9) (D : Buffer Byte 512) : Buffer Symbol 8 :=
  lfsrRun F gen (D.cells.map byteToSymbol)

theorem lfsrRun_buildCw (F : FieldTables) (gen : Buffer LogForm 9) (D : Buffer Byte 512) (P : Buffer Symbol 8) :
    lfsrRun F gen ((dataPart (buildCw D P)).cells.map containerToSymbol) = blockParity F gen D := by
  rw [symbols_dataPart_buildCw, lfsrRun_append_zeros, blockParity]

/-- R185, R120: "The parity part of the codeword is not used". -/
theorem rsEncode_buildCw (F : FieldTables) (gen : Buffer LogForm 9) (D : Buffer Byte 512) (P : Buffer Symbol 8) :
    rsEncode F gen (dataPart (buildCw D P)) = .ok (blockParity F gen D) :=
  (rsEncode_eq_ok_iff _ _ _ _).mpr ⟨allValid_dataPart _ (allValid_buildCw D P), lfsrRun_buildCw F gen D P⟩

theorem exec_compute (s : State) :
    exec .compute s =
      .next (complete 0 (scrubUnitRegisters { doInit primPoly s with
        eccO := pack (blockParity (doInit primPoly s).tables (doInit primPoly s).gen s.data) })) := by
  rw [exec_eq_commandUnit, ← doInit_data primPoly s, ← lfsrRun_buildCw _ _ _ (filled 8 0)]
  exact congrArg _ (computeUnit_eq _)

theorem outcome_of_compute {s t : State} (h : exec .compute s = .next t) :
    t.status = .ok ∧ t.result = 0 ∧
      t.eccO = pack (blockParity (doInit primPoly s).tables (doInit primPoly s).gen s.data) := by
  rw [exec_compute] at h
  cases h
  exact ⟨rfl, rfl, rfl⟩

theorem pack_zeros : pack (filled 8 0) = filled 10 0 := by
  unfold filled
  rfl

theorem blockParity_of_zeros (F : FieldTables) (gen : Buffer LogForm 9) {D : Buffer Byte 512}
    (h : ∀ i, i < 512 → D.coeff i = 0) : blockParity F gen D = filled 8 0 := by
  have hzero : byteToSymbol 0 = 0 := rfl
  have hcells : D.cells = List.replicate 512 0 :=
    cells_eq_of_coeff List.length_replicate fun i hi => by rw [h i hi, List.getD_replicate _ hi]
  rw [blockParity, hcells, List.map_replicate, hzero, lfsrRun_zeros]

/-- R121, R185: the parity of a single 1 is the generator polynomial without its leading term. -/
theorem blockParity_of_one (p : PrimPoly) {D : Buffer Byte 512} (hone : D.coeff 0 = 1)
    (hzero : ∀ i, 1 ≤ i → i < 512 → D.coeff i = 0) {j : Nat} (hj : j < 8) :
    (blockParity (buildField p) (buildGen (buildField p)) D).coeff j = (generatorCoeffs (buildField p)).getD j 0 := by
  have hcells : D.cells = 1 :: List.replicate 511 0 := by
    refine cells_eq_of_coeff (by rw [List.length_cons, List.length_replicate]) fun i hi => ?_
    cases i with
    | zero => exact hone
    | succ i => rw [hzero _ (by omega) hi, List.getD_cons_succ, List.getD_replicate _ (by omega)]
  have hsymbols : D.cells.map byteToSymbol = 1 :: List.replicate 511 0 := by
    rw [hcells, List.map_cons, List.map_replicate]
    rfl
  rw [blockParity, hsymbols, lfsrRun_one p _ hj]

/-- R13: a sound context of the block at hand is that of the default `PRIM_POLY` after `do_init`. -/
theorem runsOver_of_contextBuilt {s : State} (h : ContextBuilt primPoly s) : RunsOver primPoly s :=
  doInit_contextBuilt h (doInit_initDone primPoly s)

/-- Settles O46: `ECC_O` is the packed `blockParity`, of which zeros and a single 1 are corner cases; the example is the generator
polynomial of the default, packed. -/
theorem computeCommandRule : Obligations.ComputeCommandRule := by
  unfold Obligations.ComputeCommandRule
  refine ⟨fun s => ⟨_, exec_compute s, rfl, rfl, ?_, rfl, doInit_data _ s, doInit_eccS _ s, doInit_eccR _ s, doInit_cmd _ s,
      fun hzero b hb => ?_⟩, fun s s' t t' hs hs' hdata h h' => ?_, fun s t hs hone hzero h => ?_⟩
  · rw [rsEncode_buildCw]
    exact congrArg _ (unpack_pack _).symm
  · show (pack (blockParity _ _ s.data)).coeff b = 0
    rw [blockParity_of_zeros _ _ hzero, pack_zeros]
    exact coeff_filled_zero b
  · obtain ⟨hstatus, hresult, hecc⟩ := outcome_of_compute h
    obtain ⟨hstatus', hresult', hecc'⟩ := outcome_of_compute h'
    obtain ⟨htables, hgen⟩ := runsOver_of_contextBuilt hs
    obtain ⟨htables', hgen'⟩ := runsOver_of_contextBuilt hs'
    rw [hstatus, hstatus', hresult, hresult', hecc, hecc', htables, htables', hgen, hgen', hdata]
    exact ⟨rfl, rfl, rfl⟩
  · obtain ⟨-, -, hecc⟩ := outcome_of_compute h
    obtain ⟨htables, hgen⟩ := runsOver_of_contextBuilt hs
    have hparity : blockParity (buildField primPoly) (buildGen (buildField primPoly)) s.data =
        ⟨[0x344, 0x24B, 0x03A, 0x3A0, 0x297, 0x143, 0x033, 0x1FE], rfl⟩ := buffer_ext_coeff fun j hj => by
      rw [blockParity_of_one primPoly hone hzero hj, Fast.generatorCoeffs_eq]
      decide +revert
    obtain ⟨-, hexample, -⟩ := packCommandRule
    rw [hecc, htables, hgen, hparity]
    exact hexample

/-- Settles O47: both pack the register that the zero-padded block leaves. -/
theorem encodeThenPackIsCompute : Obligations.EncodeThenPackIsCompute := by
  unfold Obligations.EncodeThenPackIsCompute
  intro s t u v P hcw hencode hpack hcompute
  have hvalid : ∀ i, i < 1015 → (s.cw.coeff i).toNat < 1024 := by
    rw [hcw, ← allValid_dataPart_iff]
    exact allValid_dataPart _ (allValid_buildCw _ _)
  obtain rfl : u = packUnit t := eq_commandUnit_of_exec hpack
  obtain ⟨-, -, hecc⟩ := outcome_of_compute hcompute
  refine ⟨rfl, ?_⟩
  rw [hecc, ← lfsrRun_buildCw _ _ s.data P, ← hcw, ← par_of_encode hvalid hencode]
  rfl

/-! ## CORRECT (R186, R187) -/

/-- R186: the codeword buffer that CORRECT decodes: the block with its stored ECC. -/
def storedWord (s : State) : Buffer Container 1023 := buildCw s.data (unpack s.eccS)

theorem storedWord_doInit (s : State) : storedWord (doInit primPoly s) = storedWord s := by
  rw [storedWord, doInit_data, doInit_eccS, storedWord]

theorem forney_error {F : FieldTables} {C : Buffer Container 1023} {S : Buffer Symbol 8} {lam : Buffer Symbol 9}
    {roots : List Nat} {e : ErrorKind} (h : forney F C S lam roots = .error e) : e = .uncorrectable := by
  unfold forney at h
  split at h
  · cases h
    exact applyMagnitudes_error _ _ _ _ _ _ ‹_›
  · cases h

/-- R163: on valid symbols only Uncorrectable is left, from the root count or from the corrector. -/
theorem rsDecode_error {F : FieldTables} {C : Buffer Container 1023} {e : ErrorKind} (hv : allValid C = true)
    (h : rsDecode F C = .error e) : e = .uncorrectable := by
  simp only [rsDecode, rsSyndromes, if_pos hv] at h
  split at h
  · cases h
  · split at h
    · exact forney_error h
    · cases h
      rfl

section
variable {F : FieldTables} {D : Buffer Byte 512} {Es Er : Buffer Byte 10} (hne : Es ≠ Er)
include hne

theorem correctBlock_of_error {e : ErrorKind} (hdec : rsDecode F (buildCw D (unpack Es)) = .error e) :
    correctBlock F D Es Er = .error e := by
  rw [correctBlock, if_neg hne, hdec]

theorem correctBlock_of_ok {C : Buffer Container 1023} {count : Nat}
    (hdec : rsDecode F (buildCw D (unpack Es)) = .ok (C, count)) :
    correctBlock F D Es Er = if 4 < count then .error .uncorrectable else .ok (dataBytes C, count) := by
  rw [correctBlock, if_neg hne, hdec]

end

/-- R186: CORRECT cannot restore the block: the decode fails or counts more than 4. -/
def BeyondCorrection (F : FieldTables) (C : Buffer Container 1023) : Prop :=
  ∀ C' count, rsDecode F C = .ok (C', count) → 4 < count

/-- The three ways CORRECT can end (R186, R187): with equal ECC buffers, with at most four errors, and with more or a failed
decode. -/
theorem correctUnit_ends (s : State) :
    (s.eccS = s.eccR ∧ correctUnit s = complete 0 (scrubUnitRegisters s)) ∨
    (s.eccS ≠ s.eccR ∧ ∃ C count, rsDecode s.tables (storedWord s) = .ok (C, count) ∧ count ≤ 4 ∧
      correctUnit s = complete count (scrubUnitRegisters { s with data := dataBytes C })) ∨
    (s.eccS ≠ s.eccR ∧ BeyondCorrection s.tables (storedWord s) ∧
      correctUnit s = raise .uncorrectable (scrubData (scrubUnitRegisters s))) := by
  by_cases heq : s.eccS = s.eccR
  · exact .inl ⟨heq, by rw [correctUnit, correctBlock, if_pos heq]⟩
  refine .inr ?_
  rw [BeyondCorrection]
  cases hdec : rsDecode s.tables (storedWord s) with
  | error e =>
    obtain rfl := rsDecode_error (allValid_buildCw _ _) hdec
    exact .inr ⟨heq, nofun, by rw [correctUnit, correctBlock_of_error heq hdec]⟩
  | ok r =>
    obtain ⟨C, count⟩ := r
    obtain hcount | hcount := Nat.lt_or_ge 4 count
    · refine .inr ⟨heq, fun C' count' h => ?_, by rw [correctUnit, correctBlock_of_ok heq hdec, if_pos hcount]⟩
      cases h
      exact hcount
    · exact .inl ⟨heq, C, count, rfl, hcount, by
        rw [correctUnit, correctBlock_of_ok heq hdec, if_neg (Nat.not_lt.mpr hcount)]⟩

theorem coeff_dataBytes (C : Buffer Container 1023) {i : Nat} (h : i < 512) :
    (dataBytes C).coeff i = symbolToByte (containerToSymbol (C.coeff i)) := by
  rw [Buffer.coeff, Buffer.coeff, getD_eq_getElem _ _ _ h, getD_eq_getElem _ _ _ (by omega)]
  simp only [dataBytes, List.getElem_map, List.getElem_take]

theorem exec_correct (s : State) : exec .correct s = .next (correctUnit (doInit primPoly s)) := exec_eq_commandUnit .correct s

theorem exec_correct_of_equal {s : State} (heq : s.eccS = s.eccR) :
    exec .correct s = .next (complete 0 (scrubUnitRegisters (doInit primPoly s))) := by
  have heq' : (doInit primPoly s).eccS = (doInit primPoly s).eccR := by rwa [doInit_eccS, doInit_eccR]
  obtain ⟨-, h⟩ | ⟨hne, -⟩ | ⟨hne, -⟩ := correctUnit_ends (doInit primPoly s)
  · rw [exec_correct, h]
  all_goals exact absurd heq' hne

theorem exec_correct_of_decode {s : State} {C : Buffer Container 1023} {count : Nat} (hne : s.eccS ≠ s.eccR)
    (hdec : rsDecode (doInit primPoly s).tables (storedWord s) = .ok (C, count)) (hcount : count ≤ 4) :
    exec .correct s = .next (complete count (scrubUnitRegisters { doInit primPoly s with data := dataBytes C })) := by
  rw [← storedWord_doInit] at hdec
  rw [← doInit_eccS primPoly s, ← doInit_eccR primPoly s] at hne
  obtain ⟨heq, -⟩ | ⟨-, C', count', hdec', -, h⟩ | ⟨-, hfail, -⟩ := correctUnit_ends (doInit primPoly s)
  · exact absurd heq hne
  · rw [hdec] at hdec'
    cases hdec'
    rw [exec_correct, h]
  · exact absurd hcount (Nat.not_le.mpr (hfail C count hdec))

/-- Settles O48: each way in which CORRECT ends is the branch of the rule with the same condition. -/
theorem correctCommandRule : Obligations.CorrectCommandRule := by
  unfold Obligations.CorrectCommandRule
  intro s
  obtain ⟨-, hframe⟩ := frameOfTheBoundaryCommands s (correctUnit (doInit primPoly s))
  obtain ⟨heccS, heccR, heccO, hcmd, -⟩ := hframe (exec_correct s)
  refine ⟨_, exec_correct s, heccS, heccR, heccO, hcmd, ?_⟩
  rw [← doInit_eccS primPoly s, ← doInit_eccR primPoly s, ← doInit_data primPoly s, ← storedWord]
  obtain ⟨heq, h⟩ | ⟨hne, C, count, hdec, hcount, h⟩ | ⟨hne, hfail, h⟩ := correctUnit_ends (doInit primPoly s) <;> rw [h]
  · exact ⟨fun _ => ⟨rfl, rfl, rfl⟩, fun hne => absurd heq hne⟩
  · refine ⟨fun heq => absurd heq hne, fun _ => ?_⟩
    rw [hdec]
    dsimp only
    rw [if_pos hcount]
    refine ⟨rfl, ?_, fun i hi => coeff_dataBytes C hi⟩
    rw [complete_result, BitVec.toNat_ofNat]
    omega
  · refine ⟨fun heq => absurd heq hne, fun _ => ?_⟩
    cases hdec : rsDecode (doInit primPoly s).tables (storedWord (doInit primPoly s)) with
    | error e => exact ⟨rfl, rfl⟩
    | ok r =>
      obtain ⟨C, count⟩ := r
      dsimp only
      rw [if_neg (Nat.not_le.mpr (hfail C count hdec))]
      exact ⟨rfl, rfl⟩

/-! ## A block and its ECC as a codeword (R188 (a)) -/

/-- Two codewords that differ in at most eight symbols are one. -/
theorem isCodeword_unique (p : PrimPoly) {C C' : Buffer Container 1023} (hv : allValid C = true) (hv' : allValid C' = true)
    (hcode : IsCodeword (buildField p) C) (hcode' : IsCodeword (buildField p) C') (h : differences C C' ≤ 8) : C = C' := by
  have hcard := card_errorPositions_xorBuffer ((allValid_iff C).mp hv) ((allValid_iff C').mp hv')
  have hzero : syndromesAllZero (syndromes (buildField p) (xorBuffer C C')) = true := by
    rw [syndromesAllZero_syndromes_iff]
    intro i h1 h8
    rw [receivedAt_xor p (fun pos hpos => coeff_xorBuffer C C' hpos), hcode i h1 h8, hcode' i h1 h8]
    exact BitVec.xor_self
  refine eq_of_differences ?_
  rw [← hcard, errorPositions_eq_empty p (hcard.trans_le h) hzero, Finset.card_empty]

/-- Two parities of one block differ in nothing but the eight parity symbols. -/
theorem differences_buildCw_parity (D : Buffer Byte 512) (P Q : Buffer Symbol 8) :
    differences (buildCw D P) (buildCw D Q) ≤ 8 := by
  have hsubset : ((Finset.range 1023).filter fun pos => (buildCw D P).coeff pos ≠ (buildCw D Q).coeff pos) ⊆
      Finset.Ico 1015 1023 := fun pos hpos => by
    obtain ⟨hlt, hne⟩ := Finset.mem_filter.mp hpos
    refine Finset.mem_Ico.mpr ⟨?_, Finset.mem_range.mp hlt⟩
    by_contra hdata
    exact hne (by rw [coeff_buildCw_data D P (not_le.mp hdata), coeff_buildCw_data D Q (not_le.mp hdata)])
  rw [differences_eq_card]
  exact (Finset.card_le_card hsubset).trans_eq (Nat.card_Ico 1015 1023)

theorem buildCw_parity_injective {D : Buffer Byte 512} {P Q : Buffer Symbol 8} (h : buildCw D P = buildCw D Q) : P = Q := by
  refine buffer_ext_coeff fun j hj => ?_
  rw [← containerToSymbol_symbolToContainer (P.coeff j), ← containerToSymbol_symbolToContainer (Q.coeff j),
    ← coeff_buildCw_parity D P hj, ← coeff_buildCw_parity D Q hj, h]

theorem isCodeword_blockParity (p : PrimPoly) (D : Buffer Byte 512) :
    IsCodeword (buildField p) (buildCw D (blockParity (buildField p) (buildGen (buildField p)) D)) := by
  rw [buildCw_eq_withParity _ _ (filled 8 0), ← lfsrRun_buildCw _ _ _ (filled 8 0)]
  exact withParity_lfsrRun_isCodeword p _

/-- R122, R188 (a): the parity of a block is the only one that makes it a codeword. -/
theorem isCodeword_buildCw_iff (p : PrimPoly) (D : Buffer Byte 512) (P : Buffer Symbol 8) :
    IsCodeword (buildField p) (buildCw D P) ↔ P = blockParity (buildField p) (buildGen (buildField p)) D := by
  constructor
  · intro hcode
    exact buildCw_parity_injective (isCodeword_unique p (allValid_buildCw _ _) (allValid_buildCw _ _) hcode
      (isCodeword_blockParity p D) (differences_buildCw_parity D _ _))
  · rintro rfl
    exact isCodeword_blockParity p D

/-- Settles O49: `ECC_O` is the packed parity, and packing is a bijection. -/
theorem codewordExactlyWhenTheEccMatches : Obligations.CodewordExactlyWhenTheEccMatches := by
  unfold Obligations.CodewordExactlyWhenTheEccMatches
  intro p s E ⟨htables, hgen⟩
  obtain ⟨-, -, hecc⟩ := outcome_of_compute (exec_compute s)
  refine ⟨_, exec_compute s, ?_⟩
  rw [hecc, htables, hgen, isCodeword_buildCw_iff, unpack_eq_iff]

/-! ## The two host procedures (R72, R188) -/

/-- R17: a command keeps a sound context sound. -/
theorem contextBuilt_of_exec {i : Instr} {s t : State} (hs : ContextBuilt primPoly s) (h : exec i s = .next t) :
    ContextBuilt primPoly t := by
  rw [eq_commandUnit_of_exec h]
  refine (commandUnit_sameContext i _).contextBuilt ?_
  obtain hstart | hstart := unitStart_cases primPoly i s <;> rw [hstart]
  · exact hs
  · exact doInit_contextBuilt hs

/-- R72: the block on which `compute_ecc` starts COMPUTE. -/
def computeStart (B : Buffer Byte 512) (s : State) : State := { s with data := B, cmd := encode .compute }

/-- R72: the block on which `correct` starts CORRECT. -/
def correctStart (D : Buffer Byte 512) (stored recomp : Buffer Byte 10) (s : State) : State :=
  { s with data := D, eccS := stored, eccR := recomp, cmd := encode .correct }

/-- R72: `compute_ecc` answers the packed parity, and leaves the block idle with its context sound. -/
theorem exists_computeEcc {s : State} (hidle : s.cmdWritten = false) (B : Buffer Byte 512) :
    ∃ t, computeEcc B s = some (pack (blockParity (doInit primPoly s).tables (doInit primPoly s).gen B), t) ∧
      t.cmdWritten = false ∧ (ContextBuilt primPoly s → ContextBuilt primPoly t) := by
  obtain ⟨t, hexec⟩ : ∃ t, exec .compute (computeStart B s) = .next t := ⟨_, exec_compute _⟩
  obtain ⟨-, -, hecc⟩ := outcome_of_compute hexec
  obtain ⟨hframe, -⟩ := frameOfTheBoundaryCommands (computeStart B s) t
  obtain ⟨-, -, -, -, hwritten⟩ := hframe hexec
  refine ⟨t, ?_, hwritten.trans hidle, fun hs => contextBuilt_of_exec (s := computeStart B s) hs hexec⟩
  rw [computeEcc_eq B hidle hexec, hecc, doInit_tables, doInit_gen, doInit_tables primPoly s, doInit_gen primPoly s]
  rfl

/-- R72: `correct` answers `Ok` with the count and the data that CORRECT leaves. -/
theorem exists_correctData_of_ok {s u : State} {D B : Buffer Byte 512} {stored recomp : Buffer Byte 10} {count : BitVec 4}
    (hidle : s.cmdWritten = false) (hexec : exec .correct (correctStart D stored recomp s) = .next u)
    (hstatus : u.status = .ok) (hresult : u.result = count) (hdata : u.data = B) :
    ∃ u, correctData D stored recomp s = some (.okCount count B, u) :=
  ⟨u, by rw [correctData_eq D stored recomp hidle hexec, if_pos hstatus, hresult, hdata]⟩

/-- R186: `correct` with equal ECC buffers. -/
theorem exists_correctData_of_equal {s : State} (hidle : s.cmdWritten = false) (B : Buffer Byte 512) (e : Buffer Byte 10) :
    ∃ u, correctData B e e s = some (.okCount 0 B, u) :=
  exists_correctData_of_ok hidle (exec_correct_of_equal (s := correctStart B e e s) rfl) rfl rfl (doInit_data _ _)

/-- Settles O50: the ECC is stored and given back as it is, so the two buffers are equal. -/
theorem roundTripWithoutCorruption : Obligations.RoundTripWithoutCorruption := by
  unfold Obligations.RoundTripWithoutCorruption
  intro s B hidle
  obtain ⟨t, hcompute, hidle', -⟩ := exists_computeEcc hidle B
  obtain ⟨u, hcorrect⟩ := exists_correctData_of_equal hidle' B _
  exact ⟨_, t, u, hcompute, hcorrect⟩

/-! ## Up to four corrupted bytes (R188 (c), (e)) -/

theorem lt_of_coeff_ne {w n : Nat} {a b : Buffer (BitVec w) n} {i : Nat} (h : a.coeff i ≠ b.coeff i) : i < n := by
  by_contra hge
  exact h (by rw [coeff_out_of_range a i (not_lt.mp hge), coeff_out_of_range b i (not_lt.mp hge)])

/-- R43: the container of a data byte determines the byte. -/
theorem byteToContainer_injective : Function.Injective fun b : Byte => symbolToContainer (byteToSymbol b) :=
  Function.LeftInverse.injective (g := fun c => symbolToByte (containerToSymbol c)) fun b => by
    dsimp only
    rw [containerToSymbol_symbolToContainer, symbolToByte_byteToSymbol]

/-- R184: a wrong byte is a wrong symbol. -/
theorem coeff_buildCw_ne_iff (D B : Buffer Byte 512) (P : Buffer Symbol 8) (pos : Nat) :
    (buildCw D P).coeff pos ≠ (buildCw B P).coeff pos ↔ D.coeff pos ≠ B.coeff pos := by
  have hdata : pos < 1015 → ((buildCw D P).coeff pos = (buildCw B P).coeff pos ↔ D.coeff pos = B.coeff pos) := fun h => by
    rw [coeff_buildCw_data D P h, coeff_buildCw_data B P h]
    exact byteToContainer_injective.eq_iff
  constructor <;> intro hne
  · have hlt := lt_of_coeff_ne hne
    obtain h | h := Nat.lt_or_ge pos 1015
    · rwa [Ne, hdata h] at hne
    · obtain ⟨j, rfl⟩ := Nat.exists_eq_add_of_le h
      exact absurd (by rw [coeff_buildCw_parity D P (by omega), coeff_buildCw_parity B P (by omega)]) hne
  · have hlt := lt_of_coeff_ne hne
    rwa [Ne, hdata (by omega)]

theorem differences_buildCw (D B : Buffer Byte 512) (P : Buffer Symbol 8) :
    differences (buildCw D P) (buildCw B P) = differences D B := by
  rw [differences_eq_card, differences_eq_card]
  refine congrArg Finset.card (Finset.ext fun pos => ?_)
  rw [Finset.mem_filter, Finset.mem_filter, Finset.mem_range, Finset.mem_range, coeff_buildCw_ne_iff]
  refine and_congr_left fun hne => ?_
  have hlt := lt_of_coeff_ne hne
  omega

theorem dataBytes_buildCw (B : Buffer Byte 512) (P : Buffer Symbol 8) : dataBytes (buildCw B P) = B :=
  buffer_ext_coeff fun i hi => by
    rw [coeff_dataBytes _ hi, coeff_buildCw_data B P (by omega), containerToSymbol_symbolToContainer, symbolToByte_byteToSymbol]

/-- R161, R163: the count is that of the listed roots, at most eight. -/
theorem rsDecode_count_le {F : FieldTables} {C C' : Buffer Container 1023} {count : Nat}
    (h : rsDecode F C = .ok (C', count)) : count ≤ 8 := by
  have hlisted : ∀ (root : Buffer (BitVec 10) 8) (k : Nat), (listedRoots root k).length ≤ 8 := fun root k => by
    rw [listedRoots, List.length_map]
    exact (List.length_take_le' k root.cells).trans_eq root.size
  unfold rsDecode at h
  split at h
  · cases h
  · split at h
    · cases h
      exact Nat.zero_le 8
    · dsimp only at h
      split at h
      · unfold forney at h
        split at h <;> cases h
        exact hlisted _ _
      · cases h

/-- A block built with `PRIM_POLY` = `p`, initialised, that holds the word `cw`. -/
def blockHolding (p : PrimPoly) (cw : Buffer Container 1023) : State := { doInit p State.reset with cw := cw }

@[simp] theorem blockHolding_cw (p : PrimPoly) (cw : Buffer Container 1023) : (blockHolding p cw).cw = cw := rfl

theorem runsOver_blockHolding (p : PrimPoly) (cw : Buffer Container 1023) : RunsOver p (blockHolding p cw) := ⟨rfl, rfl⟩

/-- R188 (c): a word within four symbols of a codeword decodes to it, with the number of wrong symbols. -/
theorem rsDecode_of_repairable (p : PrimPoly) {cw C : Buffer Container 1023} (hv : allValid cw = true) (hC : allValid C = true)
    (hcode : IsCodeword (buildField p) C) (hfour : differences cw C ≤ 4) :
    rsDecode (buildField p) cw = .ok (C, differences cw C) := by
  obtain ⟨t, hexec, hstatus, hcw, hresult⟩ := decodeRepairsUpToFourErrors p (blockHolding p cw) C (runsOver_blockHolding p cw)
    ((allValid_iff cw).mp hv) ((allValid_iff C).mp hC) hcode hfour
  obtain ⟨t', hexec', hpath⟩ := decodeAgreesWithTheDecodePath p (blockHolding p cw) (runsOver_blockHolding p cw)
  obtain rfl : t' = t := Host.Outcome.next.inj (hexec'.symm.trans hexec)
  rw [blockHolding_cw] at hpath hresult
  cases hdec : rsDecode (buildField p) cw with
  | error e =>
    rw [hdec] at hpath
    obtain ⟨hfail, -⟩ := hpath
    rw [hstatus] at hfail
    cases e <;> cases hfail
  | ok r =>
    obtain ⟨C', count⟩ := r
    rw [hdec] at hpath
    obtain ⟨-, hcw', hresult'⟩ := hpath
    have hcount : count = differences cw C := by
      have hle := rsDecode_count_le hdec
      have hmod := congrArg BitVec.toNat (hresult'.symm.trans hresult)
      rw [BitVec.toNat_ofNat, BitVec.toNat_ofNat] at hmod
      omega
    rw [← hcw', hcw, hcount]

/-- R185: the ECC of a block over the field of `p`. -/
def blockEcc (p : PrimPoly) (B : Buffer Byte 512) : Buffer Byte 10 :=
  pack (blockParity (buildField p) (buildGen (buildField p)) B)

theorem isCodeword_blockEcc (p : PrimPoly) (B : Buffer Byte 512) :
    IsCodeword (buildField p) (buildCw B (unpack (blockEcc p B))) := by
  rw [blockEcc, unpack_pack]
  exact isCodeword_blockParity p B

/-- Two blocks within four bytes of each other have different ECCs. -/
theorem blockEcc_injective_of_four (p : PrimPoly) {D B : Buffer Byte 512} (hfour : differences D B ≤ 4)
    (h : blockEcc p B = blockEcc p D) : D = B := by
  have hcode := isCodeword_blockEcc p D
  rw [← h] at hcode
  have hword := isCodeword_unique p (allValid_buildCw _ _) (allValid_buildCw _ _) hcode (isCodeword_blockEcc p B)
    (by rw [differences_buildCw]; omega)
  rw [← dataBytes_buildCw D (unpack (blockEcc p B)), hword, dataBytes_buildCw]

theorem exists_computeEcc_of_contextBuilt {s : State} (hs : ContextBuilt primPoly s) (hidle : s.cmdWritten = false)
    (B : Buffer Byte 512) :
    ∃ t, computeEcc B s = some (blockEcc primPoly B, t) ∧ t.cmdWritten = false ∧ ContextBuilt primPoly t := by
  obtain ⟨t, hcompute, hidle', ht⟩ := exists_computeEcc hidle B
  obtain ⟨htables, hgen⟩ := runsOver_of_contextBuilt hs
  rw [htables, hgen] at hcompute
  exact ⟨t, hcompute, hidle', ht hs⟩

/-- R188 (c): the stored ECC makes the corrupted block a word within four symbols of the codeword of the block. -/
theorem exists_correctData_of_repairable {s : State} (hs : ContextBuilt primPoly s) (hidle : s.cmdWritten = false)
    {D B : Buffer Byte 512} (hfour : differences D B ≤ 4) :
    ∃ u, correctData D (blockEcc primPoly B) (blockEcc primPoly D) s =
      some (.okCount (BitVec.ofNat 4 (differences D B)) B, u) := by
  by_cases hecc : blockEcc primPoly B = blockEcc primPoly D
  · obtain rfl := blockEcc_injective_of_four primPoly hfour hecc
    have hnone : differences D D = 0 := by simp [differences]
    rw [hnone]
    exact exists_correctData_of_equal hidle D _
  have hdec : rsDecode (buildField primPoly) (buildCw D (unpack (blockEcc primPoly B))) =
      .ok (buildCw B (unpack (blockEcc primPoly B)), differences D B) := by
    rw [← differences_buildCw D B (unpack (blockEcc primPoly B))] at hfour ⊢
    exact rsDecode_of_repairable primPoly (allValid_buildCw _ _) (allValid_buildCw _ _) (isCodeword_blockEcc primPoly B) hfour
  obtain ⟨htables, -⟩ :=
    runsOver_of_contextBuilt (s := correctStart D (blockEcc primPoly B) (blockEcc primPoly D) s) hs
  rw [← htables] at hdec
  exact exists_correctData_of_ok hidle (exec_correct_of_decode hecc hdec hfour) rfl rfl (dataBytes_buildCw B _)

/-- Settles O52: the ECC of each block is that of its codeword, and `correct` takes the corrupted block back to the codeword of the
stored ECC. -/
theorem correctionWithinTheBound : Obligations.CorrectionWithinTheBound := by
  unfold Obligations.CorrectionWithinTheBound
  intro s B D hs hidle hfour
  obtain ⟨t, hcompute, hidle, hs⟩ := exists_computeEcc_of_contextBuilt hs hidle B
  obtain ⟨t', hcompute', hidle, hs⟩ := exists_computeEcc_of_contextBuilt hs hidle D
  obtain ⟨u, hcorrect⟩ := exists_correctData_of_repairable hs hidle hfour
  exact ⟨_, _, t, t', u, hcompute, hcompute', hcorrect⟩

theorem differences_corruptByte (B : Buffer Byte 512) {i : Nat} {x : Byte} (hi : i < 512) (hx : x ≠ 0) :
    differences (corruptByte B i x) B = 1 := by
  have hsingle : ((Finset.range 512).filter fun j => (corruptByte B i x).coeff j ≠ B.coeff j) = {i} := by
    ext j
    rw [Finset.mem_filter, Finset.mem_range, Finset.mem_singleton, corruptByte, coeff_set _ _ _ _ hi]
    obtain rfl | hne := eq_or_ne j i
    · rw [if_pos rfl]
      exact iff_of_true ⟨hi, fun h => hx ((BitVec.xor_right_inj _).mp (h.trans BitVec.xor_zero.symm))⟩ rfl
    · rw [if_neg hne]
      exact iff_of_false (fun h => h.2 rfl) hne
  rw [differences_eq_card, hsingle, Finset.card_singleton]

/-- Settles O51: a changed byte is one difference, so this is O52 with the count 1. -/
theorem oneCorruptedByteIsRepaired : Obligations.OneCorruptedByteIsRepaired := by
  unfold Obligations.OneCorruptedByteIsRepaired
  intro s B i x hs hidle hi hx
  have hone := differences_corruptByte B hi hx
  obtain ⟨e, e', t, t', u, hcompute, hcompute', hcorrect⟩ :=
    correctionWithinTheBound s B (corruptByte B i x) hs hidle (by omega)
  rw [hone] at hcorrect
  exact ⟨e, e', t, t', u, hcompute, hcompute', hcorrect⟩

end Sys2Proof.Proofs
end

section
/-! PROOFS for spec/60_exceptions.md: every command and every step answers a next state (R204, R208), which command can end in which
error (R201, R203), and that InvalidSymbol and ZeroInverse come before any result (R204). -/

namespace Sys2Proof.Proofs

open Sys2Proof.Machine Sys2Proof.Laws Sys2Proof.Safety

/-- Settles O6: `exec` and `step` are the total functions `execWith` and `stepWith` at the default `PRIM_POLY`. -/
theorem everyCommandAnswersANextState : Obligations.EveryCommandAnswersANextState := by
  unfold Obligations.EveryCommandAnswersANextState
  exact ⟨fun i s => ⟨_, exec_eq_execWith i s⟩, fun s => ⟨_, step_eq_stepWith s⟩⟩

/-! ## InvalidSymbol (R67, R201) -/

theorem allValid_dataPart_eq_false_iff (cw : Buffer Container 1023) :
    allValid (dataPart cw) = false ↔ ∃ i, i < 1015 ∧ 1024 ≤ (cw.coeff i).toNat := by
  rw [← Bool.not_eq_true, allValid_dataPart_iff]
  push Not
  rfl

theorem gfinvUnit_status (s : State) : (gfinvUnit s).status = if s.gfa = 0 then .zeroInverse else .ok := by
  obtain ⟨hzero, h⟩ | ⟨hne, h⟩ := gfinvUnit_cases s <;> rw [h]
  · rw [if_pos hzero]; rfl
  · rw [if_neg hne]; rfl

theorem encodeUnit_status (s : State) :
    (encodeUnit s).status = if allValid (dataPart s.cw) = false then .invalidSymbol else .ok := by
  obtain ⟨hv, h⟩ | ⟨hv, h⟩ := encodeUnit_cases s <;> rw [h, hv] <;> rfl

theorem syndUnit_status (s : State) : (syndUnit s).status = if allValid s.cw = false then .invalidSymbol else .ok := by
  obtain ⟨hv, h⟩ | ⟨hv, h⟩ := syndUnit_cases s <;> rw [h, hv] <;> rfl

/-- A command that ends with InvalidSymbol under `I` and without an error otherwise. -/
theorem invalidSymbol_iff {st : Status} {I : Prop} [Decidable I] (h : st = if I then .invalidSymbol else .ok) :
    (st = .invalidSymbol ↔ I) ∧ (st = .invalidSymbol ∨ st = .ok) := by
  by_cases hI : I <;> simp [h, hI]

/-! ## Uncorrectable (R201, R203) -/

/-- The status of a command that ends with InvalidSymbol unless `valid`, with Uncorrectable on valid symbols under `U`, and
without an error otherwise. -/
inductive EndsBy (valid : Bool) (U : Prop) : Status → Prop where
  | invalidSymbol (hv : valid = false) : EndsBy valid U .invalidSymbol
  | uncorrectable (hv : valid = true) (hU : U) : EndsBy valid U .uncorrectable
  | ok (hv : valid = true) (hU : ¬ U) : EndsBy valid U .ok

theorem EndsBy.iff {valid : Bool} {U : Prop} {st : Status} (h : EndsBy valid U st) :
    (st = .invalidSymbol ↔ valid = false) ∧ (st = .uncorrectable ↔ valid = true ∧ U) ∧
      (st = .invalidSymbol ∨ st = .uncorrectable ∨ st = .ok) := by
  cases h with
  | invalidSymbol hv => simp [hv]
  | uncorrectable hv hU => simp [hv, hU]
  | ok hv hU => simp [hv, hU]

theorem forneyUnit_endsBy (s : State) :
    EndsBy (allValid s.cw)
      (8 < s.nroot.toNat ∨ ∃ c, c < s.nroot.toNat ∧ derivativeAt s.tables s.lam (s.root.coeff c).toNat = 0)
      (forneyUnit s).status := by
  obtain ⟨hv, h⟩ | ⟨hv, hn, h⟩ | ⟨hv, h8, hzero, h⟩ | ⟨hv, h8, hne, C, -, h⟩ := forneyUnit_cases s <;> rw [h]
  · exact .invalidSymbol hv
  · exact .uncorrectable hv (.inl hn)
  · exact .uncorrectable hv (.inr ((exists_mem_listedRoots h8).mp hzero))
  · refine .ok hv ?_
    rintro (hn | ⟨c, hc, hzero⟩)
    · omega
    · exact (forall_mem_listedRoots h8).mp hne c hc hzero

/-- DECODE of a word that is no codeword leaves in `LAM` its locator. -/
theorem lam_of_decodeUnit {s : State} (hv : allValid s.cw = true) (hz : syndromesAllZero (syndromes s.tables s.cw) = false) :
    (decodeUnit s).lam = locatorOf s.tables s.cw := by
  obtain ⟨-, -, -, hlam, -⟩ := registers_of_search hv rfl
  obtain ⟨hv', -⟩ | ⟨-, hz', -⟩ | ⟨-, -, -, h⟩ | ⟨-, -, -, h⟩ := decodeUnit_cases s
  · rw [hv] at hv'; cases hv'
  · rw [hz] at hz'; cases hz'
  · rw [h, hlam]
  · rw [h, forneyUnit_frame rfl]
    exact hlam

/-- R201: over the field of `p` DECODE is Uncorrectable exactly at the root count. -/
theorem decodeUnit_endsBy {p : PrimPoly} {s : State} (htables : s.tables = buildField p) :
    EndsBy (allValid s.cw)
      (¬ IsCodeword (buildField p) s.cw ∧ (decodeUnit s).nroot.toNat ≠ degree (decodeUnit s).lam)
      (decodeUnit s).status := by
  rw [← syndromesAllZero_syndromes_iff, ← htables]
  obtain ⟨hv, h⟩ | ⟨hv, hz, h⟩ | ⟨hv, hz, hcount, h⟩ | ⟨hv, hz, hcount, hstatus, -⟩ := decodeUnit_cases_over_field htables
  · rw [h]
    exact .invalidSymbol hv
  · rw [h, syndUnit_of_valid hv]
    exact .ok hv fun ⟨hcode, _⟩ => hcode hz
  all_goals rw [nroot_of_decodeUnit hv hz, lam_of_decodeUnit hv hz, hz]
  · obtain ⟨-, -, -, -, -, -, hstatus⟩ := registers_of_search hv rfl
    rw [h, hstatus, if_neg hcount]
    exact .uncorrectable hv ⟨Bool.false_ne_true, hcount⟩
  · rw [hstatus]
    exact .ok hv fun ⟨_, hne⟩ => hne hcount

/-! ## CORRECT (R186, R201) -/

theorem status_of_correct {s t : State} (h : exec .correct s = .next t) :
    (t.status = .uncorrectable ↔ s.eccS ≠ s.eccR ∧ BeyondCorrection (doInit primPoly s).tables (storedWord s)) ∧
      (t.status = .uncorrectable ∨ t.status = .ok) := by
  obtain rfl : t = correctUnit (doInit primPoly s) := eq_commandUnit_of_exec h
  rw [← storedWord_doInit, ← doInit_eccS primPoly s, ← doInit_eccR primPoly s]
  obtain ⟨heq, h⟩ | ⟨-, C, count, hdec, hcount, h⟩ | ⟨hne, hfail, h⟩ := correctUnit_ends (doInit primPoly s) <;> rw [h]
  · exact ⟨iff_of_false nofun fun ⟨hne, _⟩ => hne heq, .inr rfl⟩
  · exact ⟨iff_of_false nofun fun ⟨_, hfail⟩ => Nat.not_lt.mpr hcount (hfail C count hdec), .inr rfl⟩
  · exact ⟨iff_of_true rfl ⟨hne, hfail⟩, .inl rfl⟩

/-- R163, R165: how the decode of valid symbols ends over the field of a primitive `PRIM_POLY`. -/
theorem rsDecode_cases_over_field (p : PrimPoly) {C : Buffer Container 1023} (hv : allValid C = true) :
    (IsCodeword (buildField p) C ∧ rsDecode (buildField p) C = .ok (C, 0)) ∨
    (¬ IsCodeword (buildField p) C ∧
      (chienRoots (buildField p) (locatorOf (buildField p) C)).length ≠ degree (locatorOf (buildField p) C) ∧
      rsDecode (buildField p) C = .error .uncorrectable) ∨
    (¬ IsCodeword (buildField p) C ∧
      (chienRoots (buildField p) (locatorOf (buildField p) C)).length = degree (locatorOf (buildField p) C) ∧
      ∃ C', rsDecode (buildField p) C = .ok (C', (chienRoots (buildField p) (locatorOf (buildField p) C)).length)) := by
  rw [← syndromesAllZero_syndromes_iff, Bool.not_eq_true]
  cases hz : syndromesAllZero (syndromes (buildField p) C) with
  | true => exact .inl ⟨rfl, rsDecode_of_codeword hv hz⟩
  | false =>
    refine .inr ?_
    by_cases hcount :
      (chienRoots (buildField p) (locatorOf (buildField p) C)).length = degree (locatorOf (buildField p) C)
    · refine .inr ⟨rfl, hcount, ?_⟩
      cases hC' : applyMagnitudes (buildField p) (omegaPoly (buildField p) (syndromes (buildField p) C)
          (locatorOf (buildField p) C)) (locatorOf (buildField p) C)
          (chienRoots (buildField p) (locatorOf (buildField p) C)) C with
      | error e =>
        obtain rfl := applyMagnitudes_error _ _ _ _ _ _ hC'
        obtain ⟨rho, hrho, hzero⟩ := (applyMagnitudes_error_iff _ _ _ _ _).mp hC'
        exact absurd hzero (derivativeAt_locatorOf_ne_zero p hcount rho hrho)
      | ok C' => exact ⟨C', rsDecode_of_count_eq hv hz hcount hC'⟩
    · exact .inl ⟨rfl, hcount, rsDecode_of_count_ne hv hz hcount⟩

/-- R201: over the field of `p` the root count of the locator alone decides. -/
theorem beyondCorrection_iff (p : PrimPoly) {C : Buffer Container 1023} (hv : allValid C = true) :
    BeyondCorrection (buildField p) C ↔
      ¬ IsCodeword (buildField p) C ∧
        (rootCount (buildField p) (locatorOf (buildField p) C) ≠ degree (locatorOf (buildField p) C) ∨
          4 < rootCount (buildField p) (locatorOf (buildField p) C)) := by
  rw [rootCount, ← length_chienRoots_eq_card, BeyondCorrection]
  obtain ⟨hcode, h⟩ | ⟨hcode, hcount, h⟩ | ⟨hcode, hcount, C', h⟩ := rsDecode_cases_over_field p hv <;> rw [h]
  · exact iff_of_false (fun hall => absurd (hall C 0 rfl) (by decide)) fun ⟨hne, _⟩ => hne hcode
  · exact iff_of_true nofun ⟨hcode, .inl hcount⟩
  · constructor
    · exact fun hall => ⟨hcode, .inr (hall C' _ rfl)⟩
    · rintro ⟨-, hne | hfour⟩ C' count heq
      · exact absurd hcount hne
      · cases heq
        exact hfour

/-- The six commands that raise no error. -/
theorem status_of_commands_without_error {i : Instr} (hi : i ∈ [Instr.init, .gfmul, .bmsolve, .pack, .unpack, .compute])
    (s : State) : (commandUnit i s).status = .ok := by
  obtain rfl | rfl | rfl | rfl | rfl | rfl :
      i = .init ∨ i = .gfmul ∨ i = .bmsolve ∨ i = .pack ∨ i = .unpack ∨ i = .compute := by simpa using hi
  case inr.inr.inr.inr.inr =>
    show (computeUnit s).status = .ok
    rw [computeUnit_eq]
    rfl
  all_goals rfl

/-- Settles O53: the ways each unit can end, on the state after `do_init`, which writes no operand. -/
theorem whichCommandEndsInWhichError : Obligations.WhichCommandEndsInWhichError := by
  unfold Obligations.WhichCommandEndsInWhichError
  refine ⟨fun i s t hi h => ?_, fun s t h => ?_, fun s t h => ?_, fun s t h => ?_, fun s t h => ?_, fun s t h => ?_,
    fun p s t ⟨htables, _⟩ h => ?_, fun s t h => status_of_correct h, fun p s t ⟨htables, _⟩ h => ?_,
    fun s t e hw hd h => ?_⟩
  · rw [eq_commandUnit_of_exec h]
    exact status_of_commands_without_error hi _
  · obtain rfl : t = gfinvUnit (doInit primPoly s) := eq_commandUnit_of_exec h
    rw [gfinvUnit_status, doInit_gfa]
  · obtain rfl : t = encodeUnit (doInit primPoly s) := eq_commandUnit_of_exec h
    rw [← allValid_dataPart_eq_false_iff, ← doInit_cw primPoly s]
    exact invalidSymbol_iff (encodeUnit_status _)
  · obtain rfl : t = syndUnit (doInit primPoly s) := eq_commandUnit_of_exec h
    rw [← allValid_eq_false_iff, ← doInit_cw primPoly s]
    exact invalidSymbol_iff (syndUnit_status _)
  · obtain ⟨hnroot, hstatus⟩ := nroot_status_of_chien h
    rw [hnroot, hstatus]
  · obtain rfl : t = forneyUnit (doInit primPoly s) := eq_commandUnit_of_exec h
    rw [← allValid_eq_false_iff, ← allValid_iff, ← doInit_cw primPoly s, ← doInit_nroot primPoly s,
      ← doInit_root primPoly s, ← doInit_lam primPoly s]
    exact (forneyUnit_endsBy _).iff
  · obtain rfl : t = decodeUnit (doInit primPoly s) := eq_commandUnit_of_exec h
    rw [← allValid_eq_false_iff, ← allValid_iff, ← doInit_cw primPoly s]
    exact (decodeUnit_endsBy htables).iff
  · obtain ⟨hstatus, -⟩ := status_of_correct h
    rw [htables, storedWord, beyondCorrection_iff p (allValid_buildCw _ _)] at hstatus
    exact hstatus
  · rw [step_of_decode_error hw hd] at h
    cases h
    rfl

/-! ## Errors before any result (R204) -/

/-- R204: InvalidSymbol and ZeroInverse change `STATUS` and `RESULT` alone. -/
def PreciseEnd (s t : State) : Prop :=
  t.status = .invalidSymbol ∨ t.status = .zeroInverse → t = { s with status := t.status, result := 0 }

theorem PreciseEnd.raised (e : ErrorKind) (s : State) : PreciseEnd s (raise e s) := fun _ => rfl

theorem PreciseEnd.of_ok {s t : State} (h : t.status = .ok) : PreciseEnd s t := by
  rintro (h' | h') <;> rw [h] at h' <;> cases h'

theorem PreciseEnd.of_uncorrectable {s t : State} (h : t.status = .uncorrectable) : PreciseEnd s t := by
  rintro (h' | h') <;> rw [h] at h' <;> cases h'

theorem syndUnit_preciseEnd (s : State) : PreciseEnd s (syndUnit s) := by
  obtain ⟨-, h⟩ | ⟨-, h⟩ := syndUnit_cases s <;> rw [h]
  · exact .raised _ _
  · exact .of_ok rfl

/-- On valid symbols FORNEY is left with Uncorrectable. -/
theorem forneyUnit_preciseEnd_of_valid (s : State) {u : State} (hv : allValid u.cw = true) : PreciseEnd s (forneyUnit u) := by
  obtain ⟨hinvalid, -, h⟩ := (forneyUnit_endsBy u).iff
  obtain h | h | h := h
  · rw [hinvalid, hv] at h
    cases h
  · exact .of_uncorrectable h
  · exact .of_ok h

/-- R164: DECODE checks all of `CW` in its SYND, so its FORNEY meets no invalid symbol. -/
theorem decodeUnit_preciseEnd (s : State) : PreciseEnd s (decodeUnit s) := by
  obtain ⟨-, h⟩ | ⟨-, -, h⟩ | ⟨-, -, hstatus, h⟩ | ⟨hv, -, -, h⟩ := decodeUnit_cases s <;> rw [h]
  · exact .raised _ _
  · exact syndUnit_preciseEnd s
  · exact .of_uncorrectable hstatus
  · obtain ⟨-, hcw, -⟩ := registers_of_search hv rfl
    exact forneyUnit_preciseEnd_of_valid s (by rw [hcw, hv])

theorem commandUnit_preciseEnd (i : Instr) (s : State) : PreciseEnd s (commandUnit i s) := by
  cases i with
  | init | gfmul | bmsolve | pack | unpack | compute => exact .of_ok (status_of_commands_without_error (by decide) s)
  | gfinv =>
    show PreciseEnd s (gfinvUnit s)
    obtain ⟨-, h⟩ | ⟨_, h⟩ := gfinvUnit_cases s <;> rw [h]
    · exact .raised _ _
    · exact .of_ok rfl
  | encode =>
    show PreciseEnd s (encodeUnit s)
    obtain ⟨-, h⟩ | ⟨-, h⟩ := encodeUnit_cases s <;> rw [h]
    · exact .raised _ _
    · exact .of_ok rfl
  | synd => exact syndUnit_preciseEnd s
  | chien =>
    show PreciseEnd s (chienUnit s)
    rw [chienUnit]
    split
    · exact .of_ok rfl
    · exact .of_uncorrectable rfl
  | forney =>
    cases hv : allValid s.cw with
    | false =>
      show PreciseEnd s (forneyUnit s)
      rw [forneyUnit_of_invalid hv]
      exact .raised _ _
    | true => exact forneyUnit_preciseEnd_of_valid s hv
  | decode => exact decodeUnit_preciseEnd s
  | correct =>
    show PreciseEnd s (correctUnit s)
    obtain ⟨-, h⟩ | ⟨-, C, count, -, -, h⟩ | ⟨-, -, h⟩ := correctUnit_ends s <;> rw [h]
    · exact .of_ok rfl
    · exact .of_ok rfl
    · exact .of_uncorrectable rfl

/-- Settles O56: every unit ends precisely on the state after `do_init`; PACK and UNPACK, which run none, end with Ok. -/
theorem preciseErrorsWriteNoResult : Obligations.PreciseErrorsWriteNoResult := by
  unfold Obligations.PreciseErrorsWriteNoResult
  intro i s t h hstatus
  obtain rfl := eq_commandUnit_of_exec h
  cases i
  case pack | unpack => exact PreciseEnd.of_ok rfl hstatus
  all_goals exact commandUnit_preciseEnd _ _ hstatus

end Sys2Proof.Proofs
end

section
/-! PROOFS for spec/70_reset_and_hazards.md: a second FORNEY on the same registers undoes the first (R234). -/

namespace Sys2Proof.Proofs

open Sys2Proof.Machine Sys2Proof.Laws

/-- The corrector adds the same magnitudes to whatever word it is given. -/
theorem applyMagnitudes_twice {F : FieldTables} {omega : Buffer Symbol 8} {lam : Buffer Symbol 9} {roots : List Nat}
    {C C' C'' : Buffer Container 1023} (hv : allValid C = true) (h : applyMagnitudes F omega lam roots C = .ok C')
    (h' : applyMagnitudes F omega lam roots C' = .ok C'') : C'' = C := by
  obtain ⟨-, hstay⟩ := applyMagnitudes_ok F omega lam roots C C' h
  refine buffer_ext_coeff fun pos hpos => ?_
  rw [coeff_applyMagnitudes (hstay hv) h' hpos, coeff_applyMagnitudes hv h hpos, BitVec.xor_assoc, BitVec.xor_self,
    BitVec.xor_zero]

/-- The second run finds the registers, and so the derivatives and magnitudes, of the first; only the word has changed. -/
theorem forneyUnit_twice {s : State} (h : (forneyUnit s).status = .ok) :
    (forneyUnit (forneyUnit s)).status = .ok ∧ (forneyUnit (forneyUnit s)).cw = s.cw := by
  obtain ⟨-, heq⟩ | ⟨-, -, heq⟩ | ⟨-, -, -, heq⟩ | ⟨hv, h8, hne, C, hC, heq⟩ := forneyUnit_cases s
  · rw [heq] at h; cases h
  · rw [heq] at h; cases h
  · rw [heq] at h; cases h
  · obtain ⟨-, hstay⟩ := applyMagnitudes_ok _ _ _ _ _ _ hC
    obtain ⟨C', hC', heq'⟩ := forneyUnit_of_derivatives (s := forneyUnit s) (by rw [heq]; exact hstay hv)
      (by rw [heq]; exact h8) (by rw [heq]; exact (forall_mem_listedRoots h8).mp hne)
    rw [heq] at hC'
    rw [heq']
    exact ⟨rfl, applyMagnitudes_twice hv hC hC'⟩

/-- Settles O35: adding a magnitude twice adds nothing, and the second `do_init` writes nothing. -/
theorem forneyTwiceUndoesTheCorrection : Obligations.ForneyTwiceUndoesTheCorrection := by
  unfold Obligations.ForneyTwiceUndoesTheCorrection
  intro s t u hfirst hok hsecond
  obtain rfl : t = forneyUnit (doInit primPoly s) := eq_commandUnit_of_exec hfirst
  have hdone : (forneyUnit (doInit primPoly s)).initDone = true :=
    (forneyUnit_sameContext _).initDone.trans (doInit_initDone primPoly s)
  obtain ⟨hu, -⟩ := eq_commandUnit_of_initDone hdone hsecond
  obtain rfl : u = forneyUnit (forneyUnit (doInit primPoly s)) := hu
  rw [← doInit_cw primPoly s]
  exact forneyUnit_twice hok

end Sys2Proof.Proofs
end
